-- ==== Sys2Proof/Word.lean ====
section
/-! DEFINITION. The word types of the B32 block (00_scope.md R6, R9): every quantity is unsigned, bit 0 is the least significant bit. -/

namespace Sys2Proof

/-- A byte, 8 bits (R9). -/
abbrev Byte := BitVec 8

/-- A 5-bit value, the index of an alphabet symbol (R9, R90). -/
abbrev Sym5 := BitVec 5

/-- A position or character count, `POS_BITS` = 64 bits (R6). -/
abbrev Pos := BitVec 64

/-- A wrap width or column, `WRAP_BITS` = 32 bits (R6). -/
abbrev Width := BitVec 32

/-- A command word, `CMD_BITS` = 36 bits (R6, R70). -/
abbrev CmdWord := BitVec 36

/-- The 40 bits of one group (R55, R96). -/
abbrev GroupBits := BitVec 40

end Sys2Proof
end

