-- ==== Sys2Proof/Syntax.lean ====
section
/-! DEFINITION. The commands of the block (30_encoding.md R71), one constructor per row of the opcode table, with the operands of R76; the two raw fields of a command word (R70); the lines of the program text (R82, R83). -/

namespace Sys2Proof

/-- A command with its operand (R71, R76). The operand types admit exactly the legal operand values, so every term is well formed. -/
inductive Instr where
  /-- `ENC width`: open an encode invocation (R72). -/
  | enc (width : Width)
  /-- `DEC ig`: open a decode invocation, `ig` true for lenient mode (R73). -/
  | dec (ig : Bool)
  /-- `PUT byte`: the next input byte (R74). -/
  | put (byte : Byte)
  /-- `END`: the input is complete (R75). -/
  | endInv
deriving DecidableEq, Repr

/-- The two fields of any command word, legal or not (R70). -/
structure RawCommand where
  /-- `op`, bits 35:32. -/
  op : BitVec 4
  /-- `arg`, bits 31:0. -/
  arg : BitVec 32
deriving DecidableEq, Repr

/-- A line of a program text as written, its numbers not yet checked (R82), with the pseudo-commands of R83. -/
inductive AsmLine where
  | enc (width : Nat)
  | dec (ig : Nat)
  | put (byte : Nat)
  | endInv
  /-- `.word 0x...`: the word itself, which may be illegal (R82). -/
  | dotWord (word : Nat)
  /-- `PUTS "<string>"` (R83). -/
  | puts (text : List Byte)
  /-- `ENCODE <width>, "<string>"` (R83). -/
  | encode (width : Nat) (text : List Byte)
  /-- `DECODE <ig>, "<string>"` (R83). -/
  | decode (ig : Nat) (text : List Byte)
deriving DecidableEq, Repr

end Sys2Proof
end

