-- ==== Sys2Proof/Machine/Operands.lean ====
section
/-! DEFINITION. Operand assembly (30_encoding.md R70, R76): every operand is an immediate cut out of the word, with no extension, scaling or shift. -/

namespace Sys2Proof.Machine

/-- `op = w[35:32]` (R70). -/
def opField (w : CmdWord) : BitVec 4 := w.extractLsb' 32 4

/-- `arg = w[31:0]` (R70). -/
def argField (w : CmdWord) : BitVec 32 := w.extractLsb' 0 32

/-- The two fields of a word (R70). -/
def rawFields (w : CmdWord) : RawCommand := ⟨opField w, argField w⟩

/-- The word with the given fields, `op : arg` (R9, R70). -/
def wordOfFields (r : RawCommand) : CmdWord := r.op ++ r.arg

/-- `ENC`: `width = arg[31:0]` (R76). -/
def encWidth (arg : BitVec 32) : Width := arg

/-- `DEC`: `ig = arg[0]` (R76). -/
def decIg (arg : BitVec 32) : Bool := arg.getLsbD 0

/-- `DEC`: the reserved field `arg[31:1]` (R73). -/
def decReserved (arg : BitVec 32) : BitVec 31 := arg.extractLsb' 1 31

/-- `PUT`: `byte = arg[7:0]` (R76). -/
def putByte (arg : BitVec 32) : Byte := arg.extractLsb' 0 8

/-- `PUT`: the reserved field `arg[31:8]` (R74). -/
def putReserved (arg : BitVec 32) : BitVec 24 := arg.extractLsb' 8 24

/-- `END`: the reserved field `arg[31:0]` (R75). -/
def endReserved (arg : BitVec 32) : BitVec 32 := arg

end Sys2Proof.Machine
end

