-- ==== Sys2Proof/WellFormed.lean ====
section
/-! DEFINITION. What makes a command word legal (30_encoding.md R71, R77, R78) and a program line acceptable to the assembler (R82). A term of `Instr` needs no check: its operand types admit the legal values only. -/

namespace Sys2Proof

/-- The opcode is one of the four (R71, R77). -/
def RawCommand.opDefined (r : RawCommand) : Bool :=
  r.op == 1 || r.op == 2 || r.op == 3 || r.op == 4

/-- The reserved field of the opcode's format is zero (R78); `ENC` has none (R72). -/
def RawCommand.reservedZero (r : RawCommand) : Bool :=
  if r.op = 2 then Machine.decReserved r.arg == 0
  else if r.op = 3 then Machine.putReserved r.arg == 0
  else if r.op = 4 then Machine.endReserved r.arg == 0
  else true

/-- The word is one of the four commands (R79). -/
def RawCommand.wellFormed (r : RawCommand) : Bool :=
  r.opDefined && r.reservedZero

/-- The operands are in range: the assembler rejects the others (R82). The range of `.word`, the 36 bits of a command word, is the model's choice (log entry 12). -/
def AsmLine.wellFormed : AsmLine → Bool
  | .enc width => width < 2 ^ 32
  | .dec ig => ig < 2
  | .put byte => byte < 2 ^ 8
  | .endInv => true
  | .dotWord word => word < 2 ^ 36
  | .puts _ => true
  | .encode width _ => width < 2 ^ 32
  | .decode ig _ => ig < 2

end Sys2Proof
end

