-- ==== Sys2Proof/Decode.lean ====
section
/-! DEFINITION. Command decoding, total, rejecting by name (30_encoding.md R81), the encoder written from the same table (R71 to R75), and the host's view of the decoder by opcode-table bits. -/

namespace Sys2Proof

/-- Why a word is no command; both raise `IllegalCommand` when the word is accepted. -/
inductive Illegal where
  /-- The opcode is `0x0` or `0x5` to `0xF` (R77). -/
  | reservedOpcode
  /-- The opcode is defined and a reserved argument bit is set (R78). -/
  | reservedField
deriving DecidableEq, Repr

/-- `decode_cmd` (R81), with the two kinds of illegal word told apart. -/
def decode (w : CmdWord) : Except Illegal Instr :=
  let op := Machine.opField w
  let arg := Machine.argField w
  if op = 1 then .ok (.enc (Machine.encWidth arg))
  else if op = 2 then
    if Machine.decReserved arg = 0 then .ok (.dec (Machine.decIg arg)) else .error .reservedField
  else if op = 3 then
    if Machine.putReserved arg = 0 then .ok (.put (Machine.putByte arg)) else .error .reservedField
  else if op = 4 then
    if Machine.endReserved arg = 0 then .ok .endInv else .error .reservedField
  else .error .reservedOpcode

/-- The fields of a command (R71): the operand in the low bits of `arg`, the reserved bits zero. -/
def rawOf : Instr → RawCommand
  | .enc width => ⟨1, width⟩
  | .dec ig => ⟨2, if ig then 1 else 0⟩
  | .put byte => ⟨3, byte.setWidth 32⟩
  | .endInv => ⟨4, 0⟩

/-- The word of a command (R72 to R75). -/
def encode (i : Instr) : CmdWord := Machine.wordOfFields (rawOf i)

/-- The instruction the decoder reads from a word given as the opcode table numbers its bits: one word of 36 bits, bit 0 the least significant (R9, R56). A value with a bit above bit 35 is no command word (log entry 17). -/
def decodeTableWord (nbits w : Nat) : Option Instr :=
  let v := w % 2 ^ nbits
  if v < 2 ^ 36 then
    match decode (BitVec.ofNat 36 v) with
    | .ok i => some i
    | .error _ => none
  else none

end Sys2Proof
end

