-- ==== Sys2Proof/Config.lean ====
section
/-! DEFINITION. What is fixed for the block: the parameters of 00_scope.md R6 that have a value, the fixed features of R8, the byte codes of 40_codec_functions.md R92 and R94, the table addresses and class markers of 20_memory.md R51. `OBUF_CAP`, the one open parameter, is data of the state (log entry 4). There is no free value: the spec leaves no result of a performed command open. -/

namespace Sys2Proof.Config

/-- `POS_BITS` (R6, log entry 18). -/
abbrev posBits : Nat := 64

/-- `WRAP_BITS` (R6, log entry 18). -/
abbrev wrapBits : Nat := 32

/-- `CMD_BITS` (R6, R70). -/
abbrev cmdBits : Nat := 36

/-- Characters of an encoded group (R8). -/
abbrev groupSymbols : Nat := 8

/-- `PAD`, the padding symbol `=` (R92, R93). -/
def pad : Byte := 0x3D

/-- `LF`, the one line-break byte (R92, R94). -/
def lf : Byte := 0x0A

/-- `PADV`, the entry of `VAL` at the pad (R51, R91). -/
def padv : Byte := 0x40

/-- `NONE`, the entry of `VAL` at a byte that is neither a symbol nor the pad (R51, R91). -/
def noValue : Byte := 0xFF

/-- `SYM_BASE` (R51). -/
def symBase : Nat := 0

/-- `VAL_BASE` (R51). -/
def valBase : Nat := 32

end Sys2Proof.Config
end

