-- ==== Sys2Proof/Machine/Tables.lean ====
section
/-! DEFINITION. The alphabet tables `SYM` and `VAL` (40_codec_functions.md R90 to R93) and the constant table space they stand in (20_memory.md R51, R59). -/

namespace Sys2Proof.Machine

/-- `SYM[v]`: 5-bit value to symbol, `A`-`Z` then `2`-`7` (R90, R92). -/
def sym (v : Sym5) : Byte :=
  if v < 26 then 0x41 + v.setWidth 8 else 0x32 + (v.setWidth 8 - 26)

/-- `VAL[c]`: byte to value or class marker (R91). -/
def val (c : Byte) : Byte :=
  if 0x41 ≤ c ∧ c ≤ 0x5A then c - 0x41
  else if 0x32 ≤ c ∧ c ≤ 0x37 then c - 0x32 + 26
  else if c = Config.pad then Config.padv
  else Config.noValue

/-- `is_sym(c)` (R91). -/
def isSym (c : Byte) : Bool := val c ≤ 31

/-- `is_pad(c)` (R91). -/
def isPad (c : Byte) : Bool := c == Config.pad

/-- The 5-bit value of a symbol, the low bits of its `VAL` entry. -/
def symValue (c : Byte) : Sym5 := (val c).setWidth 5

/-- `MemRead(addr, 1)` on the table space (R51): `SYM` at 0..31, `VAL` at 32..287, no other address exists (R59). No command carries an address (R50). -/
def tableRead (addr : Nat) : Option Byte :=
  if addr < Config.valBase then some (sym (BitVec.ofNat 5 (addr - Config.symBase)))
  else if addr < Config.valBase + 256 then some (val (BitVec.ofNat 8 (addr - Config.valBase)))
  else none

end Sys2Proof.Machine
end

