-- ==== Sys2Proof/Machine/Codec.lean ====
section
/-! DEFINITION. The codec functions of 40_codec_functions.md: the two group datapaths (R95 to R97, R103 to R105) and the whole-message functions `ENCODE`, `WRAP`, `ENCODE_STREAM`, `PRE`, `CORE_DECODE`, `DECODE` (R98 to R109). They are pure functions on byte sequences; the command files compute them one byte at a time. -/

namespace Sys2Proof.Machine

/-- The two codec errors (60_exceptions.md R165). -/
inductive CodecError where
  | invalidLength
  | invalidCharacter
deriving DecidableEq, Repr

/-- The answer of `DEC_GROUP`: bytes, or an error at an index within the group (R104). -/
inductive GroupResult where
  | ok (bytes : List Byte)
  | err (kind : CodecError) (index : Nat)
deriving DecidableEq, Repr

/-- The answer of `CORE_DECODE` and `DECODE`: bytes, or an error at a position of the significant stream (R107, R109). -/
inductive DecodeResult where
  | ok (bytes : List Byte)
  | err (kind : CodecError) (position : Nat)
deriving DecidableEq, Repr

/-! ### Bit layout of a group (R55, R97, R105) -/

/-- `b0 : b1 : b2 : b3 : b4`, absent bytes zero (R96). -/
def packBytes (b : List Byte) : GroupBits :=
  b.getD 0 0 ++ b.getD 1 0 ++ b.getD 2 0 ++ b.getD 3 0 ++ b.getD 4 0

/-- `v0 : v1 : ... : v7`, absent values zero: the bit string of `DEC_GROUP` aligned at the top (R104). -/
def packValues (v : List Sym5) : GroupBits :=
  v.getD 0 0 ++ v.getD 1 0 ++ v.getD 2 0 ++ v.getD 3 0 ++ v.getD 4 0 ++ v.getD 5 0 ++ v.getD 6 0 ++ v.getD 7 0

/-- The 5-bit field `V[39-5j : 35-5j]`, for `j` in 0..7 (R96). -/
def valueAt (V : GroupBits) (j : Nat) : Sym5 := V.extractLsb' (35 - 5 * j) 5

/-- The byte `V[39-8j : 32-8j]`, for `j` in 0..4 (R96, R104). -/
def byteAt (V : GroupBits) (j : Nat) : Byte := V.extractLsb' (32 - 8 * j) 8

/-! ### Encoding -/

/-- `NSYM(k)`, the symbols of a group of `k` bytes, as the table of R95 gives them for `k` in 1..5; 0 elsewhere (log entry 16). -/
def nsym : Nat → Nat
  | 1 => 2
  | 2 => 4
  | 3 => 5
  | 4 => 7
  | 5 => 8
  | _ => 0

/-- `ENC_GROUP(b)` (R96): always 8 characters. -/
def encGroup (b : List Byte) : List Byte :=
  (List.range Config.groupSymbols).map fun j =>
    if j < nsym b.length then sym (valueAt (packBytes b) j) else Config.pad

/-- `ENCODE(x)` (R98): chunks of 5 bytes, the last may be partial. -/
def encodeBytes : List Byte → List Byte
  | b0 :: b1 :: b2 :: b3 :: b4 :: rest => encGroup [b0, b1, b2, b3, b4] ++ encodeBytes rest
  | [] => []
  | short => encGroup short

/-- The lines of a non-empty sequence at a width `w > 0`, each closed by `LF` (R100). The first argument bounds the number of lines. -/
def wrapLines : Nat → List Byte → Nat → List Byte
  | 0, _, _ => []
  | fuel + 1, s, w =>
    if s = [] then [] else s.take w ++ [Config.lf] ++ wrapLines fuel (s.drop w) w

/-- `WRAP(s, w)` (R100). -/
def wrap (s : List Byte) (w : Nat) : List Byte :=
  if w = 0 then s ++ [Config.lf]
  else if s = [] then [Config.lf]
  else wrapLines s.length s w

/-- The lines of a sequence at a width `w > 0` with an `LF` after each full line only. -/
def wrapOpenLines : Nat → List Byte → Nat → List Byte
  | 0, _, _ => []
  | fuel + 1, s, w =>
    if s.length < w then s else s.take w ++ [Config.lf] ++ wrapOpenLines fuel (s.drop w) w

/-- `WRAP'`: `WRAP` without the trailing-line-break step (42_encode_path.md R134). -/
def wrapOpen (s : List Byte) (w : Nat) : List Byte :=
  if w = 0 then s else wrapOpenLines (s.length + 1) s w

/-- `ENCODE_STREAM(x, w)` (R101). -/
def encodeStream (x : List Byte) (w : Nat) : List Byte := wrap (encodeBytes x) w

/-! ### Decoding -/

/-- `NBYTES(p)`, the bytes of a final group with `p` pads, as the table of R103 gives them; none for an illegal pad count. -/
def nbytes : Nat → Option Nat
  | 0 => some 5
  | 1 => some 4
  | 3 => some 3
  | 4 => some 2
  | 6 => some 1
  | _ => none

/-- The character tests of `DEC_GROUP` in order (R104): `i` is the index of the next character, `p` the pads seen, `vals` the values so far. The first failure answers the offending index; all failures are `InvalidCharacter`. -/
def scanGroup (final : Bool) : List Byte → Nat → Nat → List Sym5 → Except Nat (Nat × List Sym5)
  | [], _, p, vals => .ok (p, vals)
  | c :: cs, i, p, vals =>
    if isSym c then
      if p > 0 then .error i else scanGroup final cs (i + 1) p (vals ++ [symValue c])
    else if isPad c then
      if final then scanGroup final cs (i + 1) (p + 1) vals else .error i
    else .error i

/-- `DEC_GROUP(c, final)` (R104): the bits below the kept bytes are dropped unexamined (R111, log entry 14). -/
def decGroup (c : List Byte) (final : Bool) : GroupResult :=
  match scanGroup final c 0 0 [] with
  | .error i => .err .invalidCharacter i
  | .ok (p, vals) =>
    match nbytes p with
    | none => .err .invalidLength (8 - p)
    | some n => .ok ((List.range n).map (byteAt (packValues vals)))

/-- `PRE(x, ig)` (R106): strict mode strips the longest suffix of `LF`, lenient mode keeps symbols and pads only (log entries 13, 14). -/
def pre (x : List Byte) (ig : Bool) : List Byte :=
  if ig then x.filter (fun c => isSym c || isPad c)
  else (x.reverse.dropWhile (fun c => c == Config.lf)).reverse

/-- The groups of 8 characters of `s` in order, the first at position `base`, up to the first error: the bytes decoded before it, and the error with its position (R107). `lastFinal` says whether the last group is the final one. Characters after the last whole group are not examined. -/
def scanGroups (lastFinal : Bool) : Nat → List Byte → List Byte × Option (CodecError × Nat)
  | base, c0 :: c1 :: c2 :: c3 :: c4 :: c5 :: c6 :: c7 :: rest =>
    match decGroup [c0, c1, c2, c3, c4, c5, c6, c7] (lastFinal && rest.isEmpty) with
    | .err kind i => ([], some (kind, base + i))
    | .ok bytes =>
      let r := scanGroups lastFinal (base + 8) rest
      (bytes ++ r.1, r.2)
  | _, _ => ([], none)

/-- `CORE_DECODE(s)` (R107): the total length first, then the groups in stream order (log entry 14). -/
def coreDecode (s : List Byte) : DecodeResult :=
  if s.length % 8 ≠ 0 then .err .invalidLength (8 * (s.length / 8))
  else
    match scanGroups true 0 s with
    | (bytes, none) => .ok bytes
    | (_, some (kind, pos)) => .err kind pos

/-- `DECODE(x, ig)` (R108). -/
def decodeBytes (x : List Byte) (ig : Bool) : DecodeResult := coreDecode (pre x ig)

/-- How many decoded bytes a decode invocation on `x` holds in `OBUF` at most (00_scope.md R7 (b)): the bytes of the groups closed before the first error. The last group is closed as final when the significant length is a multiple of 8, and otherwise the incomplete group is never closed. -/
def obufPeak (x : List Byte) (ig : Bool) : Nat :=
  let s := pre x ig
  (scanGroups (s.length % 8 == 0) 0 s).1.length

end Sys2Proof.Machine
end

