-- ==== Sys2Proof/Machine/State.lean ====
section
/-! DEFINITION. The state of the block (10_state.md section 1), the reasons a step can stop, and the state after reset (R41). Plain data. -/

namespace Sys2Proof.Machine

/-- `PHASE` (R26). Code 3 never occurs, so the value does not exist (93_implementation_defined.md U5, log entry 8). -/
inductive Phase where
  /-- No invocation is open, code 0. -/
  | idle
  /-- An encode invocation is open, code 1. -/
  | enc
  /-- A decode invocation is open, code 2. -/
  | dec
deriving DecidableEq, Repr

/-- The coding of `ERR_KIND` and `ELAT_KIND` (R32, R36). Code 3 never occurs (U5, log entry 8). -/
inductive ErrKind where
  /-- Code 0. -/
  | noError
  /-- Code 1. -/
  | invalidLength
  /-- Code 2. -/
  | invalidCharacter
deriving DecidableEq, Repr

/-- What the host can present to the block: a command word (20_memory.md R52) or an assertion of the reset input (70_reset_and_hazards.md R190). -/
inductive HostInput where
  | word (w : CmdWord)
  | reset
deriving DecidableEq, Repr

/-- All state of the block, and the command stream it accepts from. The last two fields are the model's own (log entries 4, 5). -/
structure State where
  /-- `PHASE` (R26). -/
  phase : Phase
  /-- `DONE` (R31). -/
  done : Bool
  /-- `ERR_KIND` (R32). -/
  errKind : ErrKind
  /-- `ERR_POS` (R33). -/
  errPos : Pos
  /-- `FAULT`: bit 0 `ILL`, bit 1 `SEQ` (R30). -/
  fault : BitVec 2
  /-- `WW` (R34). -/
  ww : Width
  /-- `IG` (R34). -/
  ig : Bool
  /-- `EBUF[0..3]` (R21). -/
  ebuf : Vector Byte 4
  /-- `ECNT`, 0..4 (R21, R40 (b), log entry 9). -/
  ecnt : Fin 5
  /-- `COL` (R35). -/
  col : Width
  /-- `ANY` (R35). -/
  any : Bool
  /-- `WIN[0..7]` (R22). -/
  win : Vector Byte 8
  /-- `GCNT`, 0..8 (R22, R40 (b), log entry 9). -/
  gcnt : Fin 9
  /-- `N` (R27). -/
  n : Pos
  /-- `NLRUN` (R28). -/
  nlrun : Pos
  /-- `ELAT_V` (R36). -/
  elatV : Bool
  /-- `ELAT_KIND` (R36). -/
  elatKind : ErrKind
  /-- `ELAT_POS` (R36). -/
  elatPos : Pos
  /-- `OBUF`, first byte first (R23, R54). -/
  obuf : List Byte
  /-- `OUT`, first byte first (R37, R53). -/
  out : List Byte
  /-- The command stream: what the host has presented and the block has not accepted yet, next first (R52, log entry 1). -/
  input : List HostInput
  /-- The parameter `OBUF_CAP` (R6): a capacity in bytes, or none for an unbounded `OBUF` (log entry 4). -/
  obufCap : Option Nat
  /-- How many `PUT` commands the open invocation has performed, for the bound of R7 (a) (log entry 5). -/
  puts : Nat
deriving DecidableEq, Repr

/-- Why a step stops with a fault: never. The command faults of 60_exceptions.md R169 set a sticky bit and the codec errors of R172 set the result registers, both in a next state; no command carries an address, so no access can go astray (20_memory.md R50). Safe: nothing is cut short (log entry 11). -/
inductive Fault where
deriving DecidableEq, Repr

/-- Why a step has no meaning. -/
inductive Refusal where
  /-- An instruction without a meaning yet, raised by `exec`. Safe: the model says nothing of it. No arm raises it. -/
  | notModelled (mnemonic : String)
  /-- The invocation has `2^POS_BITS` or more `PUT`s and is not admitted (R7 (a), R198, U3), raised by `PUT`. Safe: the spec gives no meaning and the model gives none. -/
  | tooManyPuts
  /-- The invocation would hold more than `OBUF_CAP` decoded bytes and is not admitted (R7 (b), R198, U3), raised by `PUT` and `END` in phase `DEC`. Safe: the spec gives no meaning and the model gives none. -/
  | obufCapExceeded
deriving DecidableEq, Repr

/-- The outcome of a command. -/
abbrev Result := Host.Outcome State Fault Refusal

/-- The state after reset (R41, R190, R191). `EBUF` and `WIN` are unspecified there and zero here (log entry 3); nothing has been presented (log entry 1); `OBUF` is unbounded (log entry 4). There is no state before reset (log entry 10). -/
def State.reset : State where
  phase := .idle
  done := false
  errKind := .noError
  errPos := 0
  fault := 0
  ww := 0
  ig := false
  ebuf := Vector.replicate 4 0
  ecnt := 0
  col := 0
  any := false
  win := Vector.replicate 8 0
  gcnt := 0
  n := 0
  nlrun := 0
  elatV := false
  elatKind := .noError
  elatPos := 0
  obuf := []
  out := []
  input := []
  obufCap := none
  puts := 0

end Sys2Proof.Machine
end

