-- ==== Sys2Proof/Machine/Flags.lean ====
section
/-! DEFINITION. The one-bit state and the codes (10_state.md R29 to R32, R35, R36): the two sticky `FAULT` bits, the numeric codes of `PHASE` and `ERR_KIND`, and the condition of the trailing line break. -/

namespace Sys2Proof.Machine

/-- `FAULT.ILL`, bit 0 (R30). -/
def illBit : BitVec 2 := 1

/-- `FAULT.SEQ`, bit 1 (R30). -/
def seqBit : BitVec 2 := 2

/-- `FAULT[0]` (R30). -/
def State.ill (s : State) : Bool := s.fault.getLsbD 0

/-- `FAULT[1]` (R30). -/
def State.seq (s : State) : Bool := s.fault.getLsbD 1

/-- The code of a phase (R26). -/
def Phase.code : Phase → BitVec 2
  | .idle => 0
  | .enc => 1
  | .dec => 2

/-- The code of an error kind (R32, R36). -/
def ErrKind.code : ErrKind → BitVec 2
  | .noError => 0
  | .invalidLength => 1
  | .invalidCharacter => 2

/-- `code(kind)` of a codec error (43_decode_path.md R147): what is written to `ERR_KIND` or `ELAT_KIND`. -/
def CodecError.kind : CodecError → ErrKind
  | .invalidLength => .invalidLength
  | .invalidCharacter => .invalidCharacter

/-- Whether `END` of an encode invocation pushes the trailing line break (42_encode_path.md R133). -/
def State.trailingLf (s : State) : Bool :=
  s.ww == 0 || s.col != 0 || !s.any

end Sys2Proof.Machine
end

