-- ==== Sys2Proof/Machine/Ops.lean ====
section
/-! DEFINITION. The named operations on registers and streams that the command rules share: pushing output, the group buffers, raising a command fault or a codec error, what both start commands clear, admission, accepting the reset input, and the status port. -/

namespace Sys2Proof.Machine

/-! ### Streams and group buffers -/

/-- `OUT.push(b)` (20_memory.md R53). -/
def State.pushOut (b : Byte) (s : State) : State := { s with out := s.out ++ [b] }

/-- Push a sequence of bytes, first byte first (R53, R54). -/
def State.pushAll (bs : List Byte) (s : State) : State := { s with out := s.out ++ bs }

/-- The valid bytes of the encoder's group buffer, `EBUF[0..ECNT-1]` (10_state.md R21). -/
def State.ebufBytes (s : State) : List Byte := s.ebuf.toList.take s.ecnt

/-- The valid characters of the decoder's window, `WIN[0..GCNT-1]` (R22). -/
def State.winBytes (s : State) : List Byte := s.win.toList.take s.gcnt

/-- `EBUF[ECNT] <- b ; ECNT <- ECNT + 1`, for `ECNT < 4` (42_encode_path.md R132). -/
def State.storeEbuf (b : Byte) (s : State) (h : s.ecnt.val < 4) : State :=
  { s with ebuf := s.ebuf.set s.ecnt.val b h, ecnt := ⟨s.ecnt.val + 1, by omega⟩ }

/-- `WIN[GCNT] <- c ; GCNT <- GCNT + 1`, for `GCNT < 8` (43_decode_path.md R146). -/
def State.storeWin (c : Byte) (s : State) (h : s.gcnt.val < 8) : State :=
  { s with win := s.win.set s.gcnt.val c h, gcnt := ⟨s.gcnt.val + 1, by omega⟩ }

/-! ### Exceptional events (60_exceptions.md R165) -/

/-- A command fault: the one sticky bit and nothing else (R169, 10_state.md R30). -/
def raiseFault (bit : BitVec 2) (s : State) : State := { s with fault := s.fault ||| bit }

/-- `raise IllegalCommand` (R169). -/
def raiseIllegalCommand (s : State) : State := raiseFault illBit s

/-- `raise SequenceFault` (R169). -/
def raiseSequenceFault (s : State) : State := raiseFault seqBit s

/-- `raise InvalidLength(pos)` and `raise InvalidCharacter(pos)` (R172): the kind and the position are recorded, `OBUF` is discarded, nothing is pushed. `END` completes as always. -/
def raiseCodecError (kind : ErrKind) (pos : Pos) (s : State) : State :=
  { s with errKind := kind, errPos := pos, obuf := [] }

/-- The first error of the open decode invocation is latched (10_state.md R36, 43_decode_path.md R147). -/
def State.latchError (kind : ErrKind) (pos : Pos) (s : State) : State :=
  { s with elatV := true, elatKind := kind, elatPos := pos }

/-- `ERR_KIND <- 0 ; ERR_POS <- 0`: the result of an invocation without error (R32, R33). -/
def State.noErrorResult (s : State) : State := { s with errKind := .noError, errPos := 0 }

/-! ### Opening and closing an invocation -/

/-- What both start commands write alike (42_encode_path.md R130, 43_decode_path.md R145): the result registers, both group counters, the wrap state, the latch and the commit buffer are cleared. There is no return command; this is how an error result is left (60_exceptions.md R174). -/
def State.startInvocation (s : State) : State :=
  { s with
    done := false, errKind := .noError, errPos := 0
    ecnt := 0, col := 0, any := false
    gcnt := 0, n := 0, nlrun := 0
    elatV := false, elatKind := .noError, elatPos := 0
    obuf := [], puts := 0 }

/-- `DONE <- 1 ; PHASE <- IDLE`, the last lines of every performed `END` (41_commands_dispatch.md R122). -/
def State.finishInvocation (s : State) : State := { s with done := true, phase := .idle }

/-- `OBUF <- [] ; GCNT <- 0 ; ELAT_V <- 0` (R150). -/
def State.clearDecoder (s : State) : State :=
  { s with obuf := [], gcnt := 0, elatV := false }

/-! ### Admission (00_scope.md R7) -/

/-- One more `PUT` of the open invocation is admitted: their number stays below `2^POS_BITS` (R7 (a)), and in a decode invocation no position counter can wrap around (R7, log entry 6). -/
def State.putAdmitted (s : State) : Bool :=
  s.puts + 1 < 2 ^ Config.posBits &&
    (s.phase != .dec || s.n.toNat + s.nlrun.toNat + 1 < 2 ^ Config.posBits)

/-- One more `PUT` has been accepted (log entry 5). -/
def State.countPut (s : State) : State := { s with puts := s.puts + 1 }

/-- `OBUF` holds no more than `OBUF_CAP` bytes (R7 (b)). -/
def State.obufFits (s : State) : Bool :=
  match s.obufCap with
  | none => true
  | some cap => s.obuf.length ≤ cap

/-- The state, if its `OBUF` is admitted (R7 (b), R198). -/
def admitObuf (s : State) : Result :=
  if s.obufFits then .next s else .refused .obufCapExceeded

/-- Go on from a next state; a stop stays as it is. -/
def andThen (r : Result) (f : State → Result) : Result :=
  match r with
  | .next s => f s
  | .fault e => .fault e
  | .refused e => .refused e

/-! ### The reset input and the status port -/

/-- Accepting the reset input (70_reset_and_hazards.md R190): every register takes its reset value. What the host presents after it and the parameter `OBUF_CAP` are not registers of the block and stay (log entry 7). -/
def resetBlock (s : State) : State :=
  { State.reset with input := s.input, obufCap := s.obufCap }

/-- What the host can read between two steps (10_state.md R43). -/
structure StatusPort where
  phase : BitVec 2
  done : Bool
  errKind : BitVec 2
  errPos : Pos
  fault : BitVec 2
deriving DecidableEq, Repr

/-- The status port (R43): reading it is no step and has no effect. -/
def State.statusPort (s : State) : StatusPort :=
  ⟨s.phase.code, s.done, s.errKind.code, s.errPos, s.fault⟩

/-- How the host renders the error of an ended invocation (60_exceptions.md R178): one message for both kinds, the position in decimal; nothing for no error. Outside the block (log entry 19). -/
def hostMessage (kind : ErrKind) (pos : Pos) : Option String :=
  match kind with
  | .noError => none
  | _ => some ("invalid length at " ++ Nat.repr pos.toNat)

end Sys2Proof.Machine
end

