-- ==== Sys2Proof/Machine/DecodePath.lean ====
section
/-! DEFINITION. The decode path (43_decode_path.md): `DEC`, the window, and what `PUT` and `END` do in phase `DEC`. -/

namespace Sys2Proof.Machine

/-- `CLOSE(final)` (R147), for a full window: the group datapath runs unless an error is already latched, and the window is emptied (the position: log entry 15). -/
def closeWindow (final : Bool) (s : State) : State :=
  let s1 :=
    if s.elatV then s
    else
      match decGroup s.win.toList final with
      | .ok bytes => { s with obuf := s.obuf ++ bytes }
      | .err kind i => s.latchError kind.kind (s.n - 8 + BitVec.ofNat 64 i)
  { s1 with gcnt := 0 }

/-- `if GCNT = 8: CLOSE(final)` (R146, R150). -/
def closeIfFull (final : Bool) (s : State) : State :=
  if s.gcnt = 8 then closeWindow final s else s

/-- The last three lines of `PUSH(c)` (R146); with a full window, which `PUSH` has closed before, nothing happens (log entry 16). -/
def appendChar (c : Byte) (s : State) : State :=
  if h : s.gcnt.val < 8 then { s.storeWin c h with n := s.n + 1 } else s

/-- `PUSH(c)` (R146): a further character proves that a full window is not the final group. -/
def pushChar (c : Byte) (s : State) : State :=
  appendChar c (closeIfFull false s)

/-- `repeat k times: PUSH(LF)` (R148). -/
def pushLfs : Nat → State → State
  | 0, s => s
  | k + 1, s => pushLfs k (pushChar Config.lf s)

/-- `DEC_PUT(byte)` in strict mode (R148). -/
def decPutStrict (byte : Byte) (s : State) : State :=
  if byte = Config.lf then { s with nlrun := s.nlrun + 1 }
  else pushChar byte { pushLfs s.nlrun.toNat s with nlrun := 0 }

/-- `DEC_PUT(byte)` in lenient mode (R149): garbage changes no register, so positions count kept bytes only (log entry 13). -/
def decPutLenient (byte : Byte) (s : State) : State :=
  if isSym byte || isPad byte then pushChar byte s else s

/-- `DEC_PUT(byte)` (R148, R149). -/
def decPut (byte : Byte) (s : State) : State :=
  if s.ig then decPutLenient byte s else decPutStrict byte s

/-- The commit of a decode invocation without error (R150, R151): the decoded bytes go to `OUT` in order. -/
def commitObuf (s : State) : State :=
  (s.pushAll s.obuf).noErrorResult

/-- The result of an invocation of whole groups (R150): the latched error, else the commit. -/
def decFinish (s : State) : Result :=
  if s.elatV then .next (raiseCodecError s.elatKind s.elatPos s).clearDecoder
  else .next (commitObuf s).clearDecoder

/-- `DEC_END()` (R150): the length error first, overriding a latched one; else the final group is closed and the result follows. A final group that does not fit `OBUF_CAP` is refused (00_scope.md R7 (b)). -/
def decEnd (s : State) : Result :=
  let s1 := { s with nlrun := 0 }
  if s1.gcnt ≠ 0 ∧ s1.gcnt ≠ 8 then
    .next (raiseCodecError .invalidLength (s1.n - BitVec.ofNat 64 s1.gcnt) s1).clearDecoder
  else andThen (admitObuf (closeIfFull true s1)) decFinish

/-- `DEC ig` (R145), `SequenceFault` outside phase `IDLE` (R120). -/
def execDec (ig : Bool) (s : State) : Result :=
  match s.phase with
  | .idle => .next { s.startInvocation with ww := 0, ig := ig, phase := .dec }
  | _ => .next (raiseSequenceFault s)

end Sys2Proof.Machine
end

