-- ==== Sys2Proof/Machine/EncodePath.lean ====
section
/-! DEFINITION. The encode path (42_encode_path.md): `ENC`, the wrap stage `EMIT`, and what `PUT` and `END` do in phase `ENC`. -/

namespace Sys2Proof.Machine

/-- `EMIT(y)` (R131): one symbol or pad through the wrap stage (`COL + 1`: log entry 15). -/
def emit (y : Byte) (s : State) : State :=
  let s1 := { s.pushOut y with any := true }
  if s1.ww = 0 then s1
  else
    let s2 := { s1 with col := s1.col + 1 }
    if s2.col = s2.ww then { s2.pushOut Config.lf with col := 0 } else s2

/-- `for j in 0 .. 7: EMIT(s[j])` (R132, R133). -/
def emitAll : List Byte → State → State
  | [], s => s
  | y :: ys, s => emitAll ys (emit y s)

/-- Encode a whole or final group and empty the group buffer (R132, R133). -/
def emitGroup (b : List Byte) (s : State) : State :=
  { emitAll (encGroup b) s with ecnt := 0 }

/-- `ENC_PUT(byte)` (R132). -/
def encPut (byte : Byte) (s : State) : State :=
  if h : s.ecnt.val < 4 then s.storeEbuf byte h
  else emitGroup (s.ebuf.toList ++ [byte]) s

/-- `ENC_END()` (R133). -/
def encEnd (s : State) : State :=
  let s1 := if 0 < s.ecnt.val then emitGroup s.ebufBytes s else s
  let s2 := if s1.trailingLf then s1.pushOut Config.lf else s1
  s2.noErrorResult

/-- `ENC width` (R130), `SequenceFault` outside phase `IDLE` (R120). -/
def execEnc (width : Width) (s : State) : Result :=
  match s.phase with
  | .idle => .next { s.startInvocation with ww := width, ig := false, phase := .enc }
  | _ => .next (raiseSequenceFault s)

end Sys2Proof.Machine
end

