-- ==== Sys2Proof/Machine/Common.lean ====
section
/-! DEFINITION. The two commands common to both directions (41_commands_dispatch.md): `PUT` and `END`. -/

namespace Sys2Proof.Machine

/-- The body of `PUT` in the open phase (R121), the command counted; in phase `IDLE` there is none. -/
def putBody (byte : Byte) (s : State) : Result :=
  match s.phase with
  | .idle => .next s
  | .enc => .next (encPut byte s.countPut)
  | .dec => admitObuf (decPut byte s.countPut)

/-- `PUT byte` (R121): `SequenceFault` in phase `IDLE` (R120); a `PUT` that is not admitted has no meaning (00_scope.md R7). -/
def execPut (byte : Byte) (s : State) : Result :=
  if s.phase = .idle then .next (raiseSequenceFault s)
  else if s.putAdmitted then putBody byte s
  else .refused .tooManyPuts

/-- `END` (R122): `SequenceFault` in phase `IDLE` (R120); otherwise the body of the phase, then `DONE <- 1 ; PHASE <- IDLE`. -/
def execEnd (s : State) : Result :=
  match s.phase with
  | .idle => .next (raiseSequenceFault s)
  | .enc => .next (encEnd s).finishInvocation
  | .dec => andThen (decEnd s) fun t => .next t.finishInvocation

end Sys2Proof.Machine
end

