-- ==== Sys2Proof/Machine/Dispatch.lean ====
section
/-! DEFINITION. One arm per command (41_commands_dispatch.md R120): each meaning makes its own phase check. -/

namespace Sys2Proof.Machine

def exec (i : Instr) (s : State) : Host.Outcome State Fault Refusal :=
  match i with
  | .enc width => Sys2Proof.Machine.execEnc width s
  | .dec ig => Sys2Proof.Machine.execDec ig s
  | .put byte => Sys2Proof.Machine.execPut byte s
  | .endInv => Sys2Proof.Machine.execEnd s

end Sys2Proof.Machine
end

