-- ==== Sys2Proof/Machine/Accept.lean ====
section
/-! DEFINITION. Accepting what the host presents (41_commands_dispatch.md R120, 70_reset_and_hazards.md R190), and presenting it. -/

namespace Sys2Proof.Machine

/-- Accept a command word (R120): the illegal-word test comes first. -/
def acceptWord (w : CmdWord) (s : State) : Result :=
  match decode w with
  | .error _ => .next (raiseIllegalCommand s)
  | .ok i => exec i s

/-- Accept one input of the host: a word or the reset input, each one step (00_scope.md R12). -/
def acceptInput (e : HostInput) (s : State) : Result :=
  match e with
  | .word w => acceptWord w s
  | .reset => .next (resetBlock s)

/-- The block's next step: it accepts what the host presents next; with nothing presented it holds its state (00_scope.md R15, 60_exceptions.md R183). -/
def acceptNext (s : State) : Result :=
  match s.input with
  | [] => .next s
  | e :: rest => acceptInput e { s with input := rest }

/-- The host presents a word that the block accepts next (20_memory.md R52). -/
def State.presentNext (w : CmdWord) (s : State) : State :=
  { s with input := .word w :: s.input }

/-- The host presents a sequence of words after all it has presented before (R52). -/
def State.present (ws : List CmdWord) (s : State) : State :=
  { s with input := s.input ++ ws.map .word }

end Sys2Proof.Machine
end

