-- ==== Sys2Proof/Machine/Step.lean ====
section
/-! DEFINITION. The step function and the host's way to have one word accepted next. -/

namespace Sys2Proof.Machine

/-- One step of the block (00_scope.md R12, R15). -/
def step (s : State) : Host.Outcome State Fault Refusal := acceptNext s

/-- The state in which the word with these bits is the next the block accepts (20_memory.md R52, log entry 2). The block fetches nothing: presenting the word is all a step needs. -/
def State.withFetchWord (s : State) (nbits w : Nat) : State :=
  s.presentNext (BitVec.ofNat 36 (w % 2 ^ nbits))

end Sys2Proof.Machine
end

