-- ==== Sys2Proof/Machine/Assembler.lean ====
section
/-! DEFINITION. The program text of 30_encoding.md R82 and R83: one command a line, the pseudo-commands and their expansions. It is used to write command sequences and has no effect on the block (92_eei_decisions.md D27). -/

namespace Sys2Proof.Machine

/-! ### Expansion and assembly -/

/-- `PUTS "<string>"`: one `PUT` per byte, in order (R83). -/
def putsProgram (text : List Byte) : List Instr := text.map .put

/-- `ENCODE <width>, "<string>"` (R83). -/
def encodeProgram (width : Width) (text : List Byte) : List Instr :=
  [.enc width] ++ putsProgram text ++ [.endInv]

/-- `DECODE <ig>, "<string>"` (R83). -/
def decodeProgram (ig : Bool) (text : List Byte) : List Instr :=
  [.dec ig] ++ putsProgram text ++ [.endInv]

/-- The command words of a program, in order. -/
def programWords (p : List Instr) : List CmdWord := p.map encode

/-- The words of a line; an operand out of range is rejected (R82). -/
def assembleLine (l : AsmLine) : Option (List CmdWord) :=
  if l.wellFormed then
    match l with
    | .enc width => some [encode (.enc (BitVec.ofNat 32 width))]
    | .dec ig => some [encode (.dec (ig == 1))]
    | .put byte => some [encode (.put (BitVec.ofNat 8 byte))]
    | .endInv => some [encode .endInv]
    | .dotWord word => some [BitVec.ofNat 36 word]
    | .puts text => some (programWords (putsProgram text))
    | .encode width text => some (programWords (encodeProgram (BitVec.ofNat 32 width) text))
    | .decode ig text => some (programWords (decodeProgram (ig == 1) text))
  else none

/-- The words of a program, its lines in order. -/
def assemble : List AsmLine → Option (List CmdWord)
  | [] => some []
  | l :: ls =>
    match assembleLine l, assemble ls with
    | some ws, some rest => some (ws ++ rest)
    | _, _ => none

/-! ### Reading a line (R82; string literals as 00_scope.md R10 writes them) -/

/-- A piece of a line. -/
inductive AsmToken where
  | name (chars : List Char)
  | text (bytes : List Byte)
  | comma
deriving DecidableEq, Repr

/-- The numerals of the program text in order: the place of a numeral is its value, and the first ten are the decimal ones (R82, 00_scope.md R10). -/
def numerals : List Char := "0123456789abcdef".toList

/-- The value of a numeral in a base up to 16; letters in either case (log entry 12). -/
def numeralValue (base : Nat) (c : Char) : Option Nat := (numerals.take base).idxOf? c.toLower

/-- The value of a sequence of numerals, the most significant first, continuing from `acc`. -/
def numeralsValue (base : Nat) (acc : Nat) (cs : List Char) : Option Nat :=
  cs.foldlM (fun k c => (numeralValue base c).map (base * k + ·)) acc

/-- A number in decimal or `0x` hexadecimal (R82); at least one numeral. -/
def numberValue : List Char → Option Nat
  | [] => none
  | ['0', 'x'] => none
  | '0' :: 'x' :: cs => numeralsValue 16 0 cs
  | cs => numeralsValue 10 0 cs

/-- Close the name being read, if any. -/
def closeName (acc : List Char) (rest : List AsmToken) : List AsmToken :=
  if acc = [] then rest else .name acc :: rest

/-- The pieces of a line. `str` is the string literal being read, if any, and `acc` the name being read. A `;` outside a string starts a comment; an unfinished string or a character without a one-byte code is rejected (log entry 12). -/
def lexLine : Option (List Byte) → List Char → List Char → Option (List AsmToken)
  | none, acc, [] => some (closeName acc [])
  | some _, _, [] => none
  | some bs, acc, '\\' :: 'n' :: cs => lexLine (some (bs ++ [0x0A])) acc cs
  | some bs, acc, '\\' :: '0' :: cs => lexLine (some (bs ++ [0x00])) acc cs
  | some bs, acc, '\\' :: 'x' :: h :: l :: cs =>
    match numeralsValue 16 0 [h, l] with
    | some b => lexLine (some (bs ++ [BitVec.ofNat 8 b])) acc cs
    | none => none
  | some bs, acc, c :: cs =>
    if c.toNat = 0x22 then (lexLine none [] cs).map (.text bs :: ·)
    else if c.toNat = 0x5C ∨ 128 ≤ c.toNat then none
    else lexLine (some (bs ++ [BitVec.ofNat 8 c.toNat])) acc cs
  | none, acc, c :: cs =>
    if c = ';' then some (closeName acc [])
    else if c = ' ' ∨ c = '\t' then (lexLine none [] cs).map (closeName acc)
    else if c = ',' then (lexLine none [] cs).map fun ts => closeName acc (.comma :: ts)
    else if c.toNat = 0x22 then (lexLine (some []) [] cs).map (closeName acc)
    else lexLine none (acc ++ [c]) cs

/-- The line with these pieces; an empty line or a comment is no line, and anything else is rejected. -/
def parseTokens (ts : List AsmToken) : Option (Option AsmLine) :=
  match ts with
  | [] => some none
  | [.name m] => if m = "END".toList then some (some .endInv) else none
  | [.name m, .name v] =>
    (numberValue v).bind fun k =>
      if m = "ENC".toList then some (some (.enc k))
      else if m = "DEC".toList then some (some (.dec k))
      else if m = "PUT".toList then some (some (.put k))
      else if m = ".word".toList then some (some (.dotWord k))
      else none
  | [.name m, .text bs] => if m = "PUTS".toList then some (some (.puts bs)) else none
  | [.name m, .name v, .comma, .text bs] =>
    (numberValue v).bind fun k =>
      if m = "ENCODE".toList then some (some (.encode k bs))
      else if m = "DECODE".toList then some (some (.decode k bs))
      else none
  | _ => none

/-- Read one line of program text. -/
def parseLine (line : List Char) : Option (Option AsmLine) :=
  (lexLine none [] line).bind parseTokens

/-- Read the lines of a program text. -/
def parseProgram : List (List Char) → Option (List AsmLine)
  | [] => some []
  | l :: ls =>
    match parseLine l, parseProgram ls with
    | some none, some rest => some rest
    | some (some a), some rest => some (a :: rest)
    | _, _ => none

/-- The command words of a program text (R82, R83). -/
def assembleText (lines : List (List Char)) : Option (List CmdWord) :=
  (parseProgram lines).bind assemble

end Sys2Proof.Machine
end

