-- ==== Sys2Proof/Safety.lean ====
section
/-! DEFINITION. What claims about the block are said in: runs over presented words, the invariant of 10_state.md R40, admitted invocations (00_scope.md R7), legal command sequences (41_commands_dispatch.md R124), the live part of a state (10_state.md R40 (c), R42), and when a run is over (70_reset_and_hazards.md R201). -/

namespace Sys2Proof.Machine

/-! ### Runs -/

/-- The block accepts exactly these words, one step each, and nothing else is presented (R12, R52). -/
def runWords (ws : List CmdWord) (s : State) : Result :=
  Host.Core.run Sys2Proof.core ws.length { s with input := ws.map .word }

/-- No command fault has been raised since reset: the premise of claims about invocations (60_exceptions.md R169). -/
abbrev State.FaultFree (s : State) : Prop := s.fault = 0

/-- The run is over and complete (R201): nothing more is presented and no invocation is open. -/
abbrev State.RunComplete (s : State) : Prop := s.input = [] ∧ s.phase = .idle

/-! ### The invariant -/

/-- 10_state.md R40, with the facts of R28, R34 and R36 it rests on and the bounds of admission (00_scope.md R7). R40 (b) and the codes of R40 (a) hold by the types of the fields. -/
structure Inv (s : State) : Prop where
  /-- R40 (d). -/
  colZero : s.ww = 0 → s.col = 0
  /-- R40 (d). -/
  colBelowWidth : s.ww ≠ 0 → s.col < s.ww
  /-- `ANY` is 0 until the first symbol is emitted (R35). -/
  colOfNothing : s.any = false → s.col = 0
  /-- R40 (e). -/
  window : s.phase = .dec → s.gcnt.val = if s.n = 0 then 0 else (s.n.toNat - 1) % 8 + 1
  /-- R40 (f). -/
  lenientRun : s.phase = .dec → s.ig = true → s.nlrun = 0
  /-- R28: no run of line breaks is pending outside a decode invocation. -/
  runOutsideDecode : s.phase ≠ .dec → s.nlrun = 0
  /-- R40 (g). -/
  noErrorPos : s.errKind = .noError → s.errPos = 0
  /-- R40 (g). -/
  doneIdle : s.done = true → s.phase = .idle
  /-- R36: a latched error has a kind. -/
  latchKind : s.elatV = true → s.elatKind ≠ .noError
  /-- R36, R147: a latched error lies in a closed group. -/
  latchPos : s.phase = .dec → s.elatV = true → s.elatPos.toNat + s.gcnt.val < s.n.toNat
  /-- R40 (h). -/
  obufLength : s.phase = .dec → s.elatV = false → s.obuf.length = 5 * ((s.n.toNat - s.gcnt.val) / 8)
  /-- R150: `OBUF` is empty outside a decode invocation. -/
  obufOutsideDecode : s.phase ≠ .dec → s.obuf = []
  /-- R7 (b). -/
  obufFits : s.obufFits = true
  /-- R34: the wrap width is 0 in a decode invocation. -/
  widthInDecode : s.phase = .dec → s.ww = 0
  /-- R34: the ignore-garbage flag is 0 in an encode invocation. -/
  garbageInEncode : s.phase = .enc → s.ig = false
  /-- R7 (a), R27, R28: no position counter exceeds the number of `PUT`s. -/
  counted : s.phase = .dec → s.n.toNat + s.nlrun.toNat ≤ s.puts
  /-- R7 (a). -/
  putsBound : s.puts < 2 ^ Config.posBits

/-! ### Admitted invocations -/

/-- An encode invocation on `x` is admitted (R7 (a)). -/
abbrev AdmittedEncode (x : List Byte) : Prop := x.length < 2 ^ Config.posBits

/-- A decode invocation on `x` is admitted under the capacity (R7). -/
abbrev AdmittedDecode (x : List Byte) (ig : Bool) (cap : Option Nat) : Prop :=
  x.length < 2 ^ Config.posBits ∧ ∀ c ∈ cap, obufPeak x ig ≤ c

/-! ### Characters that are not permitted -/

/-- The character at position `k` of the significant stream `s` is not permitted there (60_exceptions.md R167): it is neither a symbol nor a pad, or a symbol after a pad of the same group, or a pad outside the final group. -/
def BadCharacter (s : List Byte) (k : Nat) : Prop :=
  ∃ c, s[k]? = some c ∧
    ((isSym c = false ∧ isPad c = false) ∨
     (isSym c = true ∧ ∃ j, j < k ∧ j / 8 = k / 8 ∧ s[j]? = some Config.pad) ∨
     (isPad c = true ∧ 8 * (k / 8) + 8 < s.length))

/-! ### Legal sequences -/

/-- The grammar of 41_commands_dispatch.md R124. -/
inductive LegalSequence : List Instr → Prop where
  | done : LegalSequence []
  | openEncode (width : Width) (text : List Byte) : LegalSequence (.enc width :: putsProgram text)
  | openDecode (ig : Bool) (text : List Byte) : LegalSequence (.dec ig :: putsProgram text)
  | encodeThen (width : Width) (text : List Byte) (rest : List Instr) :
      LegalSequence rest → LegalSequence (encodeProgram width text ++ rest)
  | decodeThen (ig : Bool) (text : List Byte) (rest : List Instr) :
      LegalSequence rest → LegalSequence (decodeProgram ig text ++ rest)

/-- The phase after a command that is performed in phase `p`, by the table of R123; none for a command that faults there. -/
def phaseAfter : Phase → Instr → Option Phase
  | .idle, .enc _ => some .enc
  | .idle, .dec _ => some .dec
  | .idle, .put _ => none
  | .idle, .endInv => none
  | .enc, .enc _ => none
  | .enc, .dec _ => none
  | .enc, .put _ => some .enc
  | .enc, .endInv => some .idle
  | .dec, .enc _ => none
  | .dec, .dec _ => none
  | .dec, .put _ => some .dec
  | .dec, .endInv => some .idle

/-- The same for a word; none for a word that faults (R123). -/
def nextPhase (p : Phase) (w : CmdWord) : Option Phase :=
  match decode w with
  | .ok i => phaseAfter p i
  | .error _ => none

/-- The words that are performed when the sequence is presented in phase `p`: the faulting words are deleted (R124). -/
def performedWords : Phase → List CmdWord → List CmdWord
  | _, [] => []
  | p, w :: ws =>
    match nextPhase p w with
    | some q => w :: performedWords q ws
    | none => performedWords p ws

/-! ### The live part of a state -/

/-- Two states agree on the result registers and on every register that the open invocation reads (R40 (c), R42). `FAULT`, the output so far, the command stream and the dead registers may differ. -/
structure SameLive (s t : State) : Prop where
  phase : s.phase = t.phase
  done : s.done = t.done
  errKind : s.errKind = t.errKind
  errPos : s.errPos = t.errPos
  obufCap : s.obufCap = t.obufCap
  enc : s.phase = .enc →
    s.ww = t.ww ∧ s.ecnt = t.ecnt ∧ s.ebufBytes = t.ebufBytes ∧ s.col = t.col ∧ s.any = t.any ∧ s.puts = t.puts
  dec : s.phase = .dec →
    s.ig = t.ig ∧ s.gcnt = t.gcnt ∧ s.winBytes = t.winBytes ∧ s.n = t.n ∧ s.nlrun = t.nlrun ∧
      s.elatV = t.elatV ∧ (s.elatV = true → s.elatKind = t.elatKind ∧ s.elatPos = t.elatPos) ∧
      s.obuf = t.obuf ∧ s.puts = t.puts

end Sys2Proof.Machine
end

