-- ==== Sys2Proof/Certificates/Slice0/Obligations.lean ====
section
/-! DEFINITION. The statements about the model, each from the rules of the spec it names. -/

open Sys2Proof Sys2Proof.Machine

/-! ### Command words (30_encoding.md) -/

/-- 30_encoding.md R72 to R78, on words written out from their formats (95_test_vectors.md V-CMD). The name of the rejection is the model's. -/
def Obligations.CommandWordsDecode : Prop :=
  decode 0x100000000 = .ok (.enc 0) ∧ decode 0x100000014 = .ok (.enc 20) ∧
  decode 0x1FFFFFFFF = .ok (.enc 4294967295) ∧
  decode 0x200000000 = .ok (.dec false) ∧ decode 0x200000001 = .ok (.dec true) ∧
  decode 0x30000000A = .ok (.put 0x0A) ∧ decode 0x3000000FF = .ok (.put 0xFF) ∧
  decode 0x400000000 = .ok .endInv ∧
  decode 0x200000002 = .error .reservedField ∧ decode 0x280000000 = .error .reservedField ∧
  decode 0x300000100 = .error .reservedField ∧ decode 0x400000001 = .error .reservedField ∧
  decode 0x000000000 = .error .reservedOpcode ∧ decode 0x500000000 = .error .reservedOpcode ∧
  decode 0xFFFFFFFFF = .error .reservedOpcode

/-- 30_encoding.md R81: `decode_cmd` on every word `op : arg`. -/
def Obligations.DecodeCmdIsTotalFunction : Prop :=
  ∀ (op : BitVec 4) (arg : BitVec 32),
    (op = 1 → decode (op ++ arg) = .ok (.enc arg)) ∧
    (op = 2 → arg >>> 1 = 0 → decode (op ++ arg) = .ok (.dec (arg.getLsbD 0))) ∧
    (op = 3 → arg >>> 8 = 0 → decode (op ++ arg) = .ok (.put (arg.setWidth 8))) ∧
    (op = 4 → arg = 0 → decode (op ++ arg) = .ok .endInv) ∧
    (¬ (op = 1 ∨ op = 2 ∧ arg >>> 1 = 0 ∨ op = 3 ∧ arg >>> 8 = 0 ∨ op = 4 ∧ arg = 0) →
      ∃ e, decode (op ++ arg) = .error e)

/-- 30_encoding.md R71 to R79: the decoder and the encoder are inverse to each other, so no operand bit is dropped and no command has two words. -/
def Obligations.DecodeAndEncodeAreInverse : Prop :=
  (∀ i : Instr, decode (encode i) = .ok i) ∧
  (∀ (w : CmdWord) (i : Instr), decode w = .ok i → encode i = w)

/-- 30_encoding.md R77 and R78, at the step that accepts the word. -/
def Obligations.IllegalWordSetsIllAndNothingElse : Prop :=
  ∀ (s : State) (rest : List HostInput) (op : BitVec 4) (arg : BitVec 32),
    s.input = .word (op ++ arg) :: rest →
    (op = 0 ∨ 5 ≤ op.toNat ∨ (op = 2 ∧ arg >>> 1 ≠ 0) ∨ (op = 3 ∧ arg >>> 8 ≠ 0) ∨ (op = 4 ∧ arg ≠ 0)) →
    (∃ e, decode (op ++ arg) = .error e) ∧
    step s = .next { s with input := rest, fault := s.fault ||| 1 }

/-- 30_encoding.md R82: a line with its operand in range assembles to the word of its command, and `.word` to the word given; a command or pseudo-command with an operand out of range is rejected; and no line but `.word` gives a word that is illegal. R82 gives `.word` no range: that a number of more than 36 bits is rejected there is the model's choice (log entry 12). -/
def Obligations.AssemblerChecksOperands : Prop :=
  (∀ k : Nat,
    (k < 2 ^ 32 → assembleLine (.enc k) = some [encode (.enc (BitVec.ofNat 32 k))]) ∧
    (k < 2 → assembleLine (.dec k) = some [encode (.dec (decide (k = 1)))]) ∧
    (k < 256 → assembleLine (.put k) = some [encode (.put (BitVec.ofNat 8 k))]) ∧
    assembleLine .endInv = some [0x400000000] ∧
    (k < 2 ^ 36 → assembleLine (.dotWord k) = some [BitVec.ofNat 36 k]) ∧
    (2 ^ 36 ≤ k → assembleLine (.dotWord k) = none)) ∧
  (∀ (k : Nat) (text : List Byte),
    (2 ^ 32 ≤ k → assembleLine (.enc k) = none ∧ assembleLine (.encode k text) = none) ∧
    (2 ≤ k → assembleLine (.dec k) = none ∧ assembleLine (.decode k text) = none) ∧
    (256 ≤ k → assembleLine (.put k) = none)) ∧
  (∀ (l : AsmLine) (ws : List CmdWord), assembleLine l = some ws → (∀ k, l ≠ .dotWord k) →
    ∀ w ∈ ws, ∃ i, decode w = .ok i)

/-- 30_encoding.md R83: the pseudo-commands expand to the commands they stand for. -/
def Obligations.PseudoCommandsExpand : Prop :=
  (∀ text : List Byte, assembleLine (.puts text) = assemble (text.map fun b => .put b.toNat)) ∧
  (∀ (k : Nat) (text : List Byte), assembleLine (.encode k text) = assemble [.enc k, .puts text, .endInv]) ∧
  (∀ (k : Nat) (text : List Byte), assembleLine (.decode k text) = assemble [.dec k, .puts text, .endInv])

/-! ### The step (41_commands_dispatch.md, 00_scope.md, 70_reset_and_hazards.md) -/

/-- 41_commands_dispatch.md R120: when the presented word decodes to a command, the step is the meaning of that command. -/
def Obligations.StepRunsDecodedCommand : Prop :=
  ∀ (s : State) (w : CmdWord) (rest : List HostInput) (i : Instr),
    s.input = .word w :: rest → decode w = .ok i → step s = exec i { s with input := rest }

/-- 41_commands_dispatch.md R120, the whole step function: the illegal word, the two kinds of wrong phase, and otherwise the command's own meaning. -/
def Obligations.StepFunctionChecksWordThenPhase : Prop :=
  ∀ (s : State) (w : CmdWord) (rest : List HostInput), s.input = .word w :: rest →
    ((∃ e, decode w = .error e) → step s = .next { s with input := rest, fault := s.fault ||| 1 }) ∧
    (s.phase ≠ .idle → ((∃ width, decode w = .ok (.enc width)) ∨ (∃ ig, decode w = .ok (.dec ig))) →
      step s = .next { s with input := rest, fault := s.fault ||| 2 }) ∧
    (s.phase = .idle → ((∃ byte, decode w = .ok (.put byte)) ∨ decode w = .ok .endInv) →
      step s = .next { s with input := rest, fault := s.fault ||| 2 }) ∧
    (∀ i, decode w = .ok i → step s = exec i { s with input := rest })

/-- 00_scope.md R15: with nothing presented the block holds its state. -/
def Obligations.NothingPresentedHoldsState : Prop :=
  ∀ s : State, s.input = [] → step s = .next s

/-- 10_state.md R41. `EBUF` and `WIN` are unspecified there and not stated here. -/
def Obligations.ResetLeavesSpecValues : Prop :=
  State.reset.phase = .idle ∧ State.reset.done = false ∧ State.reset.errKind = .noError ∧ State.reset.errPos = 0 ∧
  State.reset.fault = 0 ∧ State.reset.ww = 0 ∧ State.reset.ig = false ∧ State.reset.ecnt = 0 ∧ State.reset.col = 0 ∧
  State.reset.any = false ∧ State.reset.gcnt = 0 ∧ State.reset.n = 0 ∧ State.reset.nlrun = 0 ∧ State.reset.elatV = false ∧
  State.reset.elatKind = .noError ∧ State.reset.elatPos = 0 ∧ State.reset.obuf = [] ∧ State.reset.out = []

/-- 70_reset_and_hazards.md R190: the reset input puts every register that R41 gives a value to that value, in any state, and is no command word. That the command stream and the parameter `OBUF_CAP` stay is the model's reading (log entry 7). -/
def Obligations.ResetInputRestoresRegisters : Prop :=
  ∀ (s : State) (rest : List HostInput), s.input = .reset :: rest →
    ∃ t, step s = .next t ∧
      t.phase = .idle ∧ t.done = false ∧ t.errKind = .noError ∧ t.errPos = 0 ∧ t.fault = 0 ∧ t.ww = 0 ∧ t.ig = false ∧
      t.ecnt = 0 ∧ t.col = 0 ∧ t.any = false ∧ t.gcnt = 0 ∧ t.n = 0 ∧ t.nlrun = 0 ∧ t.elatV = false ∧
      t.elatKind = .noError ∧ t.elatPos = 0 ∧ t.obuf = [] ∧ t.out = [] ∧ t.input = rest ∧ t.obufCap = s.obufCap

/-- 41_commands_dispatch.md R123, the table of phase transitions. -/
def Obligations.PhaseChangesOnlyByTable : Prop :=
  ∀ (s t : State) (e : HostInput) (rest : List HostInput), s.input = e :: rest → step s = .next t →
    (∀ w width, e = .word w → decode w = .ok (.enc width) → t.phase = if s.phase = .idle then .enc else s.phase) ∧
    (∀ w ig, e = .word w → decode w = .ok (.dec ig) → t.phase = if s.phase = .idle then .dec else s.phase) ∧
    (∀ w byte, e = .word w → decode w = .ok (.put byte) → t.phase = s.phase) ∧
    (∀ w, e = .word w → decode w = .ok .endInv → t.phase = .idle) ∧
    (∀ w r, e = .word w → decode w = .error r → t.phase = s.phase) ∧
    (e = .reset → t.phase = .idle)

/-- 10_state.md R30: which word sets which bit of `FAULT`, that a step which sets one changes nothing else, and that only reset clears them. `nextPhase` says that the word is performed. -/
def Obligations.FaultBitsAreSticky : Prop :=
  (∀ (s t : State) (w : CmdWord) (rest : List HostInput), s.input = .word w :: rest → step s = .next t →
    (∀ e, decode w = .error e → t = { s with input := rest, fault := s.fault ||| 1 }) ∧
    (∀ i, decode w = .ok i → nextPhase s.phase w = none → t = { s with input := rest, fault := s.fault ||| 2 }) ∧
    (nextPhase s.phase w ≠ none → t.fault = s.fault)) ∧
  (∀ (s t : State) (rest : List HostInput), s.input = .reset :: rest → step s = .next t → t.fault = 0)

/-- 10_state.md R37: a step appends to the output stream and never removes from it or reorders it; reset empties the history. -/
def Obligations.OutputOnlyGrows : Prop :=
  (∀ (s t : State) (w : CmdWord) (rest : List HostInput), s.input = .word w :: rest → step s = .next t →
    s.out <+: t.out) ∧
  (∀ (s t : State) (rest : List HostInput), s.input = .reset :: rest → step s = .next t → t.out = [])

/-- 70_reset_and_hazards.md R200: every accepted command's step completes, in every state of an admitted invocation whose `OBUF` is unbounded. -/
def Obligations.EveryAdmittedStepCompletes : Prop :=
  ∀ s : State, Inv s → s.obufCap = none → s.puts + 1 < 2 ^ 64 → ∃ t, step s = .next t

/-! ### Start commands -/

/-- 42_encode_path.md R130: `ENC width` in `IDLE`, outside `IDLE`, and that every argument of opcode 1 is legal. Nothing is said of `puts`, the model's own count (log entry 5). -/
def Obligations.EncOpensEncodeInvocation : Prop :=
  (∀ (s : State) (width : Width), s.phase = .idle →
    ∃ count, exec (.enc width) s = .next { s with
      done := false, errKind := .noError, errPos := 0, ww := width, ig := false, ecnt := 0, col := 0, any := false,
      gcnt := 0, n := 0, nlrun := 0, elatV := false, elatKind := .noError, elatPos := 0, obuf := [],
      phase := .enc, puts := count }) ∧
  (∀ (s : State) (width : Width), s.phase ≠ .idle → exec (.enc width) s = .next { s with fault := s.fault ||| 2 }) ∧
  (∀ arg : BitVec 32, decode ((1 : BitVec 4) ++ arg) = .ok (.enc arg))

/-- 43_decode_path.md R145: `DEC ig` in `IDLE`, outside `IDLE`, and which arguments of opcode 2 are legal. Nothing is said of `puts`, the model's own count (log entry 5). -/
def Obligations.DecOpensDecodeInvocation : Prop :=
  (∀ (s : State) (ig : Bool), s.phase = .idle →
    ∃ count, exec (.dec ig) s = .next { s with
      done := false, errKind := .noError, errPos := 0, ww := 0, ig := ig, ecnt := 0, col := 0, any := false,
      gcnt := 0, n := 0, nlrun := 0, elatV := false, elatKind := .noError, elatPos := 0, obuf := [],
      phase := .dec, puts := count }) ∧
  (∀ (s : State) (ig : Bool), s.phase ≠ .idle → exec (.dec ig) s = .next { s with fault := s.fault ||| 2 }) ∧
  (∀ arg : BitVec 32, arg >>> 1 ≠ 0 → ∃ e, decode ((2 : BitVec 4) ++ arg) = .error e)

/-! ### PUT and END outside an invocation, and admission -/

/-- 41_commands_dispatch.md R121, R122: `PUT` and `END` in `IDLE` set `FAULT.SEQ` and nothing else. -/
def Obligations.PutAndEndNeedOpenInvocation : Prop :=
  ∀ (s : State) (byte : Byte), s.phase = .idle →
    exec (.put byte) s = .next { s with fault := s.fault ||| 2 } ∧
    exec .endInv s = .next { s with fault := s.fault ||| 2 }

/-- 00_scope.md R7 (a): a `PUT` that would be number `2^64` of its invocation is refused, in either direction, and no counter wraps around. The count `puts` is the model's (log entries 5, 6): a start command sets it to 0, every performed `PUT` adds one, `END` leaves it. -/
def Obligations.PutBeyondAdmissionIsRefused : Prop :=
  (∀ (s t : State) (i : Instr), exec i s = .next t →
    (((∃ width, i = .enc width) ∨ (∃ ig, i = .dec ig)) → s.phase = .idle → t.puts = 0) ∧
    ((∃ byte, i = .put byte) → s.phase ≠ .idle → t.puts = s.puts + 1 ∧ t.puts < 2 ^ 64) ∧
    (i = .endInv → t.puts = s.puts)) ∧
  (∀ (s : State) (byte : Byte), s.phase ≠ .idle → 2 ^ 64 ≤ s.puts + 1 → exec (.put byte) s = .refused .tooManyPuts) ∧
  (∀ (s t : State) (byte : Byte), s.phase = .dec → exec (.put byte) s = .next t →
    s.n.toNat ≤ t.n.toNat ∧
    t.n.toNat + t.nlrun.toNat ≤ s.n.toNat + s.nlrun.toNat + 1)

/-! ### The encode path (42_encode_path.md) -/

/-- 42_encode_path.md R131: `EMIT(y)`, and that the column cannot overflow below the width. -/
def Obligations.EmitPushesThroughWrapStage : Prop :=
  ∀ (s : State) (y : Byte),
    (s.ww = 0 → emit y s = { s with out := s.out ++ [y], any := true }) ∧
    (s.ww ≠ 0 → s.col + 1 = s.ww → emit y s = { s with out := s.out ++ [y, 0x0A], any := true, col := 0 }) ∧
    (s.ww ≠ 0 → s.col + 1 ≠ s.ww → emit y s = { s with out := s.out ++ [y], any := true, col := s.col + 1 }) ∧
    (s.col < s.ww → (s.col + 1).toNat = s.col.toNat + 1)

/-- 42_encode_path.md R132: `PUT` in phase `ENC` with fewer than four bytes held, and with four. The hypothesis on `puts` says that the invocation stays admitted (00_scope.md R7 (a)); nothing else is said of this count of the model (log entry 5). -/
def Obligations.PutInEncodePhase : Prop :=
  (∀ (s : State) (byte : Byte) (h : s.ecnt.val < 4), s.phase = .enc → s.puts + 1 < 2 ^ 64 →
    ∃ count, exec (.put byte) s = .next { s with
      ebuf := s.ebuf.set s.ecnt.val byte h, ecnt := ⟨s.ecnt.val + 1, Nat.succ_lt_succ h⟩, puts := count }) ∧
  (∀ (s : State) (byte : Byte), s.ecnt.val = 4 → s.phase = .enc → s.puts + 1 < 2 ^ 64 →
    ∃ count, exec (.put byte) s = .next {
      (encGroup [s.ebuf[0], s.ebuf[1], s.ebuf[2], s.ebuf[3], byte]).foldl (fun u y => emit y u) s with
      ecnt := 0, puts := count })

/-- 42_encode_path.md R133 with R122: `END` in phase `ENC`, for a final partial group and for none, and the rule of the trailing line break. -/
def Obligations.EndInEncodePhase : Prop :=
  ∀ s : State, s.phase = .enc →
    ∃ u : State,
      (s.ecnt.val = 0 → u = s) ∧
      (0 < s.ecnt.val →
        u = { (encGroup (s.ebuf.toList.take s.ecnt.val)).foldl (fun v y => emit y v) s with ecnt := 0 }) ∧
      exec .endInv s = .next { u with
        out := if u.ww = 0 ∨ u.col ≠ 0 ∨ u.any = false then u.out ++ [0x0A] else u.out
        errKind := .noError, errPos := 0, done := true, phase := .idle }

/-- 42_encode_path.md R131 to R133, the frame of phase `ENC`: `PUT` and `END` leave the configuration, the decoder's registers, the fault bits and the command stream alone, and R135: no codec error is raised. -/
def Obligations.EncodePhaseFrame : Prop :=
  ∀ (s t : State) (i : Instr), s.phase = .enc → ((∃ byte, i = .put byte) ∨ i = .endInv) → exec i s = .next t →
    t.ww = s.ww ∧ t.ig = s.ig ∧ t.win = s.win ∧ t.gcnt = s.gcnt ∧ t.n = s.n ∧ t.nlrun = s.nlrun ∧
    t.elatV = s.elatV ∧ t.elatKind = s.elatKind ∧ t.elatPos = s.elatPos ∧ t.obuf = s.obuf ∧
    t.fault = s.fault ∧ t.input = s.input ∧ t.obufCap = s.obufCap ∧
    (∀ byte, i = .put byte → t.errKind = s.errKind ∧ t.errPos = s.errPos ∧ t.done = s.done ∧ t.phase = s.phase) ∧
    (i = .endInv → t.ebuf = s.ebuf ∧ t.puts = s.puts ∧ t.errKind = .noError ∧ t.errPos = 0)

/-- 42_encode_path.md R134: an encode invocation computes `ENCODE_STREAM`, and after `m` of its `PUT`s has pushed `WRAP'` of the whole groups, which is never withdrawn. -/
def Obligations.EncodeInvocationComputesEncodeStream : Prop :=
  ∀ (s : State) (width : Width) (x : List Byte), s.phase = .idle → AdmittedEncode x →
    ∃ t, runWords (programWords (encodeProgram width x)) s = .next t ∧
      t.out = s.out ++ encodeStream x width.toNat ∧
      t.RunComplete ∧ t.done = true ∧ t.errKind = .noError ∧ t.errPos = 0 ∧ t.fault = s.fault ∧
      ∀ m ≤ x.length, ∃ u, runWords (programWords (.enc width :: putsProgram (x.take m))) s = .next u ∧
        u.out = s.out ++ wrapOpen (encodeBytes (x.take (5 * (m / 5)))) width.toNat ∧ u.out <+: t.out

/-! ### The decode path (43_decode_path.md) -/

/-- 43_decode_path.md R147: `CLOSE(final)` on a full window, and the codes of the kinds. -/
def Obligations.CloseRunsGroupDatapathOnce : Prop :=
  (∀ (s : State) (final : Bool), s.gcnt = 8 →
    (s.elatV = true → closeWindow final s = { s with gcnt := 0 }) ∧
    (∀ bytes, s.elatV = false → decGroup s.win.toList final = .ok bytes →
      closeWindow final s = { s with obuf := s.obuf ++ bytes, gcnt := 0 }) ∧
    (∀ kind i, s.elatV = false → decGroup s.win.toList final = .err kind i →
      closeWindow final s = { s with
        elatV := true, elatKind := kind.kind, elatPos := s.n - 8 + BitVec.ofNat 64 i, gcnt := 0 })) ∧
  CodecError.invalidLength.kind.code = 1 ∧ CodecError.invalidCharacter.kind.code = 2

/-- 43_decode_path.md R146: `PUSH(c)` with room in the window, and with a full window, which is closed as non-final first. -/
def Obligations.PushClosesFullWindowFirst : Prop :=
  ∀ (s : State) (c : Byte),
    (∀ h : s.gcnt.val < 8, pushChar c s = { s with
      win := s.win.set s.gcnt.val c h, gcnt := ⟨s.gcnt.val + 1, Nat.succ_lt_succ h⟩, n := s.n + 1 }) ∧
    (s.gcnt = 8 → pushChar c s = { closeWindow false s with
      win := s.win.set 0 c, gcnt := 1, n := s.n + 1 })

/-- 43_decode_path.md R148: `PUT` in strict mode. The hypotheses on the counters and the capacity say that the invocation stays admitted: each of the `(GCNT + NLRUN) / 8` windows closed adds at most 5 bytes (00_scope.md R7). Nothing else is said of `puts` (log entry 5). -/
def Obligations.PutInStrictDecodePhase : Prop :=
  ∀ (s : State) (byte : Byte), s.phase = .dec → s.ig = false →
    s.puts + 1 < 2 ^ 64 → s.n.toNat + s.nlrun.toNat + 1 < 2 ^ 64 →
    (∀ c ∈ s.obufCap, s.obuf.length + 5 * ((s.gcnt.val + s.nlrun.toNat) / 8) ≤ c) →
    (byte = 0x0A → ∃ count, exec (.put byte) s = .next { s with nlrun := s.nlrun + 1, puts := count }) ∧
    (byte ≠ 0x0A → ∃ count, exec (.put byte) s = .next {
      pushChar byte ((List.replicate s.nlrun.toNat (0x0A : Byte)).foldl (fun u c => pushChar c u) s) with
      nlrun := 0, puts := count })

/-- 43_decode_path.md R149: `PUT` in lenient mode: a symbol or pad is pushed, every other byte changes no register. The hypotheses say that the invocation stays admitted (00_scope.md R7); nothing else is said of `puts`, the model's own count (log entry 5). -/
def Obligations.PutInLenientDecodePhase : Prop :=
  ∀ (s : State) (byte : Byte), s.phase = .dec → s.ig = true →
    s.puts + 1 < 2 ^ 64 → s.n.toNat + s.nlrun.toNat + 1 < 2 ^ 64 →
    (∀ c ∈ s.obufCap, s.obuf.length + 5 * (s.gcnt.val / 8) ≤ c) →
    ((val byte ≤ 31 ∨ byte = 0x3D) → ∃ count, exec (.put byte) s = .next { pushChar byte s with puts := count }) ∧
    (¬ (val byte ≤ 31 ∨ byte = 0x3D) → ∃ count, exec (.put byte) s = .next { s with puts := count })

/-- 43_decode_path.md R150 with R122: `END` in phase `DEC`. The capacity hypothesis says that the final group fits. -/
def Obligations.EndInDecodePhase : Prop :=
  ∀ s : State, s.phase = .dec → (∀ c ∈ s.obufCap, s.obuf.length + 5 * (s.gcnt.val / 8) ≤ c) →
    (s.gcnt ≠ 0 → s.gcnt ≠ 8 → exec .endInv s = .next { s with
      errKind := .invalidLength, errPos := s.n - BitVec.ofNat 64 s.gcnt.val,
      nlrun := 0, obuf := [], gcnt := 0, elatV := false, done := true, phase := .idle }) ∧
    ((s.gcnt = 0 ∨ s.gcnt = 8) → ∃ u : State,
      (s.gcnt = 0 → u = s) ∧ (s.gcnt = 8 → u = closeWindow true s) ∧
      (u.elatV = true → exec .endInv s = .next { u with
        errKind := u.elatKind, errPos := u.elatPos,
        nlrun := 0, obuf := [], gcnt := 0, elatV := false, done := true, phase := .idle }) ∧
      (u.elatV = false → exec .endInv s = .next { u with
        out := s.out ++ u.obuf, errKind := .noError, errPos := 0,
        nlrun := 0, obuf := [], gcnt := 0, elatV := false, done := true, phase := .idle }))

/-- 41_commands_dispatch.md R121 and 43_decode_path.md R146 to R149, the frame of `PUT` in phase `DEC`: nothing is pushed to `OUT`, no result register is written, the encoder's registers and the configuration stay, decoded bytes are only appended, and a latched error is kept. -/
def Obligations.DecodePutFrame : Prop :=
  ∀ (s t : State) (byte : Byte), s.phase = .dec → exec (.put byte) s = .next t →
    t.phase = s.phase ∧ t.done = s.done ∧ t.errKind = s.errKind ∧ t.errPos = s.errPos ∧ t.fault = s.fault ∧
    t.ww = s.ww ∧ t.ig = s.ig ∧ t.ebuf = s.ebuf ∧ t.ecnt = s.ecnt ∧ t.col = s.col ∧ t.any = s.any ∧
    t.out = s.out ∧ t.input = s.input ∧ t.obufCap = s.obufCap ∧ s.obuf <+: t.obuf ∧
    (s.elatV = true → t.elatV = true ∧ t.elatKind = s.elatKind ∧ t.elatPos = s.elatPos ∧ t.obuf = s.obuf)

/-- 43_decode_path.md R150, the frame of `END` in phase `DEC`. -/
def Obligations.DecodeEndFrame : Prop :=
  ∀ (s t : State), s.phase = .dec → exec .endInv s = .next t →
    t.fault = s.fault ∧ t.ww = s.ww ∧ t.ig = s.ig ∧ t.ebuf = s.ebuf ∧ t.ecnt = s.ecnt ∧ t.col = s.col ∧ t.any = s.any ∧
    t.win = s.win ∧ t.n = s.n ∧ t.input = s.input ∧ t.obufCap = s.obufCap ∧ t.puts = s.puts

/-- 43_decode_path.md R151: in a decode invocation nothing is pushed before `END`, and `END` pushes every decoded byte or none, as its result says. The premise on the latch is part of the invariant. -/
def Obligations.DecodeCommitsAllOrNothing : Prop :=
  ∀ (s t : State) (i : Instr), s.phase = .dec → (s.elatV = true → s.elatKind ≠ .noError) → exec i s = .next t →
    (i ≠ .endInv → t.out = s.out) ∧
    (i = .endInv → t.errKind ≠ .noError → t.out = s.out) ∧
    (i = .endInv → t.errKind = .noError →
      (s.gcnt = 0 ∨ s.gcnt = 8) ∧
      t.out = s.out ++ (if s.gcnt = 8 then (closeWindow true s).obuf else s.obuf))

/-- 43_decode_path.md R152: a decode invocation computes `DECODE`, and the invariant that carries the proof holds after every `PUT`. -/
def Obligations.DecodeInvocationComputesDecode : Prop :=
  ∀ (s : State) (ig : Bool) (x : List Byte), s.phase = .idle → AdmittedDecode x ig s.obufCap →
    (∃ t, runWords (programWords (decodeProgram ig x)) s = .next t ∧
      t.RunComplete ∧ t.done = true ∧ t.fault = s.fault ∧
      (∀ y, decodeBytes x ig = .ok y → t.out = s.out ++ y ∧ t.errKind = .noError ∧ t.errPos = 0) ∧
      (∀ kind pos, decodeBytes x ig = .err kind pos →
        t.out = s.out ∧ t.errKind = kind.kind ∧ t.errPos.toNat = pos)) ∧
    (∀ m ≤ x.length, ∃ u, runWords (programWords (.dec ig :: putsProgram (x.take m))) s = .next u ∧
      u.out = s.out ∧
      u.n.toNat = (pre (x.take m) ig).length ∧
      u.nlrun.toNat = (if ig then 0 else m - (pre (x.take m) ig).length) ∧
      u.winBytes = (pre (x.take m) ig).drop (u.n.toNat - u.gcnt.val) ∧
      (u.n.toNat - u.gcnt.val) % 8 = 0 ∧ (u.gcnt = 0 ↔ u.n = 0) ∧
      u.obuf = (scanGroups false 0 ((pre (x.take m) ig).take (u.n.toNat - u.gcnt.val))).1 ∧
      (match (scanGroups false 0 ((pre (x.take m) ig).take (u.n.toNat - u.gcnt.val))).2 with
        | none => u.elatV = false
        | some (kind, pos) => u.elatV = true ∧ u.elatKind = kind.kind ∧ u.elatPos.toNat = pos))

/-- 00_scope.md R7 (b), 70_reset_and_hazards.md R198: a decode invocation that would hold more than `OBUF_CAP` decoded bytes is refused; no byte is dropped. -/
def Obligations.DecodeBeyondCapacityIsRefused : Prop :=
  ∀ (s : State) (ig : Bool) (x : List Byte) (cap : Nat), s.phase = .idle → s.obufCap = some cap →
    x.length < 2 ^ 64 → cap < obufPeak x ig →
    runWords (programWords (decodeProgram ig x)) s = .refused .obufCapExceeded

/-! ### Whole-machine rules -/

/-- 10_state.md R40 holds right after reset. -/
def Obligations.InvariantAtReset : Prop := Inv State.reset

/-- 10_state.md R40: every step, whatever the host presents, keeps the invariant. -/
def Obligations.InvariantKeptByStep : Prop :=
  ∀ s t : State, Inv s → step s = .next t → Inv t

/-- 10_state.md R40 (c): no command reads a dead register. Two states that agree on the live ones answer alike, push the same bytes and agree again. -/
def Obligations.DeadRegistersAreNeverRead : Prop :=
  ∀ (s t : State) (i : Instr), SameLive s t →
    (∀ s', exec i s = .next s' → ∃ t' pushed, exec i t = .next t' ∧ SameLive s' t' ∧
      s'.out = s.out ++ pushed ∧ t'.out = t.out ++ pushed) ∧
    (∀ r, exec i s = .refused r → exec i t = .refused r)

/-- 10_state.md R42, 20_memory.md R61 (a): what the words from a start command on push and report is a function of those words alone, whatever invocations and faults came before. -/
def Obligations.InvocationDependsOnItsCommandsOnly : Prop :=
  ∀ (s t s' : State) (start : Instr) (ws : List CmdWord), s.phase = .idle → t.phase = .idle → s.obufCap = t.obufCap →
    ((∃ width, start = .enc width) ∨ (∃ ig, start = .dec ig)) →
    runWords (encode start :: ws) s = .next s' →
    ∃ t' pushed, runWords (encode start :: ws) t = .next t' ∧
      s'.out = s.out ++ pushed ∧ t'.out = t.out ++ pushed ∧
      s'.phase = t'.phase ∧ s'.done = t'.done ∧ s'.errKind = t'.errKind ∧ s'.errPos = t'.errPos

/-- 41_commands_dispatch.md R124: a run behaves as the run with the faulting words deleted, except that `FAULT` records them. -/
def Obligations.FaultingWordsActAsDeleted : Prop :=
  ∀ (s t : State) (ws : List CmdWord), runWords ws s = .next t →
    runWords (performedWords s.phase ws) s = .next { t with fault := s.fault }

/-- 41_commands_dispatch.md R124: the sequences that raise no command fault are exactly those of the grammar. -/
def Obligations.LegalSequencesAreThoseWithoutFault : Prop :=
  ∀ (s t : State) (ws : List CmdWord), s.phase = .idle → s.FaultFree → runWords ws s = .next t →
    (t.FaultFree ↔ ∃ p, LegalSequence p ∧ ws = programWords p)

/-- 10_state.md R26, R30, R32, R43, 60_exceptions.md R165: what the host reads at the status port, and that code 3 never occurs. -/
def Obligations.StatusPortShowsCodes : Prop :=
  (∀ s : State, s.statusPort = ⟨s.phase.code, s.done, s.errKind.code, s.errPos, s.fault⟩ ∧
    s.statusPort.phase ≠ 3 ∧ s.statusPort.errKind ≠ 3 ∧
    (s.ill = true ↔ s.fault &&& 1 ≠ 0) ∧ (s.seq = true ↔ s.fault &&& 2 ≠ 0)) ∧
  Phase.idle.code = 0 ∧ Phase.enc.code = 1 ∧ Phase.dec.code = 2 ∧
  ErrKind.noError.code = 0 ∧ ErrKind.invalidLength.code = 1 ∧ ErrKind.invalidCharacter.code = 2

/-- 60_exceptions.md R178: the host's message at every position, in decimal without leading zeros, the same words for both kinds. That no error renders to nothing is the model's choice (log entry 19): R178 says nothing of `ERR_KIND = 0`. -/
def Obligations.HostRendersPosition : Prop :=
  (∀ pos : Pos,
    hostMessage .invalidLength pos = some ("invalid length at " ++ Nat.repr pos.toNat) ∧
    hostMessage .invalidCharacter pos = some ("invalid length at " ++ Nat.repr pos.toNat)) ∧
  hostMessage .invalidLength 16 = some "invalid length at 16" ∧
  hostMessage .invalidCharacter 0 = some "invalid length at 0" ∧
  (∀ pos : Pos, hostMessage .noError pos = none)

/-! ### The codec functions (40_codec_functions.md) -/

/-- 40_codec_functions.md R90 to R92: the two tables in full, their being inverse to each other, and their counts. -/
def Obligations.AlphabetIsBijection : Prop :=
  (∀ c : Byte, val c =
    if 0x41 ≤ c ∧ c ≤ 0x5A then c - 0x41
    else if 0x32 ≤ c ∧ c ≤ 0x37 then c - 0x32 + 26
    else if c = 0x3D then 0x40
    else 0xFF) ∧
  (∀ c : Byte, (isSym c = true ↔ val c ≤ 31) ∧ (isPad c = true ↔ c = 0x3D)) ∧
  (∀ v : Sym5, val (sym v) = v.setWidth 8 ∧ isSym (sym v) = true) ∧
  (∀ c : Byte, isSym c = true → sym (symValue c) = c) ∧
  (∀ v : Sym5, sym v = if v.toNat ≤ 25 then BitVec.ofNat 8 (0x41 + v.toNat) else BitVec.ofNat 8 (0x32 + (v.toNat - 26))) ∧
  ((List.range 256).filter fun c => isSym (BitVec.ofNat 8 c)).length = 32 ∧
  ((List.range 256).filter fun c => val (BitVec.ofNat 8 c) == 0xFF).length = 223

/-- 20_memory.md R51, R59: the table space holds `SYM` at 0 and `VAL` at 32 and nothing else. -/
def Obligations.TableSpaceHoldsTables : Prop :=
  (∀ v : Sym5, tableRead (0 + v.toNat) = some (sym v)) ∧
  (∀ c : Byte, tableRead (32 + c.toNat) = some (val c)) ∧
  (∀ addr : Nat, 288 ≤ addr → tableRead addr = none)

/-- 40_codec_functions.md R97 with R95: the bit layout of `ENC_GROUP`, field by field, for every group size. -/
def Obligations.EncGroupBitLayout : Prop :=
  ∀ b0 b1 b2 b3 b4 : Byte,
    encGroup [b0, b1, b2, b3, b4] =
      [sym (b0.extractLsb' 3 5), sym (b0.extractLsb' 0 3 ++ b1.extractLsb' 6 2), sym (b1.extractLsb' 1 5),
        sym (b1.extractLsb' 0 1 ++ b2.extractLsb' 4 4), sym (b2.extractLsb' 0 4 ++ b3.extractLsb' 7 1),
        sym (b3.extractLsb' 2 5), sym (b3.extractLsb' 0 2 ++ b4.extractLsb' 5 3), sym (b4.extractLsb' 0 5)] ∧
    encGroup [b0, b1, b2, b3] =
      [sym (b0.extractLsb' 3 5), sym (b0.extractLsb' 0 3 ++ b1.extractLsb' 6 2), sym (b1.extractLsb' 1 5),
        sym (b1.extractLsb' 0 1 ++ b2.extractLsb' 4 4), sym (b2.extractLsb' 0 4 ++ b3.extractLsb' 7 1),
        sym (b3.extractLsb' 2 5), sym (b3.extractLsb' 0 2 ++ (0 : BitVec 3)), 0x3D] ∧
    encGroup [b0, b1, b2] =
      [sym (b0.extractLsb' 3 5), sym (b0.extractLsb' 0 3 ++ b1.extractLsb' 6 2), sym (b1.extractLsb' 1 5),
        sym (b1.extractLsb' 0 1 ++ b2.extractLsb' 4 4), sym (b2.extractLsb' 0 4 ++ (0 : BitVec 1)), 0x3D, 0x3D, 0x3D] ∧
    encGroup [b0, b1] =
      [sym (b0.extractLsb' 3 5), sym (b0.extractLsb' 0 3 ++ b1.extractLsb' 6 2), sym (b1.extractLsb' 1 5),
        sym (b1.extractLsb' 0 1 ++ (0 : BitVec 4)), 0x3D, 0x3D, 0x3D, 0x3D] ∧
    encGroup [b0] =
      [sym (b0.extractLsb' 3 5), sym (b0.extractLsb' 0 3 ++ (0 : BitVec 2)), 0x3D, 0x3D, 0x3D, 0x3D, 0x3D, 0x3D]

/-- 40_codec_functions.md R105 with R103 and R111: the bit layout of `DEC_GROUP` on a final group, field by field, for every legal pad count; the dropped bits do not matter. -/
def Obligations.DecGroupBitLayout : Prop :=
  ∀ v0 v1 v2 v3 v4 v5 v6 v7 : Sym5,
    decGroup [sym v0, sym v1, sym v2, sym v3, sym v4, sym v5, sym v6, sym v7] true =
      .ok [v0 ++ v1.extractLsb' 2 3, v1.extractLsb' 0 2 ++ v2 ++ v3.extractLsb' 4 1,
        v3.extractLsb' 0 4 ++ v4.extractLsb' 1 4, v4.extractLsb' 0 1 ++ v5 ++ v6.extractLsb' 3 2,
        v6.extractLsb' 0 3 ++ v7] ∧
    decGroup [sym v0, sym v1, sym v2, sym v3, sym v4, sym v5, sym v6, 0x3D] true =
      .ok [v0 ++ v1.extractLsb' 2 3, v1.extractLsb' 0 2 ++ v2 ++ v3.extractLsb' 4 1,
        v3.extractLsb' 0 4 ++ v4.extractLsb' 1 4, v4.extractLsb' 0 1 ++ v5 ++ v6.extractLsb' 3 2] ∧
    decGroup [sym v0, sym v1, sym v2, sym v3, sym v4, 0x3D, 0x3D, 0x3D] true =
      .ok [v0 ++ v1.extractLsb' 2 3, v1.extractLsb' 0 2 ++ v2 ++ v3.extractLsb' 4 1,
        v3.extractLsb' 0 4 ++ v4.extractLsb' 1 4] ∧
    decGroup [sym v0, sym v1, sym v2, sym v3, 0x3D, 0x3D, 0x3D, 0x3D] true =
      .ok [v0 ++ v1.extractLsb' 2 3, v1.extractLsb' 0 2 ++ v2 ++ v3.extractLsb' 4 1] ∧
    decGroup [sym v0, sym v1, 0x3D, 0x3D, 0x3D, 0x3D, 0x3D, 0x3D] true = .ok [v0 ++ v1.extractLsb' 2 3]

/-- 40_codec_functions.md R96, R104: `DEC_GROUP` undoes `ENC_GROUP` on a final group of any size, and a whole group is undone as non-final too. -/
def Obligations.DecGroupUndoesEncGroup : Prop :=
  ∀ (b : List Byte) (final : Bool), 1 ≤ b.length → b.length ≤ 5 → (final = true ∨ b.length = 5) →
    decGroup (encGroup b) final = .ok b

/-- 40_codec_functions.md R99: the length, the pads, injectivity, concatenation and the characters of `ENCODE`. -/
def Obligations.EncodeLaws : Prop :=
  (∀ x : List Byte, (encodeBytes x).length = 8 * ((x.length + 4) / 5)) ∧
  (∀ x : List Byte, ∃ body pads, encodeBytes x = body ++ List.replicate pads 0x3D ∧ (∀ c ∈ body, isSym c = true) ∧
    (x.length % 5 = 0 → pads = 0) ∧ (x.length % 5 = 1 → pads = 6) ∧ (x.length % 5 = 2 → pads = 4) ∧
    (x.length % 5 = 3 → pads = 3) ∧ (x.length % 5 = 4 → pads = 1)) ∧
  (∀ x y : List Byte, encodeBytes x = encodeBytes y → x = y) ∧
  (∀ x y : List Byte, x.length % 5 = 0 → encodeBytes (x ++ y) = encodeBytes x ++ encodeBytes y) ∧
  (∀ x : List Byte, ∀ c ∈ encodeBytes x, (isSym c = true ∨ c = 0x3D) ∧ c ≠ 0x0A)

/-- 40_codec_functions.md R102: the lines of `WRAP(s, w)` for a sequence without `LF`, their number and the number of `LF`, the last line, no two adjacent `LF`, the final `LF`, and `s` recovered by removing them. -/
def Obligations.WrapLaws : Prop :=
  ∀ (s : List Byte) (w : Nat), (0x0A : Byte) ∉ s →
    (w = 0 → wrap s w = s ++ [0x0A]) ∧
    (0 < w → ∃ (full : List (List Byte)) (last : List Byte),
      wrap s w = (full.map (· ++ [0x0A])).flatten ++ last ++ [0x0A] ∧
      full.flatten ++ last = s ∧ (∀ l ∈ full, l.length = w) ∧
      (s = [] → full = [] ∧ last = []) ∧
      (s ≠ [] → 1 ≤ last.length ∧ last.length ≤ w ∧ full.length + 1 = (s.length + w - 1) / w ∧
        last.length = s.length - w * ((s.length + w - 1) / w - 1))) ∧
    ((wrap s w).filter (fun c => c == 0x0A)).length = (if w = 0 then 1 else max 1 ((s.length + w - 1) / w)) ∧
    (wrap s w).filter (fun c => c != 0x0A) = s ∧
    (wrap s w).getLast? = some 0x0A ∧
    (∀ k : Nat, ¬ ((wrap s w)[k]? = some 0x0A ∧ (wrap s w)[k + 1]? = some 0x0A))

/-- 40_codec_functions.md R106: strict mode removes the longest suffix of `LF` and nothing else; lenient mode keeps the symbols and pads in order. -/
def Obligations.PrePassKeepsSignificantStream : Prop :=
  (∀ x : List Byte, ∃ k, x = pre x false ++ List.replicate k 0x0A ∧ (pre x false).getLast? ≠ some 0x0A) ∧
  (∀ x : List Byte, pre x true = x.filter (fun c => isSym c || c == 0x3D))

/-- 40_codec_functions.md R110 (a) to (c): decoding undoes encoding in both modes, with the stream writer's line break, and at every width in lenient mode. -/
def Obligations.DecodeUndoesEncode : Prop :=
  ∀ (b : List Byte) (w : Nat),
    decodeBytes (encodeBytes b) false = .ok b ∧ decodeBytes (encodeBytes b) true = .ok b ∧
    decodeBytes (encodeStream b 0) false = .ok b ∧ decodeBytes (encodeStream b w) true = .ok b

/-- 40_codec_functions.md R110 (d), 70_reset_and_hazards.md R195: text wrapped into more than one line is an error in strict mode. `L` is the significant length: all characters and the embedded line breaks. -/
def Obligations.WrappedTextFailsInStrictMode : Prop :=
  ∀ (b : List Byte) (w L : Nat), 0 < w → w < (encodeBytes b).length →
    L = (encodeBytes b).length + (((encodeBytes b).length + w - 1) / w - 1) →
    (L % 8 ≠ 0 → decodeBytes (encodeStream b w) false = .err .invalidLength (8 * (L / 8))) ∧
    (L % 8 = 0 → decodeBytes (encodeStream b w) false = .err .invalidCharacter w)

/-- 60_exceptions.md R166 and R171: exactly when `DECODE` answers `InvalidLength`, and with which position: cause (a), or, when no character is out of place, cause (b). -/
def Obligations.InvalidLengthCauses : Prop :=
  ∀ (x : List Byte) (ig : Bool) (pos : Nat), decodeBytes x ig = .err .invalidLength pos ↔
    ((pre x ig).length % 8 ≠ 0 ∧ pos = 8 * ((pre x ig).length / 8)) ∨
    ((pre x ig).length % 8 = 0 ∧ (∀ k, ¬ BadCharacter (pre x ig) k) ∧
      ∃ G p, (pre x ig).length = 8 * G ∧ 1 ≤ G ∧ p ∈ [2, 5, 7, 8] ∧ pos = 8 * (G - 1) + (8 - p) ∧
        (pre x ig).drop pos = List.replicate p 0x3D ∧
        (p < 8 → ∃ c, (pre x ig)[pos - 1]? = some c ∧ isSym c = true))

/-- 60_exceptions.md R167 and R171: exactly when `DECODE` answers `InvalidCharacter`, and with which position: the significant length is a multiple of 8 and the position is that of the first character out of place; cause (a) arises in strict mode only. -/
def Obligations.InvalidCharacterCauses : Prop :=
  (∀ (x : List Byte) (ig : Bool) (pos : Nat), decodeBytes x ig = .err .invalidCharacter pos ↔
    (pre x ig).length % 8 = 0 ∧ BadCharacter (pre x ig) pos ∧ ∀ k < pos, ¬ BadCharacter (pre x ig) k) ∧
  (∀ (x : List Byte) (k : Nat) (c : Byte), (pre x true)[k]? = some c → isSym c = true ∨ c = 0x3D)

/-- 40_codec_functions.md R109: an error position is an index into the significant stream, and in strict mode the character there is the one at the same index of the raw input. -/
def Obligations.ErrorPositionIndexesSignificantStream : Prop :=
  ∀ (x : List Byte) (ig : Bool) (kind : CodecError) (pos : Nat), decodeBytes x ig = .err kind pos →
    pos < (pre x ig).length ∧ (ig = false → (pre x ig)[pos]? = x[pos]?)

/-- 40_codec_functions.md R111: bits dropped by a padded final group are not examined; `Z` and `Y` differ only in them. -/
def Obligations.NonCanonicalGroupDecodes : Prop :=
  decodeBytes [0x4D, 0x5A, 0x3D, 0x3D, 0x3D, 0x3D, 0x3D, 0x3D] false = .ok [0x66] ∧
  decodeBytes [0x4D, 0x59, 0x3D, 0x3D, 0x3D, 0x3D, 0x3D, 0x3D] false = .ok [0x66]
end

