-- ==== Sys2Proof/Laws/Codec.lean ====
section
/-! SUPPORT. The alphabet tables and the group datapaths: the tables are inverse to each other, the bit layout of a group is the same seen as bytes and as 5-bit values, and what `DEC_GROUP` answers on symbols followed by pads. -/

namespace Sys2Proof.Machine

/-! ### The alphabet -/

theorem isSym_sym (v : Sym5) : isSym (sym v) = true := by
  revert v; decide

theorem symValue_sym (v : Sym5) : symValue (sym v) = v := by
  revert v; decide

theorem isPad_sym (v : Sym5) : isPad (sym v) = false := by
  revert v; decide

theorem sym_ne_lf (v : Sym5) : sym v ≠ Config.lf := by
  revert v; decide

theorem sym_symValue : ∀ c : Byte, isSym c = true → sym (symValue c) = c := by
  decide +revert

theorem sym_injective {v w : Sym5} (h : sym v = sym w) : v = w := by
  rw [← symValue_sym v, h, symValue_sym]

@[simp] theorem isSym_pad : isSym Config.pad = false := by decide

@[simp] theorem isPad_pad : isPad Config.pad = true := by decide

@[simp] theorem isSym_lf : isSym Config.lf = false := by decide

@[simp] theorem isPad_lf : isPad Config.lf = false := by decide

theorem isPad_iff (c : Byte) : isPad c = true ↔ c = Config.pad := by simp [isPad]

theorem isSym_ne_lf {c : Byte} (h : isSym c = true) : c ≠ Config.lf := by
  rintro rfl; simp at h

theorem isSym_ne_pad {c : Byte} (h : isSym c = true) : c ≠ Config.pad := by
  rintro rfl; simp at h

/-! ### Bit layout -/

theorem packBytes_byteAt (b0 b1 b2 b3 b4 : Byte) :
    (List.range 5).map (byteAt (packBytes [b0, b1, b2, b3, b4])) = [b0, b1, b2, b3, b4] := by
  simp only [List.range_succ, List.range_zero, List.map_cons, List.map_nil, List.nil_append,
    List.cons_append, List.cons.injEq, and_true]
  refine ⟨?_, ?_, ?_, ?_, ?_⟩
  all_goals
    apply BitVec.eq_of_getLsbD_eq
    intro i hi
    simp only [packBytes, byteAt, List.getD_cons_zero, List.getD_cons_succ, BitVec.getLsbD_append, BitVec.getLsbD_extractLsb']
    interval_cases i <;> simp

theorem packValues_valueAt (V : GroupBits) :
    packValues [valueAt V 0, valueAt V 1, valueAt V 2, valueAt V 3, valueAt V 4, valueAt V 5, valueAt V 6, valueAt V 7] = V := by
  apply BitVec.eq_of_getLsbD_eq
  intro i hi
  simp only [packValues, valueAt, List.getD_cons_zero, List.getD_cons_succ, BitVec.getLsbD_append, BitVec.getLsbD_extractLsb']
  interval_cases i <;> simp

/-- The bytes kept of a final group do not depend on the values that are not there, and are the bytes packed. -/
theorem byteAt_packValues_take (b0 b1 b2 b3 : Byte) :
    ([byteAt (packValues [valueAt (packBytes [b0]) 0, valueAt (packBytes [b0]) 1]) 0] = [b0]) ∧
    ((List.range 2).map (byteAt (packValues ((List.range 4).map (valueAt (packBytes [b0, b1]))))) = [b0, b1]) ∧
    ((List.range 3).map (byteAt (packValues ((List.range 5).map (valueAt (packBytes [b0, b1, b2]))))) = [b0, b1, b2]) ∧
    ((List.range 4).map (byteAt (packValues ((List.range 7).map (valueAt (packBytes [b0, b1, b2, b3]))))) = [b0, b1, b2, b3]) := by
  simp only [List.range_succ, List.range_zero, List.map_cons, List.map_nil, List.nil_append,
    List.cons_append, List.cons.injEq, and_true]
  refine ⟨?_, ⟨?_, ?_⟩, ⟨?_, ?_, ?_⟩, ⟨?_, ?_, ?_, ?_⟩⟩
  all_goals
    apply BitVec.eq_of_getLsbD_eq
    intro i hi
    simp only [packBytes, packValues, byteAt, valueAt, List.getD_cons_zero, List.getD_cons_succ, List.getD_nil,
      BitVec.getLsbD_append, BitVec.getLsbD_extractLsb']
    interval_cases i <;> simp

/-! ### `ENC_GROUP` -/

@[simp] theorem encGroup_length (b : List Byte) : (encGroup b).length = 8 := by
  simp [encGroup, Config.groupSymbols]

/-- `ENC_GROUP` is symbols followed by pads (R96). -/
theorem encGroup_eq_symbols_pads (b : List Byte) (h : nsym b.length ≤ 8) :
    encGroup b = ((List.range (nsym b.length)).map (valueAt (packBytes b))).map sym
      ++ List.replicate (8 - nsym b.length) Config.pad := by
  generalize hk : nsym b.length = k at h
  simp only [encGroup, hk, Config.groupSymbols]
  interval_cases k <;> simp [List.range_succ]

theorem nsym_le (k : Nat) : nsym k ≤ 8 := by
  unfold nsym; split <;> omega

/-! ### `DEC_GROUP` -/

/-- Pads pass only in the final group. -/
theorem scanGroup_pads (final : Bool) (k i p : Nat) (vals : List Sym5) (h : k = 0 ∨ final = true) :
    scanGroup final (List.replicate k Config.pad) i p vals = .ok (p + k, vals) := by
  induction k generalizing i p with
  | zero => simp [scanGroup]
  | succ k ih =>
    have hf : final = true := by simpa using h
    simp only [List.replicate_succ, scanGroup, isSym_pad, isPad_pad, hf, if_true, Bool.false_eq_true, if_false]
    rw [← hf, ih (i + 1) (p + 1) (.inr hf)]
    congr 2; omega

/-- Symbols followed by pads pass all tests (R104). -/
theorem scanGroup_symbols_pads (final : Bool) (vs : List Sym5) (k i : Nat) (vals : List Sym5)
    (h : k = 0 ∨ final = true) :
    scanGroup final (vs.map sym ++ List.replicate k Config.pad) i 0 vals = .ok (k, vals ++ vs) := by
  induction vs generalizing i vals with
  | nil => simpa using scanGroup_pads final k i 0 vals h
  | cons v vs ih =>
    simp only [List.map_cons, List.cons_append, scanGroup, isSym_sym, symValue_sym]
    simp [ih]

/-- What `DEC_GROUP` answers on symbols followed by a legal number of pads (R103, R104). -/
theorem decGroup_symbols_pads (final : Bool) (vs : List Sym5) (k n : Nat)
    (h : k = 0 ∨ final = true) (hn : nbytes k = some n) :
    decGroup (vs.map sym ++ List.replicate k Config.pad) final = .ok ((List.range n).map (byteAt (packValues vs))) := by
  simp [decGroup, scanGroup_symbols_pads final vs k 0 [] h, hn]

/-- An illegal number of pads is reported at the first pad (R104). -/
theorem decGroup_illegal_pads (final : Bool) (vs : List Sym5) (k : Nat)
    (h : k = 0 ∨ final = true) (hn : nbytes k = none) :
    decGroup (vs.map sym ++ List.replicate k Config.pad) final = .err .invalidLength (8 - k) := by
  simp [decGroup, scanGroup_symbols_pads final vs k 0 [] h, hn]

/-- `DEC_GROUP` undoes `ENC_GROUP` on a whole group, final or not. -/
theorem decGroup_encGroup_whole (b0 b1 b2 b3 b4 : Byte) (final : Bool) :
    decGroup (encGroup [b0, b1, b2, b3, b4]) final = .ok [b0, b1, b2, b3, b4] := by
  rw [encGroup_eq_symbols_pads _ (nsym_le _),
    decGroup_symbols_pads final _ _ 5 (.inl (by simp [nsym])) (by simp [nsym, nbytes])]
  simp only [List.length_cons, List.length_nil, nsym]
  conv_lhs => rw [show (List.range 8).map (valueAt (packBytes [b0, b1, b2, b3, b4])) =
    [valueAt (packBytes [b0, b1, b2, b3, b4]) 0, valueAt (packBytes [b0, b1, b2, b3, b4]) 1,
     valueAt (packBytes [b0, b1, b2, b3, b4]) 2, valueAt (packBytes [b0, b1, b2, b3, b4]) 3,
     valueAt (packBytes [b0, b1, b2, b3, b4]) 4, valueAt (packBytes [b0, b1, b2, b3, b4]) 5,
     valueAt (packBytes [b0, b1, b2, b3, b4]) 6, valueAt (packBytes [b0, b1, b2, b3, b4]) 7] from rfl]
  rw [packValues_valueAt, packBytes_byteAt]

/-- `DEC_GROUP` undoes `ENC_GROUP` on a partial group, as the final group. -/
theorem decGroup_encGroup_partial (b : List Byte) (h1 : 1 ≤ b.length) (h2 : b.length ≤ 4) :
    decGroup (encGroup b) true = .ok b := by
  rw [encGroup_eq_symbols_pads _ (nsym_le _)]
  match b, h1, h2 with
  | [b0], _, _ =>
    rw [decGroup_symbols_pads true _ _ 1 (.inr rfl) (by simp [nsym, nbytes])]
    exact congrArg _ (byteAt_packValues_take b0 0 0 0).1
  | [b0, b1], _, _ =>
    rw [decGroup_symbols_pads true _ _ 2 (.inr rfl) (by simp [nsym, nbytes])]
    exact congrArg _ (byteAt_packValues_take b0 b1 0 0).2.1
  | [b0, b1, b2], _, _ =>
    rw [decGroup_symbols_pads true _ _ 3 (.inr rfl) (by simp [nsym, nbytes])]
    exact congrArg _ (byteAt_packValues_take b0 b1 b2 0).2.2.1
  | [b0, b1, b2, b3], _, _ =>
    rw [decGroup_symbols_pads true _ _ 4 (.inr rfl) (by simp [nsym, nbytes])]
    exact congrArg _ (byteAt_packValues_take b0 b1 b2 b3).2.2.2

/-- `scanGroup` answers values exactly on symbols followed by pads. -/
theorem scanGroup_eq_ok {final : Bool} {cs : List Byte} {i p q : Nat} {vals vals' : List Sym5}
    (h : scanGroup final cs i p vals = .ok (q, vals')) :
    ∃ vs k, cs = vs.map sym ++ List.replicate k Config.pad ∧ vals' = vals ++ vs ∧ q = p + k ∧
      (k = 0 ∨ final = true) ∧ (p = 0 ∨ vs = []) := by
  induction cs generalizing i p vals with
  | nil =>
    simp only [scanGroup, Except.ok.injEq, Prod.mk.injEq] at h
    exact ⟨[], 0, by simp [h.1, h.2]⟩
  | cons c cs ih =>
    simp only [scanGroup] at h
    split at h
    next hs =>
      split at h
      · cases h
      next hp =>
        obtain ⟨vs, k, rfl, rfl, rfl, hk, -⟩ := ih h
        exact ⟨symValue c :: vs, k, by simp [sym_symValue c hs], by simp, rfl, hk, .inl (by omega)⟩
    next hs =>
      split at h
      next hpad =>
        split at h
        next hf =>
          obtain ⟨vs, k, rfl, rfl, rfl, hk, hv⟩ := ih h
          obtain rfl : vs = [] := by simpa using hv
          exact ⟨[], k + 1, by simp [List.replicate_succ, (isPad_iff c).1 hpad], by simp, by omega, .inr hf, .inr rfl⟩
        · cases h
      · cases h

/-- A non-final group either fails at a character or is eight symbols and gives five bytes (R104). -/
theorem decGroup_ok_length {c : List Byte} {final : Bool} {bytes : List Byte} (h : decGroup c final = .ok bytes) :
    bytes.length ≤ 5 ∧ 1 ≤ bytes.length ∧ (final = false → bytes.length = 5) := by
  simp only [decGroup] at h
  split at h
  · cases h
  next p vals hs =>
    obtain ⟨vs, k, -, -, hq, hk, -⟩ := scanGroup_eq_ok hs
    split at h
    · cases h
    next n hn =>
      obtain rfl := GroupResult.ok.inj h
      have : n ≤ 5 ∧ 1 ≤ n ∧ (p = 0 → n = 5) := by
        unfold nbytes at hn; split at hn <;> simp at hn <;> omega
      simp only [List.length_map, List.length_range]
      refine ⟨this.1, this.2.1, fun hf => this.2.2 ?_⟩
      rcases hk with rfl | hk
      · simpa using hq
      · simp [hf] at hk

/-- Where `scanGroup` fails lies in the group. -/
theorem scanGroup_error_lt {final : Bool} {cs : List Byte} {i p j : Nat} {vals : List Sym5}
    (h : scanGroup final cs i p vals = .error j) : i ≤ j ∧ j < i + cs.length := by
  induction cs generalizing i p vals with
  | nil => simp [scanGroup] at h
  | cons c cs ih =>
    simp only [scanGroup] at h
    split at h <;> split at h <;> try split at h
    all_goals first
      | (obtain ⟨h1, h2⟩ := ih h; simp only [List.length_cons]; omega)
      | (cases h; simp only [List.length_cons]; omega)

/-- The index of a group error is an index of the group (R104). -/
theorem decGroup_err_lt {c : List Byte} {final : Bool} {kind : CodecError} {i : Nat}
    (hc : c.length = 8) (h : decGroup c final = .err kind i) : i < 8 := by
  simp only [decGroup] at h
  split at h
  next j hj =>
    obtain ⟨-, rfl⟩ := GroupResult.err.inj h
    have := (scanGroup_error_lt hj).2
    omega
  next p vals hs =>
    split at h
    next hn =>
      obtain ⟨-, rfl⟩ := GroupResult.err.inj h
      have : p ≠ 0 := by rintro rfl; simp [nbytes] at hn
      omega
    · cases h

/-! ### Bits of a field joined from two or three bytes or values (R97, R105) -/

theorem getLsbD_join_3_2 (a : BitVec 3) (b : BitVec 2) (i : Nat) :
    BitVec.getLsbD (w := 5) (a ++ b) i = if i < 2 then b.getLsbD i else a.getLsbD (i - 2) :=
  BitVec.getLsbD_append (x := a) (y := b)

theorem getLsbD_join_1_4 (a : BitVec 1) (b : BitVec 4) (i : Nat) :
    BitVec.getLsbD (w := 5) (a ++ b) i = if i < 4 then b.getLsbD i else a.getLsbD (i - 4) :=
  BitVec.getLsbD_append (x := a) (y := b)

theorem getLsbD_join_4_1 (a : BitVec 4) (b : BitVec 1) (i : Nat) :
    BitVec.getLsbD (w := 5) (a ++ b) i = if i < 1 then b.getLsbD i else a.getLsbD (i - 1) :=
  BitVec.getLsbD_append (x := a) (y := b)

theorem getLsbD_join_2_3 (a : BitVec 2) (b : BitVec 3) (i : Nat) :
    BitVec.getLsbD (w := 5) (a ++ b) i = if i < 3 then b.getLsbD i else a.getLsbD (i - 3) :=
  BitVec.getLsbD_append (x := a) (y := b)

theorem getLsbD_join_5_3 (a : BitVec 5) (b : BitVec 3) (i : Nat) :
    BitVec.getLsbD (w := 8) (a ++ b) i = if i < 3 then b.getLsbD i else a.getLsbD (i - 3) :=
  BitVec.getLsbD_append (x := a) (y := b)

theorem getLsbD_join_4_4 (a : BitVec 4) (b : BitVec 4) (i : Nat) :
    BitVec.getLsbD (w := 8) (a ++ b) i = if i < 4 then b.getLsbD i else a.getLsbD (i - 4) :=
  BitVec.getLsbD_append (x := a) (y := b)

theorem getLsbD_join_3_5 (a : BitVec 3) (b : BitVec 5) (i : Nat) :
    BitVec.getLsbD (w := 8) (a ++ b) i = if i < 5 then b.getLsbD i else a.getLsbD (i - 5) :=
  BitVec.getLsbD_append (x := a) (y := b)

theorem getLsbD_join_2_5_1 (a : BitVec 2) (b : BitVec 5) (c : BitVec 1) (i : Nat) :
    BitVec.getLsbD (w := 8) (a ++ b ++ c) i =
      if i < 1 then c.getLsbD i else if i - 1 < 5 then b.getLsbD (i - 1) else a.getLsbD (i - 1 - 5) := by
  refine (BitVec.getLsbD_append (x := a ++ b) (y := c)).trans ?_
  rw [BitVec.getLsbD_append]

theorem getLsbD_join_1_5_2 (a : BitVec 1) (b : BitVec 5) (c : BitVec 2) (i : Nat) :
    BitVec.getLsbD (w := 8) (a ++ b ++ c) i =
      if i < 2 then c.getLsbD i else if i - 2 < 5 then b.getLsbD (i - 2) else a.getLsbD (i - 2 - 5) := by
  refine (BitVec.getLsbD_append (x := a ++ b) (y := c)).trans ?_
  rw [BitVec.getLsbD_append]

end Sys2Proof.Machine
end

