-- ==== Sys2Proof/Laws/Decode.lean ====
section
/-! SUPPORT. The fields of a word put together from fields, and the decoder on such words (30_encoding.md R70, R81). -/

namespace Sys2Proof

@[simp] theorem Machine.opField_wordOfFields (r : RawCommand) : Machine.opField (Machine.wordOfFields r) = r.op := by
  apply BitVec.eq_of_getLsbD_eq
  intro i hi
  simp only [Machine.opField, Machine.wordOfFields, BitVec.getLsbD_extractLsb', BitVec.getLsbD_append]
  simp [hi]

@[simp] theorem Machine.argField_wordOfFields (r : RawCommand) : Machine.argField (Machine.wordOfFields r) = r.arg := by
  apply BitVec.eq_of_getLsbD_eq
  intro i hi
  simp only [Machine.argField, Machine.wordOfFields, BitVec.getLsbD_extractLsb', BitVec.getLsbD_append]
  simp [hi]

/-- Every word is the word of its fields. -/
theorem Machine.wordOfFields_rawFields (w : CmdWord) : Machine.wordOfFields (Machine.rawFields w) = w := by
  apply BitVec.eq_of_getLsbD_eq
  intro i hi
  simp only [Machine.wordOfFields, Machine.rawFields, Machine.opField, Machine.argField,
    BitVec.getLsbD_append, BitVec.getLsbD_extractLsb']
  split
  · simp [*]
  · rw [show 32 + (i - 32) = i by omega, decide_eq_true (by omega : i - 32 < 4), Bool.true_and]

/-- The decoder on the word of given fields (R81). -/
theorem decode_wordOfFields (r : RawCommand) :
    decode (Machine.wordOfFields r) =
      if r.op = 1 then .ok (.enc r.arg)
      else if r.op = 2 then
        if Machine.decReserved r.arg = 0 then .ok (.dec (Machine.decIg r.arg)) else .error .reservedField
      else if r.op = 3 then
        if Machine.putReserved r.arg = 0 then .ok (.put (Machine.putByte r.arg)) else .error .reservedField
      else if r.op = 4 then
        if Machine.endReserved r.arg = 0 then .ok .endInv else .error .reservedField
      else .error .reservedOpcode := by
  simp only [decode, Machine.opField_wordOfFields, Machine.argField_wordOfFields, Machine.encWidth]

/-- The word of given fields decodes exactly when they are well formed (R79). -/
theorem decode_isOk_iff (r : RawCommand) :
    (∃ i, decode (Machine.wordOfFields r) = .ok i) ↔ r.wellFormed = true := by
  obtain ⟨op, arg⟩ := r
  simp only [decode_wordOfFields, RawCommand.wellFormed, RawCommand.opDefined, RawCommand.reservedZero]
  by_cases h1 : op = 1#4
  · subst h1; simp
  by_cases h2 : op = 2#4
  · subst h2
    by_cases h : Machine.decReserved arg = 0#31 <;> simp [h]
  by_cases h3 : op = 3#4
  · subst h3
    by_cases h : Machine.putReserved arg = 0#24 <;> simp [h]
  by_cases h4 : op = 4#4
  · subst h4
    by_cases h : Machine.endReserved arg = 0#32 <;> simp [h]
  · simp [h1, h2, h3, h4]

/-- The reserved field of `DEC` (R73) as a shift. -/
theorem Machine.decReserved_eq_zero_iff (arg : BitVec 32) : Machine.decReserved arg = 0 ↔ arg >>> 1 = 0 := by
  unfold Machine.decReserved
  constructor
  · intro h
    apply BitVec.eq_of_getLsbD_eq
    intro i hi
    have := congrArg (fun v => v.getLsbD i) h
    simp only [BitVec.getLsbD_extractLsb', BitVec.getLsbD_ushiftRight] at *
    by_cases hi' : i < 31
    · simpa [hi'] using this
    · obtain rfl : i = 31 := by omega
      simp [BitVec.getLsbD_of_ge]
  · intro h
    apply BitVec.eq_of_getLsbD_eq
    intro i hi
    have := congrArg (fun v => v.getLsbD i) h
    simp only [BitVec.getLsbD_extractLsb', BitVec.getLsbD_ushiftRight] at *
    simpa [hi] using this

/-- The reserved field of `PUT` (R74) as a shift. -/
theorem Machine.putReserved_eq_zero_iff (arg : BitVec 32) : Machine.putReserved arg = 0 ↔ arg >>> 8 = 0 := by
  unfold Machine.putReserved
  constructor
  · intro h
    apply BitVec.eq_of_getLsbD_eq
    intro i hi
    have := congrArg (fun v => v.getLsbD i) h
    simp only [BitVec.getLsbD_extractLsb', BitVec.getLsbD_ushiftRight] at *
    by_cases hi' : i < 24
    · simpa [hi'] using this
    · simp [BitVec.getLsbD_of_ge, show 32 ≤ 8 + i by omega]
  · intro h
    apply BitVec.eq_of_getLsbD_eq
    intro i hi
    have := congrArg (fun v => v.getLsbD i) h
    simp only [BitVec.getLsbD_extractLsb', BitVec.getLsbD_ushiftRight] at *
    simpa [hi] using this

/-- The data byte of `PUT` (R76) as a truncation. -/
theorem Machine.putByte_eq_setWidth (arg : BitVec 32) : Machine.putByte arg = arg.setWidth 8 := by
  apply BitVec.eq_of_getLsbD_eq
  intro i hi
  simp [Machine.putByte, hi]

end Sys2Proof
end

