-- ==== Sys2Proof/Laws/Messages.lean ====
section
/-! SUPPORT. The whole-message functions: `ENCODE` group by group, `WRAP` line by line and column by column, the pre-pass, and the decoder over groups. -/

namespace Sys2Proof.Machine

/-! ### `ENCODE` -/

theorem encodeBytes_group (b rest : List Byte) (h : b.length = 5) :
    encodeBytes (b ++ rest) = encGroup b ++ encodeBytes rest := by
  match b, h with
  | [b0, b1, b2, b3, b4], _ => simp [encodeBytes]

theorem encodeBytes_short (b : List Byte) (h1 : 1 ≤ b.length) (h2 : b.length ≤ 4) : encodeBytes b = encGroup b := by
  unfold encodeBytes
  split
  · simp only [List.length_cons] at h2; omega
  · simp at h1
  · rfl

@[simp] theorem encodeBytes_nil : encodeBytes [] = [] := rfl

/-- Induction over a byte sequence in chunks of five (R98). -/
theorem groupInduction {P : List Byte → Prop} (nil : P [])
    (short : ∀ b : List Byte, 1 ≤ b.length → b.length ≤ 4 → P b)
    (group : ∀ b rest : List Byte, b.length = 5 → P rest → P (b ++ rest)) : ∀ x, P x := by
  intro x
  generalize hn : x.length = n
  induction n using Nat.strong_induction_on generalizing x with
  | _ n ih =>
    by_cases h0 : x.length = 0
    · rw [List.length_eq_zero_iff] at h0; exact h0 ▸ nil
    by_cases h4 : x.length ≤ 4
    · exact short x (by omega) h4
    · rw [← List.take_append_drop 5 x]
      exact group _ _ (by simp; omega) (ih (x.drop 5).length (by simp; omega) _ rfl)

theorem encodeBytes_length (x : List Byte) : (encodeBytes x).length = 8 * ((x.length + 4) / 5) := by
  induction x using groupInduction with
  | nil => rfl
  | short b h1 h2 => rw [encodeBytes_short b h1 h2, encGroup_length]; omega
  | group b rest h ih => rw [encodeBytes_group b rest h]; simp [ih, h]; omega

theorem encodeBytes_append (x y : List Byte) (h : x.length % 5 = 0) :
    encodeBytes (x ++ y) = encodeBytes x ++ encodeBytes y := by
  induction x using groupInduction with
  | nil => rfl
  | short b h1 h2 => omega
  | group b rest hb ih =>
    rw [List.append_assoc, encodeBytes_group b _ hb, encodeBytes_group b _ hb, ih (by simp at h; omega), List.append_assoc]

/-- `ENC_GROUP` gives symbols and pads only (R96). -/
theorem mem_encGroup {b : List Byte} {c : Byte} (h : c ∈ encGroup b) : isSym c = true ∨ c = Config.pad := by
  simp only [encGroup, List.mem_map] at h
  obtain ⟨j, -, rfl⟩ := h
  split
  · exact .inl (isSym_sym _)
  · exact .inr rfl

/-- `ENCODE` gives symbols and pads only (R99 (f)). -/
theorem mem_encodeBytes {x : List Byte} {c : Byte} (h : c ∈ encodeBytes x) : isSym c = true ∨ c = Config.pad := by
  induction x using groupInduction with
  | nil => simp at h
  | short b h1 h2 => rw [encodeBytes_short b h1 h2] at h; exact mem_encGroup h
  | group b rest hb ih =>
    rw [encodeBytes_group b rest hb, List.mem_append] at h
    exact h.elim mem_encGroup ih

theorem ne_lf_of_mem_encodeBytes {x : List Byte} {c : Byte} (h : c ∈ encodeBytes x) : c ≠ Config.lf := by
  rcases mem_encodeBytes h with h | rfl
  · exact isSym_ne_lf h
  · decide

/-- `NPAD` as a function of the length modulo 5 (R95, R99 (c)). -/
def padsOf (n : Nat) : Nat :=
  match n % 5 with
  | 1 => 6
  | 2 => 4
  | 3 => 3
  | 4 => 1
  | _ => 0

/-- `ENCODE` is symbols followed by the pads of the final group (R99 (c)). -/
theorem encodeBytes_symbols_pads (x : List Byte) :
    ∃ vs : List Sym5, encodeBytes x = vs.map sym ++ List.replicate (padsOf x.length) Config.pad := by
  induction x using groupInduction with
  | nil => exact ⟨[], rfl⟩
  | short b h1 h2 =>
    refine ⟨(List.range (nsym b.length)).map (valueAt (packBytes b)), ?_⟩
    rw [encodeBytes_short b h1 h2, encGroup_eq_symbols_pads b (nsym_le _)]
    generalize b.length = k at *
    interval_cases k <;> rfl
  | group b rest hb ih =>
    obtain ⟨vs, hvs⟩ := ih
    refine ⟨(List.range 8).map (valueAt (packBytes b)) ++ vs, ?_⟩
    rw [encodeBytes_group b rest hb, hvs, encGroup_eq_symbols_pads b (nsym_le _), hb]
    simp [nsym, padsOf, hb]

/-! ### The decoder over groups -/

theorem scanGroups_group (lastFinal : Bool) (base : Nat) (g rest : List Byte) (h : g.length = 8) :
    scanGroups lastFinal base (g ++ rest) =
      match decGroup g (lastFinal && rest.isEmpty) with
      | .err kind i => ([], some (kind, base + i))
      | .ok bytes => (bytes ++ (scanGroups lastFinal (base + 8) rest).1, (scanGroups lastFinal (base + 8) rest).2) := by
  match g, h with
  | [c0, c1, c2, c3, c4, c5, c6, c7], _ =>
    cases hd : decGroup [c0, c1, c2, c3, c4, c5, c6, c7] (lastFinal && rest.isEmpty) <;>
      simp [scanGroups, hd]

theorem scanGroups_short (lastFinal : Bool) (base : Nat) (s : List Byte) (h : s.length < 8) :
    scanGroups lastFinal base s = ([], none) := by
  unfold scanGroups
  split
  · simp at h; omega
  · rfl

/-- Induction over a significant stream in groups of eight (R107). -/
theorem windowInduction {P : List Byte → Prop} (short : ∀ s : List Byte, s.length < 8 → P s)
    (group : ∀ g rest : List Byte, g.length = 8 → P rest → P (g ++ rest)) : ∀ s, P s := by
  intro s
  generalize hn : s.length = n
  induction n using Nat.strong_induction_on generalizing s with
  | _ n ih =>
    by_cases h : s.length < 8
    · exact short s h
    · rw [← List.take_append_drop 8 s]
      exact group _ _ (by simp; omega) (ih (s.drop 8).length (by simp; omega) _ rfl)

/-- Groups closed as non-final, then the rest: the rest is examined only if they pass (R107). -/
theorem scanGroups_append (lastFinal : Bool) (base : Nat) (s t : List Byte) (hs : s.length % 8 = 0)
    (ht : t ≠ [] ∨ lastFinal = false) :
    scanGroups lastFinal base (s ++ t) =
      match scanGroups false base s with
      | (bytes, some e) => (bytes, some e)
      | (bytes, none) =>
        (bytes ++ (scanGroups lastFinal (base + s.length) t).1, (scanGroups lastFinal (base + s.length) t).2) := by
  induction s using windowInduction generalizing base with
  | short s h =>
    obtain rfl : s = [] := by rw [← List.length_eq_zero_iff]; omega
    simp [scanGroups_short]
  | group g rest hg ih =>
    have hlf : (lastFinal && (rest ++ t).isEmpty) = false := by
      rcases ht with ht | ht
      · cases rest <;> cases t <;> simp_all
      · simp [ht]
    rw [List.append_assoc, scanGroups_group lastFinal base g _ hg, scanGroups_group false base g rest hg, hlf, Bool.false_and]
    cases hd : decGroup g false with
    | err kind i => rfl
    | ok bytes =>
      have hr : rest.length % 8 = 0 := by simp at hs; omega
      simp only [ih (base + 8) hr]
      rcases scanGroups false (base + 8) rest with ⟨bytes', _ | e⟩
      · simp [hg, Nat.add_assoc, List.append_assoc]
      · rfl

/-- While no error is found, every non-final group gives five bytes (10_state.md R40 (h)). -/
theorem scanGroups_length (base : Nat) (s : List Byte) :
    (scanGroups false base s).1.length ≤ 5 * (s.length / 8) ∧
    ((scanGroups false base s).2 = none → (scanGroups false base s).1.length = 5 * (s.length / 8)) := by
  induction s using windowInduction generalizing base with
  | short s h => simp [scanGroups_short _ _ _ h]; omega
  | group g rest hg ih =>
    rw [scanGroups_group _ _ _ _ hg]
    cases hd : decGroup g (false && rest.isEmpty) with
    | err kind i => simp
    | ok bytes =>
      obtain ⟨h1, -, h3⟩ := decGroup_ok_length hd
      obtain ⟨i1, i2⟩ := ih (base + 8)
      have h5 := h3 (by simp)
      simp only [List.length_append, hg, h5]
      constructor
      · omega
      · intro hn; have := i2 hn; omega

/-- The position of a stream error lies in the examined groups. -/
theorem scanGroups_err_lt {lastFinal : Bool} {base pos : Nat} {s : List Byte} {kind : CodecError}
    (h : (scanGroups lastFinal base s).2 = some (kind, pos)) : base ≤ pos ∧ pos < base + 8 * (s.length / 8) := by
  induction s using windowInduction generalizing base with
  | short s hs => simp [scanGroups_short _ _ _ hs] at h
  | group g rest hg ih =>
    rw [scanGroups_group _ _ _ _ hg] at h
    cases hd : decGroup g (lastFinal && rest.isEmpty) with
    | err k i =>
      rw [hd] at h
      simp only [Option.some.injEq, Prod.mk.injEq] at h
      have := decGroup_err_lt hg hd
      simp only [List.length_append, hg]; omega
    | ok bytes =>
      rw [hd] at h
      have := ih h
      simp only [List.length_append, hg]; omega

/-- The decoder undoes the encoder group by group (R110). -/
theorem scanGroups_encodeBytes (base : Nat) (x : List Byte) : scanGroups true base (encodeBytes x) = (x, none) := by
  induction x using groupInduction generalizing base with
  | nil => rfl
  | short b h1 h2 =>
    have := scanGroups_group true base (encGroup b) [] (encGroup_length b)
    rw [List.append_nil] at this
    rw [encodeBytes_short b h1 h2, this]
    simp [decGroup_encGroup_partial b h1 h2, scanGroups_short]
  | group b rest hb ih =>
    rw [encodeBytes_group b rest hb, scanGroups_group _ _ _ _ (encGroup_length b)]
    match b, hb with
    | [b0, b1, b2, b3, b4], _ => simp [decGroup_encGroup_whole, ih]

theorem coreDecode_encodeBytes (x : List Byte) : coreDecode (encodeBytes x) = .ok x := by
  have h : (encodeBytes x).length % 8 = 0 := by rw [encodeBytes_length]; omega
  simp [coreDecode, h, scanGroups_encodeBytes]

/-! ### The pre-pass -/

/-- Strict mode on a stream that does not end in `LF`, followed by any number of `LF` (R106). -/
theorem pre_strict_append (s : List Byte) (k : Nat) (h : s.getLast? ≠ some Config.lf) :
    pre (s ++ List.replicate k Config.lf) false = s := by
  have hr : (s.reverse.dropWhile fun c => c == Config.lf) = s.reverse := by
    cases hs : s.reverse with
    | nil => rfl
    | cons c cs =>
      have hl : s.getLast? = some c := by rw [← List.head?_reverse, hs]; rfl
      have : c ≠ Config.lf := fun hc => h (by rw [hl, hc])
      simp [this]
  have hk : ((List.replicate k Config.lf ++ s.reverse).dropWhile fun c => c == Config.lf) = s.reverse := by
    induction k with
    | zero => simpa using hr
    | succ k ih => simpa [List.replicate_succ] using ih
  simp [pre, hk]

/-- Every stream is its strict significant stream and a run of `LF` (R106). -/
theorem pre_strict_split (x : List Byte) :
    ∃ k, x = pre x false ++ List.replicate k Config.lf ∧ (pre x false).getLast? ≠ some Config.lf := by
  induction x using List.reverseRecOn with
  | nil => exact ⟨0, by simp [pre]⟩
  | append_singleton x c ih =>
    by_cases hc : c = Config.lf
    · obtain ⟨k, hx, hl⟩ := ih
      have he : x ++ [c] = pre x false ++ List.replicate (k + 1) Config.lf := by
        conv_lhs => rw [hx, hc]
        rw [List.append_assoc, List.replicate_succ']
      refine ⟨k + 1, ?_, ?_⟩
      · rw [he, pre_strict_append _ _ hl]
      · rw [he, pre_strict_append _ _ hl]; exact hl
    · have hl : (x ++ [c]).getLast? ≠ some Config.lf := by simpa using hc
      have := pre_strict_append (x ++ [c]) 0 hl
      rw [List.replicate_zero, List.append_nil] at this
      exact ⟨0, by rw [this]; simp, by rw [this]; exact hl⟩

theorem pre_lenient (x : List Byte) : pre x true = x.filter fun c => isSym c || isPad c := rfl

/-- Lenient mode keeps a stream of symbols and pads as it is (R106). -/
theorem pre_lenient_id (s : List Byte) (h : ∀ c ∈ s, isSym c = true ∨ c = Config.pad) : pre s true = s := by
  rw [pre_lenient, List.filter_eq_self]
  intro c hc
  rcases h c hc with h | rfl <;> simp [*]

end Sys2Proof.Machine
end

