-- ==== Sys2Proof/Laws/State.lean ====
section
/-! SUPPORT. One lemma per field per named update of the state, true by definition, so that no proof unfolds a record update. -/

namespace Sys2Proof.Machine

section Updates

/-! `OUT.push(b)` changes `OUT` only (20_memory.md R53). -/
@[simp] theorem State.pushOut_phase (b : Byte) (s : State) : (s.pushOut b).phase = s.phase := rfl
@[simp] theorem State.pushOut_done (b : Byte) (s : State) : (s.pushOut b).done = s.done := rfl
@[simp] theorem State.pushOut_errKind (b : Byte) (s : State) : (s.pushOut b).errKind = s.errKind := rfl
@[simp] theorem State.pushOut_errPos (b : Byte) (s : State) : (s.pushOut b).errPos = s.errPos := rfl
@[simp] theorem State.pushOut_fault (b : Byte) (s : State) : (s.pushOut b).fault = s.fault := rfl
@[simp] theorem State.pushOut_ww (b : Byte) (s : State) : (s.pushOut b).ww = s.ww := rfl
@[simp] theorem State.pushOut_ig (b : Byte) (s : State) : (s.pushOut b).ig = s.ig := rfl
@[simp] theorem State.pushOut_ebuf (b : Byte) (s : State) : (s.pushOut b).ebuf = s.ebuf := rfl
@[simp] theorem State.pushOut_ecnt (b : Byte) (s : State) : (s.pushOut b).ecnt = s.ecnt := rfl
@[simp] theorem State.pushOut_col (b : Byte) (s : State) : (s.pushOut b).col = s.col := rfl
@[simp] theorem State.pushOut_any (b : Byte) (s : State) : (s.pushOut b).any = s.any := rfl
@[simp] theorem State.pushOut_win (b : Byte) (s : State) : (s.pushOut b).win = s.win := rfl
@[simp] theorem State.pushOut_gcnt (b : Byte) (s : State) : (s.pushOut b).gcnt = s.gcnt := rfl
@[simp] theorem State.pushOut_n (b : Byte) (s : State) : (s.pushOut b).n = s.n := rfl
@[simp] theorem State.pushOut_nlrun (b : Byte) (s : State) : (s.pushOut b).nlrun = s.nlrun := rfl
@[simp] theorem State.pushOut_elatV (b : Byte) (s : State) : (s.pushOut b).elatV = s.elatV := rfl
@[simp] theorem State.pushOut_elatKind (b : Byte) (s : State) : (s.pushOut b).elatKind = s.elatKind := rfl
@[simp] theorem State.pushOut_elatPos (b : Byte) (s : State) : (s.pushOut b).elatPos = s.elatPos := rfl
@[simp] theorem State.pushOut_obuf (b : Byte) (s : State) : (s.pushOut b).obuf = s.obuf := rfl
@[simp] theorem State.pushOut_out (b : Byte) (s : State) : (s.pushOut b).out = s.out ++ [b] := rfl
@[simp] theorem State.pushOut_input (b : Byte) (s : State) : (s.pushOut b).input = s.input := rfl
@[simp] theorem State.pushOut_obufCap (b : Byte) (s : State) : (s.pushOut b).obufCap = s.obufCap := rfl
@[simp] theorem State.pushOut_puts (b : Byte) (s : State) : (s.pushOut b).puts = s.puts := rfl

/-! Pushing a sequence changes `OUT` only. -/
@[simp] theorem State.pushAll_phase (bs : List Byte) (s : State) : (s.pushAll bs).phase = s.phase := rfl
@[simp] theorem State.pushAll_done (bs : List Byte) (s : State) : (s.pushAll bs).done = s.done := rfl
@[simp] theorem State.pushAll_errKind (bs : List Byte) (s : State) : (s.pushAll bs).errKind = s.errKind := rfl
@[simp] theorem State.pushAll_errPos (bs : List Byte) (s : State) : (s.pushAll bs).errPos = s.errPos := rfl
@[simp] theorem State.pushAll_fault (bs : List Byte) (s : State) : (s.pushAll bs).fault = s.fault := rfl
@[simp] theorem State.pushAll_ww (bs : List Byte) (s : State) : (s.pushAll bs).ww = s.ww := rfl
@[simp] theorem State.pushAll_ig (bs : List Byte) (s : State) : (s.pushAll bs).ig = s.ig := rfl
@[simp] theorem State.pushAll_ebuf (bs : List Byte) (s : State) : (s.pushAll bs).ebuf = s.ebuf := rfl
@[simp] theorem State.pushAll_ecnt (bs : List Byte) (s : State) : (s.pushAll bs).ecnt = s.ecnt := rfl
@[simp] theorem State.pushAll_col (bs : List Byte) (s : State) : (s.pushAll bs).col = s.col := rfl
@[simp] theorem State.pushAll_any (bs : List Byte) (s : State) : (s.pushAll bs).any = s.any := rfl
@[simp] theorem State.pushAll_win (bs : List Byte) (s : State) : (s.pushAll bs).win = s.win := rfl
@[simp] theorem State.pushAll_gcnt (bs : List Byte) (s : State) : (s.pushAll bs).gcnt = s.gcnt := rfl
@[simp] theorem State.pushAll_n (bs : List Byte) (s : State) : (s.pushAll bs).n = s.n := rfl
@[simp] theorem State.pushAll_nlrun (bs : List Byte) (s : State) : (s.pushAll bs).nlrun = s.nlrun := rfl
@[simp] theorem State.pushAll_elatV (bs : List Byte) (s : State) : (s.pushAll bs).elatV = s.elatV := rfl
@[simp] theorem State.pushAll_elatKind (bs : List Byte) (s : State) : (s.pushAll bs).elatKind = s.elatKind := rfl
@[simp] theorem State.pushAll_elatPos (bs : List Byte) (s : State) : (s.pushAll bs).elatPos = s.elatPos := rfl
@[simp] theorem State.pushAll_obuf (bs : List Byte) (s : State) : (s.pushAll bs).obuf = s.obuf := rfl
@[simp] theorem State.pushAll_out (bs : List Byte) (s : State) : (s.pushAll bs).out = s.out ++ bs := rfl
@[simp] theorem State.pushAll_input (bs : List Byte) (s : State) : (s.pushAll bs).input = s.input := rfl
@[simp] theorem State.pushAll_obufCap (bs : List Byte) (s : State) : (s.pushAll bs).obufCap = s.obufCap := rfl
@[simp] theorem State.pushAll_puts (bs : List Byte) (s : State) : (s.pushAll bs).puts = s.puts := rfl

/-! Storing into the encoder's group buffer changes `EBUF` and `ECNT` only (42_encode_path.md R132). -/
@[simp] theorem State.storeEbuf_phase (b : Byte) (s : State) (h : s.ecnt.val < 4) : (s.storeEbuf b h).phase = s.phase := rfl
@[simp] theorem State.storeEbuf_done (b : Byte) (s : State) (h : s.ecnt.val < 4) : (s.storeEbuf b h).done = s.done := rfl
@[simp] theorem State.storeEbuf_errKind (b : Byte) (s : State) (h : s.ecnt.val < 4) : (s.storeEbuf b h).errKind = s.errKind := rfl
@[simp] theorem State.storeEbuf_errPos (b : Byte) (s : State) (h : s.ecnt.val < 4) : (s.storeEbuf b h).errPos = s.errPos := rfl
@[simp] theorem State.storeEbuf_fault (b : Byte) (s : State) (h : s.ecnt.val < 4) : (s.storeEbuf b h).fault = s.fault := rfl
@[simp] theorem State.storeEbuf_ww (b : Byte) (s : State) (h : s.ecnt.val < 4) : (s.storeEbuf b h).ww = s.ww := rfl
@[simp] theorem State.storeEbuf_ig (b : Byte) (s : State) (h : s.ecnt.val < 4) : (s.storeEbuf b h).ig = s.ig := rfl
@[simp] theorem State.storeEbuf_ebuf (b : Byte) (s : State) (h : s.ecnt.val < 4) : (s.storeEbuf b h).ebuf = s.ebuf.set s.ecnt.val b h := rfl
@[simp] theorem State.storeEbuf_ecnt (b : Byte) (s : State) (h : s.ecnt.val < 4) : (s.storeEbuf b h).ecnt = ⟨s.ecnt.val + 1, by omega⟩ := rfl
@[simp] theorem State.storeEbuf_col (b : Byte) (s : State) (h : s.ecnt.val < 4) : (s.storeEbuf b h).col = s.col := rfl
@[simp] theorem State.storeEbuf_any (b : Byte) (s : State) (h : s.ecnt.val < 4) : (s.storeEbuf b h).any = s.any := rfl
@[simp] theorem State.storeEbuf_win (b : Byte) (s : State) (h : s.ecnt.val < 4) : (s.storeEbuf b h).win = s.win := rfl
@[simp] theorem State.storeEbuf_gcnt (b : Byte) (s : State) (h : s.ecnt.val < 4) : (s.storeEbuf b h).gcnt = s.gcnt := rfl
@[simp] theorem State.storeEbuf_n (b : Byte) (s : State) (h : s.ecnt.val < 4) : (s.storeEbuf b h).n = s.n := rfl
@[simp] theorem State.storeEbuf_nlrun (b : Byte) (s : State) (h : s.ecnt.val < 4) : (s.storeEbuf b h).nlrun = s.nlrun := rfl
@[simp] theorem State.storeEbuf_elatV (b : Byte) (s : State) (h : s.ecnt.val < 4) : (s.storeEbuf b h).elatV = s.elatV := rfl
@[simp] theorem State.storeEbuf_elatKind (b : Byte) (s : State) (h : s.ecnt.val < 4) : (s.storeEbuf b h).elatKind = s.elatKind := rfl
@[simp] theorem State.storeEbuf_elatPos (b : Byte) (s : State) (h : s.ecnt.val < 4) : (s.storeEbuf b h).elatPos = s.elatPos := rfl
@[simp] theorem State.storeEbuf_obuf (b : Byte) (s : State) (h : s.ecnt.val < 4) : (s.storeEbuf b h).obuf = s.obuf := rfl
@[simp] theorem State.storeEbuf_out (b : Byte) (s : State) (h : s.ecnt.val < 4) : (s.storeEbuf b h).out = s.out := rfl
@[simp] theorem State.storeEbuf_input (b : Byte) (s : State) (h : s.ecnt.val < 4) : (s.storeEbuf b h).input = s.input := rfl
@[simp] theorem State.storeEbuf_obufCap (b : Byte) (s : State) (h : s.ecnt.val < 4) : (s.storeEbuf b h).obufCap = s.obufCap := rfl
@[simp] theorem State.storeEbuf_puts (b : Byte) (s : State) (h : s.ecnt.val < 4) : (s.storeEbuf b h).puts = s.puts := rfl

/-! Storing into the window changes `WIN` and `GCNT` only (43_decode_path.md R146). -/
@[simp] theorem State.storeWin_phase (c : Byte) (s : State) (h : s.gcnt.val < 8) : (s.storeWin c h).phase = s.phase := rfl
@[simp] theorem State.storeWin_done (c : Byte) (s : State) (h : s.gcnt.val < 8) : (s.storeWin c h).done = s.done := rfl
@[simp] theorem State.storeWin_errKind (c : Byte) (s : State) (h : s.gcnt.val < 8) : (s.storeWin c h).errKind = s.errKind := rfl
@[simp] theorem State.storeWin_errPos (c : Byte) (s : State) (h : s.gcnt.val < 8) : (s.storeWin c h).errPos = s.errPos := rfl
@[simp] theorem State.storeWin_fault (c : Byte) (s : State) (h : s.gcnt.val < 8) : (s.storeWin c h).fault = s.fault := rfl
@[simp] theorem State.storeWin_ww (c : Byte) (s : State) (h : s.gcnt.val < 8) : (s.storeWin c h).ww = s.ww := rfl
@[simp] theorem State.storeWin_ig (c : Byte) (s : State) (h : s.gcnt.val < 8) : (s.storeWin c h).ig = s.ig := rfl
@[simp] theorem State.storeWin_ebuf (c : Byte) (s : State) (h : s.gcnt.val < 8) : (s.storeWin c h).ebuf = s.ebuf := rfl
@[simp] theorem State.storeWin_ecnt (c : Byte) (s : State) (h : s.gcnt.val < 8) : (s.storeWin c h).ecnt = s.ecnt := rfl
@[simp] theorem State.storeWin_col (c : Byte) (s : State) (h : s.gcnt.val < 8) : (s.storeWin c h).col = s.col := rfl
@[simp] theorem State.storeWin_any (c : Byte) (s : State) (h : s.gcnt.val < 8) : (s.storeWin c h).any = s.any := rfl
@[simp] theorem State.storeWin_win (c : Byte) (s : State) (h : s.gcnt.val < 8) : (s.storeWin c h).win = s.win.set s.gcnt.val c h := rfl
@[simp] theorem State.storeWin_gcnt (c : Byte) (s : State) (h : s.gcnt.val < 8) : (s.storeWin c h).gcnt = ⟨s.gcnt.val + 1, by omega⟩ := rfl
@[simp] theorem State.storeWin_n (c : Byte) (s : State) (h : s.gcnt.val < 8) : (s.storeWin c h).n = s.n := rfl
@[simp] theorem State.storeWin_nlrun (c : Byte) (s : State) (h : s.gcnt.val < 8) : (s.storeWin c h).nlrun = s.nlrun := rfl
@[simp] theorem State.storeWin_elatV (c : Byte) (s : State) (h : s.gcnt.val < 8) : (s.storeWin c h).elatV = s.elatV := rfl
@[simp] theorem State.storeWin_elatKind (c : Byte) (s : State) (h : s.gcnt.val < 8) : (s.storeWin c h).elatKind = s.elatKind := rfl
@[simp] theorem State.storeWin_elatPos (c : Byte) (s : State) (h : s.gcnt.val < 8) : (s.storeWin c h).elatPos = s.elatPos := rfl
@[simp] theorem State.storeWin_obuf (c : Byte) (s : State) (h : s.gcnt.val < 8) : (s.storeWin c h).obuf = s.obuf := rfl
@[simp] theorem State.storeWin_out (c : Byte) (s : State) (h : s.gcnt.val < 8) : (s.storeWin c h).out = s.out := rfl
@[simp] theorem State.storeWin_input (c : Byte) (s : State) (h : s.gcnt.val < 8) : (s.storeWin c h).input = s.input := rfl
@[simp] theorem State.storeWin_obufCap (c : Byte) (s : State) (h : s.gcnt.val < 8) : (s.storeWin c h).obufCap = s.obufCap := rfl
@[simp] theorem State.storeWin_puts (c : Byte) (s : State) (h : s.gcnt.val < 8) : (s.storeWin c h).puts = s.puts := rfl

/-! A command fault changes `FAULT` only (60_exceptions.md R169). -/
@[simp] theorem raiseFault_phase (bit : BitVec 2) (s : State) : (raiseFault bit s).phase = s.phase := rfl
@[simp] theorem raiseFault_done (bit : BitVec 2) (s : State) : (raiseFault bit s).done = s.done := rfl
@[simp] theorem raiseFault_errKind (bit : BitVec 2) (s : State) : (raiseFault bit s).errKind = s.errKind := rfl
@[simp] theorem raiseFault_errPos (bit : BitVec 2) (s : State) : (raiseFault bit s).errPos = s.errPos := rfl
@[simp] theorem raiseFault_fault (bit : BitVec 2) (s : State) : (raiseFault bit s).fault = s.fault ||| bit := rfl
@[simp] theorem raiseFault_ww (bit : BitVec 2) (s : State) : (raiseFault bit s).ww = s.ww := rfl
@[simp] theorem raiseFault_ig (bit : BitVec 2) (s : State) : (raiseFault bit s).ig = s.ig := rfl
@[simp] theorem raiseFault_ebuf (bit : BitVec 2) (s : State) : (raiseFault bit s).ebuf = s.ebuf := rfl
@[simp] theorem raiseFault_ecnt (bit : BitVec 2) (s : State) : (raiseFault bit s).ecnt = s.ecnt := rfl
@[simp] theorem raiseFault_col (bit : BitVec 2) (s : State) : (raiseFault bit s).col = s.col := rfl
@[simp] theorem raiseFault_any (bit : BitVec 2) (s : State) : (raiseFault bit s).any = s.any := rfl
@[simp] theorem raiseFault_win (bit : BitVec 2) (s : State) : (raiseFault bit s).win = s.win := rfl
@[simp] theorem raiseFault_gcnt (bit : BitVec 2) (s : State) : (raiseFault bit s).gcnt = s.gcnt := rfl
@[simp] theorem raiseFault_n (bit : BitVec 2) (s : State) : (raiseFault bit s).n = s.n := rfl
@[simp] theorem raiseFault_nlrun (bit : BitVec 2) (s : State) : (raiseFault bit s).nlrun = s.nlrun := rfl
@[simp] theorem raiseFault_elatV (bit : BitVec 2) (s : State) : (raiseFault bit s).elatV = s.elatV := rfl
@[simp] theorem raiseFault_elatKind (bit : BitVec 2) (s : State) : (raiseFault bit s).elatKind = s.elatKind := rfl
@[simp] theorem raiseFault_elatPos (bit : BitVec 2) (s : State) : (raiseFault bit s).elatPos = s.elatPos := rfl
@[simp] theorem raiseFault_obuf (bit : BitVec 2) (s : State) : (raiseFault bit s).obuf = s.obuf := rfl
@[simp] theorem raiseFault_out (bit : BitVec 2) (s : State) : (raiseFault bit s).out = s.out := rfl
@[simp] theorem raiseFault_input (bit : BitVec 2) (s : State) : (raiseFault bit s).input = s.input := rfl
@[simp] theorem raiseFault_obufCap (bit : BitVec 2) (s : State) : (raiseFault bit s).obufCap = s.obufCap := rfl
@[simp] theorem raiseFault_puts (bit : BitVec 2) (s : State) : (raiseFault bit s).puts = s.puts := rfl

/-! A codec error writes the result and discards `OBUF` (60_exceptions.md R172). -/
@[simp] theorem raiseCodecError_phase (kind : ErrKind) (pos : Pos) (s : State) : (raiseCodecError kind pos s).phase = s.phase := rfl
@[simp] theorem raiseCodecError_done (kind : ErrKind) (pos : Pos) (s : State) : (raiseCodecError kind pos s).done = s.done := rfl
@[simp] theorem raiseCodecError_errKind (kind : ErrKind) (pos : Pos) (s : State) : (raiseCodecError kind pos s).errKind = kind := rfl
@[simp] theorem raiseCodecError_errPos (kind : ErrKind) (pos : Pos) (s : State) : (raiseCodecError kind pos s).errPos = pos := rfl
@[simp] theorem raiseCodecError_fault (kind : ErrKind) (pos : Pos) (s : State) : (raiseCodecError kind pos s).fault = s.fault := rfl
@[simp] theorem raiseCodecError_ww (kind : ErrKind) (pos : Pos) (s : State) : (raiseCodecError kind pos s).ww = s.ww := rfl
@[simp] theorem raiseCodecError_ig (kind : ErrKind) (pos : Pos) (s : State) : (raiseCodecError kind pos s).ig = s.ig := rfl
@[simp] theorem raiseCodecError_ebuf (kind : ErrKind) (pos : Pos) (s : State) : (raiseCodecError kind pos s).ebuf = s.ebuf := rfl
@[simp] theorem raiseCodecError_ecnt (kind : ErrKind) (pos : Pos) (s : State) : (raiseCodecError kind pos s).ecnt = s.ecnt := rfl
@[simp] theorem raiseCodecError_col (kind : ErrKind) (pos : Pos) (s : State) : (raiseCodecError kind pos s).col = s.col := rfl
@[simp] theorem raiseCodecError_any (kind : ErrKind) (pos : Pos) (s : State) : (raiseCodecError kind pos s).any = s.any := rfl
@[simp] theorem raiseCodecError_win (kind : ErrKind) (pos : Pos) (s : State) : (raiseCodecError kind pos s).win = s.win := rfl
@[simp] theorem raiseCodecError_gcnt (kind : ErrKind) (pos : Pos) (s : State) : (raiseCodecError kind pos s).gcnt = s.gcnt := rfl
@[simp] theorem raiseCodecError_n (kind : ErrKind) (pos : Pos) (s : State) : (raiseCodecError kind pos s).n = s.n := rfl
@[simp] theorem raiseCodecError_nlrun (kind : ErrKind) (pos : Pos) (s : State) : (raiseCodecError kind pos s).nlrun = s.nlrun := rfl
@[simp] theorem raiseCodecError_elatV (kind : ErrKind) (pos : Pos) (s : State) : (raiseCodecError kind pos s).elatV = s.elatV := rfl
@[simp] theorem raiseCodecError_elatKind (kind : ErrKind) (pos : Pos) (s : State) : (raiseCodecError kind pos s).elatKind = s.elatKind := rfl
@[simp] theorem raiseCodecError_elatPos (kind : ErrKind) (pos : Pos) (s : State) : (raiseCodecError kind pos s).elatPos = s.elatPos := rfl
@[simp] theorem raiseCodecError_obuf (kind : ErrKind) (pos : Pos) (s : State) : (raiseCodecError kind pos s).obuf = [] := rfl
@[simp] theorem raiseCodecError_out (kind : ErrKind) (pos : Pos) (s : State) : (raiseCodecError kind pos s).out = s.out := rfl
@[simp] theorem raiseCodecError_input (kind : ErrKind) (pos : Pos) (s : State) : (raiseCodecError kind pos s).input = s.input := rfl
@[simp] theorem raiseCodecError_obufCap (kind : ErrKind) (pos : Pos) (s : State) : (raiseCodecError kind pos s).obufCap = s.obufCap := rfl
@[simp] theorem raiseCodecError_puts (kind : ErrKind) (pos : Pos) (s : State) : (raiseCodecError kind pos s).puts = s.puts := rfl

/-! Latching an error writes the latch only (10_state.md R36). -/
@[simp] theorem State.latchError_phase (kind : ErrKind) (pos : Pos) (s : State) : (s.latchError kind pos).phase = s.phase := rfl
@[simp] theorem State.latchError_done (kind : ErrKind) (pos : Pos) (s : State) : (s.latchError kind pos).done = s.done := rfl
@[simp] theorem State.latchError_errKind (kind : ErrKind) (pos : Pos) (s : State) : (s.latchError kind pos).errKind = s.errKind := rfl
@[simp] theorem State.latchError_errPos (kind : ErrKind) (pos : Pos) (s : State) : (s.latchError kind pos).errPos = s.errPos := rfl
@[simp] theorem State.latchError_fault (kind : ErrKind) (pos : Pos) (s : State) : (s.latchError kind pos).fault = s.fault := rfl
@[simp] theorem State.latchError_ww (kind : ErrKind) (pos : Pos) (s : State) : (s.latchError kind pos).ww = s.ww := rfl
@[simp] theorem State.latchError_ig (kind : ErrKind) (pos : Pos) (s : State) : (s.latchError kind pos).ig = s.ig := rfl
@[simp] theorem State.latchError_ebuf (kind : ErrKind) (pos : Pos) (s : State) : (s.latchError kind pos).ebuf = s.ebuf := rfl
@[simp] theorem State.latchError_ecnt (kind : ErrKind) (pos : Pos) (s : State) : (s.latchError kind pos).ecnt = s.ecnt := rfl
@[simp] theorem State.latchError_col (kind : ErrKind) (pos : Pos) (s : State) : (s.latchError kind pos).col = s.col := rfl
@[simp] theorem State.latchError_any (kind : ErrKind) (pos : Pos) (s : State) : (s.latchError kind pos).any = s.any := rfl
@[simp] theorem State.latchError_win (kind : ErrKind) (pos : Pos) (s : State) : (s.latchError kind pos).win = s.win := rfl
@[simp] theorem State.latchError_gcnt (kind : ErrKind) (pos : Pos) (s : State) : (s.latchError kind pos).gcnt = s.gcnt := rfl
@[simp] theorem State.latchError_n (kind : ErrKind) (pos : Pos) (s : State) : (s.latchError kind pos).n = s.n := rfl
@[simp] theorem State.latchError_nlrun (kind : ErrKind) (pos : Pos) (s : State) : (s.latchError kind pos).nlrun = s.nlrun := rfl
@[simp] theorem State.latchError_elatV (kind : ErrKind) (pos : Pos) (s : State) : (s.latchError kind pos).elatV = true := rfl
@[simp] theorem State.latchError_elatKind (kind : ErrKind) (pos : Pos) (s : State) : (s.latchError kind pos).elatKind = kind := rfl
@[simp] theorem State.latchError_elatPos (kind : ErrKind) (pos : Pos) (s : State) : (s.latchError kind pos).elatPos = pos := rfl
@[simp] theorem State.latchError_obuf (kind : ErrKind) (pos : Pos) (s : State) : (s.latchError kind pos).obuf = s.obuf := rfl
@[simp] theorem State.latchError_out (kind : ErrKind) (pos : Pos) (s : State) : (s.latchError kind pos).out = s.out := rfl
@[simp] theorem State.latchError_input (kind : ErrKind) (pos : Pos) (s : State) : (s.latchError kind pos).input = s.input := rfl
@[simp] theorem State.latchError_obufCap (kind : ErrKind) (pos : Pos) (s : State) : (s.latchError kind pos).obufCap = s.obufCap := rfl
@[simp] theorem State.latchError_puts (kind : ErrKind) (pos : Pos) (s : State) : (s.latchError kind pos).puts = s.puts := rfl

/-! The result of an invocation without error (10_state.md R32, R33). -/
@[simp] theorem State.noErrorResult_phase (s : State) : (s.noErrorResult).phase = s.phase := rfl
@[simp] theorem State.noErrorResult_done (s : State) : (s.noErrorResult).done = s.done := rfl
@[simp] theorem State.noErrorResult_errKind (s : State) : (s.noErrorResult).errKind = .noError := rfl
@[simp] theorem State.noErrorResult_errPos (s : State) : (s.noErrorResult).errPos = 0 := rfl
@[simp] theorem State.noErrorResult_fault (s : State) : (s.noErrorResult).fault = s.fault := rfl
@[simp] theorem State.noErrorResult_ww (s : State) : (s.noErrorResult).ww = s.ww := rfl
@[simp] theorem State.noErrorResult_ig (s : State) : (s.noErrorResult).ig = s.ig := rfl
@[simp] theorem State.noErrorResult_ebuf (s : State) : (s.noErrorResult).ebuf = s.ebuf := rfl
@[simp] theorem State.noErrorResult_ecnt (s : State) : (s.noErrorResult).ecnt = s.ecnt := rfl
@[simp] theorem State.noErrorResult_col (s : State) : (s.noErrorResult).col = s.col := rfl
@[simp] theorem State.noErrorResult_any (s : State) : (s.noErrorResult).any = s.any := rfl
@[simp] theorem State.noErrorResult_win (s : State) : (s.noErrorResult).win = s.win := rfl
@[simp] theorem State.noErrorResult_gcnt (s : State) : (s.noErrorResult).gcnt = s.gcnt := rfl
@[simp] theorem State.noErrorResult_n (s : State) : (s.noErrorResult).n = s.n := rfl
@[simp] theorem State.noErrorResult_nlrun (s : State) : (s.noErrorResult).nlrun = s.nlrun := rfl
@[simp] theorem State.noErrorResult_elatV (s : State) : (s.noErrorResult).elatV = s.elatV := rfl
@[simp] theorem State.noErrorResult_elatKind (s : State) : (s.noErrorResult).elatKind = s.elatKind := rfl
@[simp] theorem State.noErrorResult_elatPos (s : State) : (s.noErrorResult).elatPos = s.elatPos := rfl
@[simp] theorem State.noErrorResult_obuf (s : State) : (s.noErrorResult).obuf = s.obuf := rfl
@[simp] theorem State.noErrorResult_out (s : State) : (s.noErrorResult).out = s.out := rfl
@[simp] theorem State.noErrorResult_input (s : State) : (s.noErrorResult).input = s.input := rfl
@[simp] theorem State.noErrorResult_obufCap (s : State) : (s.noErrorResult).obufCap = s.obufCap := rfl
@[simp] theorem State.noErrorResult_puts (s : State) : (s.noErrorResult).puts = s.puts := rfl

/-! What both start commands write alike (42_encode_path.md R130). -/
@[simp] theorem State.startInvocation_phase (s : State) : (s.startInvocation).phase = s.phase := rfl
@[simp] theorem State.startInvocation_done (s : State) : (s.startInvocation).done = false := rfl
@[simp] theorem State.startInvocation_errKind (s : State) : (s.startInvocation).errKind = .noError := rfl
@[simp] theorem State.startInvocation_errPos (s : State) : (s.startInvocation).errPos = 0 := rfl
@[simp] theorem State.startInvocation_fault (s : State) : (s.startInvocation).fault = s.fault := rfl
@[simp] theorem State.startInvocation_ww (s : State) : (s.startInvocation).ww = s.ww := rfl
@[simp] theorem State.startInvocation_ig (s : State) : (s.startInvocation).ig = s.ig := rfl
@[simp] theorem State.startInvocation_ebuf (s : State) : (s.startInvocation).ebuf = s.ebuf := rfl
@[simp] theorem State.startInvocation_ecnt (s : State) : (s.startInvocation).ecnt = 0 := rfl
@[simp] theorem State.startInvocation_col (s : State) : (s.startInvocation).col = 0 := rfl
@[simp] theorem State.startInvocation_any (s : State) : (s.startInvocation).any = false := rfl
@[simp] theorem State.startInvocation_win (s : State) : (s.startInvocation).win = s.win := rfl
@[simp] theorem State.startInvocation_gcnt (s : State) : (s.startInvocation).gcnt = 0 := rfl
@[simp] theorem State.startInvocation_n (s : State) : (s.startInvocation).n = 0 := rfl
@[simp] theorem State.startInvocation_nlrun (s : State) : (s.startInvocation).nlrun = 0 := rfl
@[simp] theorem State.startInvocation_elatV (s : State) : (s.startInvocation).elatV = false := rfl
@[simp] theorem State.startInvocation_elatKind (s : State) : (s.startInvocation).elatKind = .noError := rfl
@[simp] theorem State.startInvocation_elatPos (s : State) : (s.startInvocation).elatPos = 0 := rfl
@[simp] theorem State.startInvocation_obuf (s : State) : (s.startInvocation).obuf = [] := rfl
@[simp] theorem State.startInvocation_out (s : State) : (s.startInvocation).out = s.out := rfl
@[simp] theorem State.startInvocation_input (s : State) : (s.startInvocation).input = s.input := rfl
@[simp] theorem State.startInvocation_obufCap (s : State) : (s.startInvocation).obufCap = s.obufCap := rfl
@[simp] theorem State.startInvocation_puts (s : State) : (s.startInvocation).puts = 0 := rfl

/-! The last lines of `END` (41_commands_dispatch.md R122). -/
@[simp] theorem State.finishInvocation_phase (s : State) : (s.finishInvocation).phase = .idle := rfl
@[simp] theorem State.finishInvocation_done (s : State) : (s.finishInvocation).done = true := rfl
@[simp] theorem State.finishInvocation_errKind (s : State) : (s.finishInvocation).errKind = s.errKind := rfl
@[simp] theorem State.finishInvocation_errPos (s : State) : (s.finishInvocation).errPos = s.errPos := rfl
@[simp] theorem State.finishInvocation_fault (s : State) : (s.finishInvocation).fault = s.fault := rfl
@[simp] theorem State.finishInvocation_ww (s : State) : (s.finishInvocation).ww = s.ww := rfl
@[simp] theorem State.finishInvocation_ig (s : State) : (s.finishInvocation).ig = s.ig := rfl
@[simp] theorem State.finishInvocation_ebuf (s : State) : (s.finishInvocation).ebuf = s.ebuf := rfl
@[simp] theorem State.finishInvocation_ecnt (s : State) : (s.finishInvocation).ecnt = s.ecnt := rfl
@[simp] theorem State.finishInvocation_col (s : State) : (s.finishInvocation).col = s.col := rfl
@[simp] theorem State.finishInvocation_any (s : State) : (s.finishInvocation).any = s.any := rfl
@[simp] theorem State.finishInvocation_win (s : State) : (s.finishInvocation).win = s.win := rfl
@[simp] theorem State.finishInvocation_gcnt (s : State) : (s.finishInvocation).gcnt = s.gcnt := rfl
@[simp] theorem State.finishInvocation_n (s : State) : (s.finishInvocation).n = s.n := rfl
@[simp] theorem State.finishInvocation_nlrun (s : State) : (s.finishInvocation).nlrun = s.nlrun := rfl
@[simp] theorem State.finishInvocation_elatV (s : State) : (s.finishInvocation).elatV = s.elatV := rfl
@[simp] theorem State.finishInvocation_elatKind (s : State) : (s.finishInvocation).elatKind = s.elatKind := rfl
@[simp] theorem State.finishInvocation_elatPos (s : State) : (s.finishInvocation).elatPos = s.elatPos := rfl
@[simp] theorem State.finishInvocation_obuf (s : State) : (s.finishInvocation).obuf = s.obuf := rfl
@[simp] theorem State.finishInvocation_out (s : State) : (s.finishInvocation).out = s.out := rfl
@[simp] theorem State.finishInvocation_input (s : State) : (s.finishInvocation).input = s.input := rfl
@[simp] theorem State.finishInvocation_obufCap (s : State) : (s.finishInvocation).obufCap = s.obufCap := rfl
@[simp] theorem State.finishInvocation_puts (s : State) : (s.finishInvocation).puts = s.puts := rfl

/-! Counting a `PUT` changes the model's own count only (log entry 5). -/
@[simp] theorem State.countPut_phase (s : State) : (s.countPut).phase = s.phase := rfl
@[simp] theorem State.countPut_done (s : State) : (s.countPut).done = s.done := rfl
@[simp] theorem State.countPut_errKind (s : State) : (s.countPut).errKind = s.errKind := rfl
@[simp] theorem State.countPut_errPos (s : State) : (s.countPut).errPos = s.errPos := rfl
@[simp] theorem State.countPut_fault (s : State) : (s.countPut).fault = s.fault := rfl
@[simp] theorem State.countPut_ww (s : State) : (s.countPut).ww = s.ww := rfl
@[simp] theorem State.countPut_ig (s : State) : (s.countPut).ig = s.ig := rfl
@[simp] theorem State.countPut_ebuf (s : State) : (s.countPut).ebuf = s.ebuf := rfl
@[simp] theorem State.countPut_ecnt (s : State) : (s.countPut).ecnt = s.ecnt := rfl
@[simp] theorem State.countPut_col (s : State) : (s.countPut).col = s.col := rfl
@[simp] theorem State.countPut_any (s : State) : (s.countPut).any = s.any := rfl
@[simp] theorem State.countPut_win (s : State) : (s.countPut).win = s.win := rfl
@[simp] theorem State.countPut_gcnt (s : State) : (s.countPut).gcnt = s.gcnt := rfl
@[simp] theorem State.countPut_n (s : State) : (s.countPut).n = s.n := rfl
@[simp] theorem State.countPut_nlrun (s : State) : (s.countPut).nlrun = s.nlrun := rfl
@[simp] theorem State.countPut_elatV (s : State) : (s.countPut).elatV = s.elatV := rfl
@[simp] theorem State.countPut_elatKind (s : State) : (s.countPut).elatKind = s.elatKind := rfl
@[simp] theorem State.countPut_elatPos (s : State) : (s.countPut).elatPos = s.elatPos := rfl
@[simp] theorem State.countPut_obuf (s : State) : (s.countPut).obuf = s.obuf := rfl
@[simp] theorem State.countPut_out (s : State) : (s.countPut).out = s.out := rfl
@[simp] theorem State.countPut_input (s : State) : (s.countPut).input = s.input := rfl
@[simp] theorem State.countPut_obufCap (s : State) : (s.countPut).obufCap = s.obufCap := rfl
@[simp] theorem State.countPut_puts (s : State) : (s.countPut).puts = s.puts + 1 := rfl

/-! The last line of `DEC_END` (43_decode_path.md R150). -/
@[simp] theorem State.clearDecoder_phase (s : State) : (s.clearDecoder).phase = s.phase := rfl
@[simp] theorem State.clearDecoder_done (s : State) : (s.clearDecoder).done = s.done := rfl
@[simp] theorem State.clearDecoder_errKind (s : State) : (s.clearDecoder).errKind = s.errKind := rfl
@[simp] theorem State.clearDecoder_errPos (s : State) : (s.clearDecoder).errPos = s.errPos := rfl
@[simp] theorem State.clearDecoder_fault (s : State) : (s.clearDecoder).fault = s.fault := rfl
@[simp] theorem State.clearDecoder_ww (s : State) : (s.clearDecoder).ww = s.ww := rfl
@[simp] theorem State.clearDecoder_ig (s : State) : (s.clearDecoder).ig = s.ig := rfl
@[simp] theorem State.clearDecoder_ebuf (s : State) : (s.clearDecoder).ebuf = s.ebuf := rfl
@[simp] theorem State.clearDecoder_ecnt (s : State) : (s.clearDecoder).ecnt = s.ecnt := rfl
@[simp] theorem State.clearDecoder_col (s : State) : (s.clearDecoder).col = s.col := rfl
@[simp] theorem State.clearDecoder_any (s : State) : (s.clearDecoder).any = s.any := rfl
@[simp] theorem State.clearDecoder_win (s : State) : (s.clearDecoder).win = s.win := rfl
@[simp] theorem State.clearDecoder_gcnt (s : State) : (s.clearDecoder).gcnt = 0 := rfl
@[simp] theorem State.clearDecoder_n (s : State) : (s.clearDecoder).n = s.n := rfl
@[simp] theorem State.clearDecoder_nlrun (s : State) : (s.clearDecoder).nlrun = s.nlrun := rfl
@[simp] theorem State.clearDecoder_elatV (s : State) : (s.clearDecoder).elatV = false := rfl
@[simp] theorem State.clearDecoder_elatKind (s : State) : (s.clearDecoder).elatKind = s.elatKind := rfl
@[simp] theorem State.clearDecoder_elatPos (s : State) : (s.clearDecoder).elatPos = s.elatPos := rfl
@[simp] theorem State.clearDecoder_obuf (s : State) : (s.clearDecoder).obuf = [] := rfl
@[simp] theorem State.clearDecoder_out (s : State) : (s.clearDecoder).out = s.out := rfl
@[simp] theorem State.clearDecoder_input (s : State) : (s.clearDecoder).input = s.input := rfl
@[simp] theorem State.clearDecoder_obufCap (s : State) : (s.clearDecoder).obufCap = s.obufCap := rfl
@[simp] theorem State.clearDecoder_puts (s : State) : (s.clearDecoder).puts = s.puts := rfl

end Updates

/-! Accepting the reset input keeps the command stream and the parameter `OBUF_CAP` and takes every register from the reset state (70_reset_and_hazards.md R190). -/

@[simp] theorem resetBlock_input (s : State) : (resetBlock s).input = s.input := rfl
@[simp] theorem resetBlock_obufCap (s : State) : (resetBlock s).obufCap = s.obufCap := rfl
theorem resetBlock_eq (s : State) : resetBlock s = { State.reset with input := s.input, obufCap := s.obufCap } := rfl

end Sys2Proof.Machine
end

