-- ==== Sys2Proof/Laws/DecodePath.lean ====
section
/-! SUPPORT. What the decode path can do (43_decode_path.md): the window as a list, `CLOSE` and `PUSH` as changes of a few registers, and how they track the groups of the significant stream. -/

namespace Sys2Proof.Machine

/-! ### The window as a list (10_state.md R22) -/

theorem winBytes_length (s : State) : s.winBytes.length = s.gcnt.val := by
  have := s.gcnt.isLt
  simp [State.winBytes]; omega

theorem winBytes_storeWin (c : Byte) (s : State) (h : s.gcnt.val < 8) :
    (s.storeWin c h).winBytes = s.winBytes ++ [c] := by
  simp only [State.winBytes, State.storeWin_win, State.storeWin_gcnt, Vector.toList_set]
  rw [List.take_add_one, List.take_set_of_le (le_refl _)]
  simp [h]

theorem winBytes_full (s : State) (h : s.gcnt = 8) : s.win.toList = s.winBytes := by
  rw [State.winBytes, List.take_of_length_le]
  simp [h]

/-! ### `CLOSE` and `PUSH` as register changes -/

/-- `CLOSE` changes `GCNT`, `OBUF` and the latch only (R147). -/
theorem closeWindow_frame (final : Bool) (s : State) :
    closeWindow final s = { s with
      gcnt := 0, obuf := (closeWindow final s).obuf, elatV := (closeWindow final s).elatV
      elatKind := (closeWindow final s).elatKind, elatPos := (closeWindow final s).elatPos } := by
  unfold closeWindow
  cases s.elatV
  · simp only [Bool.false_eq_true, if_false]
    cases decGroup s.win.toList final <;> rfl
  · rfl

theorem closeWindow_gcnt (final : Bool) (s : State) : (closeWindow final s).gcnt = 0 := rfl

theorem closeIfFull_frame (final : Bool) (s : State) :
    closeIfFull final s = { s with
      gcnt := (closeIfFull final s).gcnt, obuf := (closeIfFull final s).obuf, elatV := (closeIfFull final s).elatV
      elatKind := (closeIfFull final s).elatKind, elatPos := (closeIfFull final s).elatPos } := by
  unfold closeIfFull
  split
  · exact closeWindow_frame final s
  · rfl

theorem closeIfFull_gcnt_lt (final : Bool) (s : State) : (closeIfFull final s).gcnt.val < 8 := by
  unfold closeIfFull
  split
  next => simp [closeWindow_gcnt]
  next h =>
    have := s.gcnt.isLt
    have : s.gcnt.val ≠ 8 := fun hh => h (Fin.ext hh)
    omega

/-- `CLOSE` appends at most five bytes to `OBUF`; a latched error keeps the latch and `OBUF` (R147). -/
theorem closeWindow_obuf (final : Bool) (s : State) :
    ∃ d, (closeWindow final s).obuf = s.obuf ++ d ∧ d.length ≤ 5 ∧
      (s.elatV = true → d = [] ∧ (closeWindow final s).elatV = true ∧
        (closeWindow final s).elatKind = s.elatKind ∧ (closeWindow final s).elatPos = s.elatPos) := by
  unfold closeWindow
  cases h : s.elatV
  · simp only [Bool.false_eq_true, if_false]
    cases hd : decGroup s.win.toList final with
    | ok bytes => exact ⟨bytes, rfl, (decGroup_ok_length hd).1, by simp⟩
    | err kind i => exact ⟨[], by simp, by simp, by simp⟩
  · exact ⟨[], by simp, by simp, by simp [h]⟩

theorem closeIfFull_obuf (final : Bool) (s : State) :
    ∃ d, (closeIfFull final s).obuf = s.obuf ++ d ∧ d.length ≤ 5 * (s.gcnt.val / 8) ∧
      (s.elatV = true → d = [] ∧ (closeIfFull final s).elatV = true ∧
        (closeIfFull final s).elatKind = s.elatKind ∧ (closeIfFull final s).elatPos = s.elatPos) := by
  unfold closeIfFull
  split
  next h =>
    obtain ⟨d, h1, h2, h3⟩ := closeWindow_obuf final s
    exact ⟨d, h1, by simpa [h] using h2, h3⟩
  next => exact ⟨[], by simp, by simp, by simp⟩

/-- `PUSH(c)` changes the window, `N`, `OBUF` and the latch only (R146). -/
theorem pushChar_eq (c : Byte) (s : State) :
    pushChar c s = { (closeIfFull false s).storeWin c (closeIfFull_gcnt_lt false s) with n := s.n + 1 } := by
  have hn : (closeIfFull false s).n = s.n := by rw [closeIfFull_frame]
  rw [pushChar, appendChar, dif_pos (closeIfFull_gcnt_lt false s), hn]

theorem pushChar_frame (c : Byte) (s : State) :
    pushChar c s = { s with
      win := (pushChar c s).win, gcnt := (pushChar c s).gcnt, n := s.n + 1
      obuf := (pushChar c s).obuf, elatV := (pushChar c s).elatV
      elatKind := (pushChar c s).elatKind, elatPos := (pushChar c s).elatPos } := by
  rw [pushChar_eq]
  simp only [State.storeWin, State.mk.injEq, true_and]
  refine ⟨?_, ?_, ?_, ?_, ?_, ?_, ?_, ?_, ?_, ?_, ?_, ?_, ?_, ?_, ?_, ?_⟩
  all_goals first
    | rfl
    | rw [closeIfFull_frame]

theorem pushChar_obuf (c : Byte) (s : State) :
    ∃ d, (pushChar c s).obuf = s.obuf ++ d ∧ d.length ≤ 5 * (s.gcnt.val / 8) ∧
      (s.elatV = true → d = [] ∧ (pushChar c s).elatV = true ∧
        (pushChar c s).elatKind = s.elatKind ∧ (pushChar c s).elatPos = s.elatPos) := by
  simpa [pushChar_eq] using closeIfFull_obuf false s

theorem pushChar_gcnt (c : Byte) (s : State) : (pushChar c s).gcnt.val = s.gcnt.val % 8 + 1 := by
  rw [pushChar_eq]
  simp only [State.storeWin_gcnt]
  unfold closeIfFull
  split
  next h => simp [closeWindow_gcnt, h]
  next h =>
    have := s.gcnt.isLt
    have : s.gcnt.val ≠ 8 := fun hh => h (Fin.ext hh)
    simp; omega

theorem pushLfs_eq_foldl (k : Nat) (s : State) :
    pushLfs k s = (List.replicate k Config.lf).foldl (fun u c => pushChar c u) s := by
  induction k generalizing s with
  | zero => rfl
  | succ k ih => exact ih _

theorem pushLfs_frame (k : Nat) (s : State) :
    pushLfs k s = { s with
      win := (pushLfs k s).win, gcnt := (pushLfs k s).gcnt, n := (pushLfs k s).n
      obuf := (pushLfs k s).obuf, elatV := (pushLfs k s).elatV
      elatKind := (pushLfs k s).elatKind, elatPos := (pushLfs k s).elatPos } := by
  induction k generalizing s with
  | zero => rfl
  | succ k ih =>
    rw [pushLfs, ih (pushChar Config.lf s)]
    simp only
    rw [pushChar_frame Config.lf s]

theorem pushLfs_n (k : Nat) (s : State) : (pushLfs k s).n = s.n + BitVec.ofNat 64 k := by
  induction k generalizing s with
  | zero => simp [pushLfs]
  | succ k ih =>
    rw [pushLfs, ih, pushChar_frame]
    simp only [BitVec.add_assoc]
    congr 1
    rw [Nat.add_comm, BitVec.ofNat_add]; rfl

theorem pushLfs_obuf (k : Nat) (s : State) :
    ∃ d, (pushLfs k s).obuf = s.obuf ++ d ∧ d.length + 5 * ((pushLfs k s).gcnt.val / 8) ≤ 5 * ((s.gcnt.val + k) / 8) ∧
      (s.elatV = true → d = [] ∧ (pushLfs k s).elatV = true ∧
        (pushLfs k s).elatKind = s.elatKind ∧ (pushLfs k s).elatPos = s.elatPos) := by
  induction k generalizing s with
  | zero => exact ⟨[], by simp [pushLfs], by simp [pushLfs], by simp [pushLfs]⟩
  | succ k ih =>
    obtain ⟨d, h1, h2, h3⟩ := pushChar_obuf Config.lf s
    obtain ⟨e, g1, g2, g3⟩ := ih (pushChar Config.lf s)
    have hg := pushChar_gcnt Config.lf s
    have hlt := s.gcnt.isLt
    refine ⟨d ++ e, by rw [pushLfs, g1, h1, List.append_assoc], ?_, ?_⟩
    · rw [pushLfs, List.length_append]
      rw [hg] at g2
      omega
    · intro hv
      obtain ⟨rfl, a, b, c⟩ := h3 hv
      obtain ⟨rfl, a', b', c'⟩ := g3 a
      exact ⟨rfl, a', b'.trans b, c'.trans c⟩

/-! ### The count of `PUT`s and the pending line breaks play no part in `PUSH` -/

/-- The state with another count of `PUT`s and another `NLRUN`. -/
def State.withCounts (p : Nat) (k : Pos) (s : State) : State := { s with puts := p, nlrun := k }

theorem closeWindow_withCounts (p : Nat) (k : Pos) (final : Bool) (s : State) :
    closeWindow final (s.withCounts p k) = (closeWindow final s).withCounts p k := by
  unfold closeWindow
  have hv : (s.withCounts p k).elatV = s.elatV := rfl
  have hw : (s.withCounts p k).win = s.win := rfl
  rw [hv, hw]
  cases s.elatV
  · simp only [Bool.false_eq_true, if_false]
    cases decGroup s.win.toList final <;> rfl
  · rfl

theorem closeIfFull_withCounts (p : Nat) (k : Pos) (final : Bool) (s : State) :
    closeIfFull final (s.withCounts p k) = (closeIfFull final s).withCounts p k := by
  unfold closeIfFull
  have hg : (s.withCounts p k).gcnt = s.gcnt := rfl
  rw [hg]
  split
  · exact closeWindow_withCounts p k final s
  · rfl

theorem pushChar_withCounts (p : Nat) (k : Pos) (c : Byte) (s : State) :
    pushChar c (s.withCounts p k) = (pushChar c s).withCounts p k := by
  unfold pushChar
  rw [closeIfFull_withCounts]
  unfold appendChar
  have h := closeIfFull_gcnt_lt false s
  rw [dif_pos h, dif_pos (show ((closeIfFull false s).withCounts p k).gcnt.val < 8 from h)]
  rfl

theorem pushLfs_withCounts (p : Nat) (k : Pos) (n : Nat) (s : State) :
    pushLfs n (s.withCounts p k) = (pushLfs n s).withCounts p k := by
  induction n generalizing s with
  | zero => rfl
  | succ n ih => rw [pushLfs, pushChar_withCounts, ih]; rfl

/-- `DEC_PUT` in strict mode of a byte that is no `LF`, the counts written last (R148). -/
theorem decPutStrict_char (byte : Byte) (s : State) (h : byte ≠ Config.lf) :
    decPutStrict byte s.countPut =
      (pushChar byte (pushLfs s.nlrun.toNat s)).withCounts (s.puts + 1) 0 := by
  have h1 : s.countPut = s.withCounts (s.puts + 1) s.nlrun := rfl
  have h2 : ({ (pushLfs s.nlrun.toNat s).withCounts (s.puts + 1) s.nlrun with nlrun := 0 } : State) =
      (pushLfs s.nlrun.toNat s).withCounts (s.puts + 1) 0 := rfl
  rw [decPutStrict, if_neg h, show s.countPut.nlrun = s.nlrun from rfl, h1, pushLfs_withCounts, h2, pushChar_withCounts]

/-- `DEC_PUT` in lenient mode of a symbol or pad, the count written last (R149). -/
theorem decPutLenient_char (byte : Byte) (s : State) (h : (isSym byte || isPad byte) = true) :
    decPutLenient byte s.countPut = (pushChar byte s).withCounts (s.puts + 1) s.nlrun := by
  have h1 : s.countPut = s.withCounts (s.puts + 1) s.nlrun := rfl
  rw [decPutLenient, if_pos h, h1, pushChar_withCounts]

/-- Dropping the pending line breaks before closing the final group (R150) is the same as dropping them after. -/
theorem closeIfFull_dropRun (final : Bool) (s : State) :
    closeIfFull final { s with nlrun := 0 } = { closeIfFull final s with nlrun := 0 } := by
  have h := closeIfFull_withCounts s.puts 0 final s
  have e : ({ closeIfFull final s with nlrun := 0 } : State) = (closeIfFull final s).withCounts s.puts 0 := by
    rw [closeIfFull_frame]; rfl
  rw [e, ← h]; rfl

/-! ### Tracking the significant stream -/

/-- The decoder's registers after the characters `closed ++ window` of the significant stream have been pushed, those in `closed` in groups closed as non-final (43_decode_path.md R152). -/
structure DecodeTrack (s : State) (closed window : List Byte) : Prop where
  count : s.n.toNat = closed.length + window.length
  window : s.winBytes = window
  aligned : closed.length % 8 = 0
  bytes : s.obuf = (scanGroups false 0 closed).1
  latch : match (scanGroups false 0 closed).2 with
    | none => s.elatV = false
    | some (kind, pos) => s.elatV = true ∧ s.elatKind = kind.kind ∧ s.elatPos.toNat = pos

theorem DecodeTrack.gcnt {s : State} {closed window : List Byte} (h : DecodeTrack s closed window) :
    s.gcnt.val = window.length := by
  rw [← h.window, winBytes_length]

/-- The window examined as the final group or not, after the groups closed. -/
theorem scanGroups_window (final : Bool) (closed window : List Byte) (hc : closed.length % 8 = 0) (hw : window.length = 8) :
    scanGroups final 0 (closed ++ window) =
      match scanGroups false 0 closed with
      | (bytes, some e) => (bytes, some e)
      | (bytes, none) =>
        match decGroup window final with
        | .err kind i => (bytes, some (kind, closed.length + i))
        | .ok more => (bytes ++ more, none) := by
  have hne : window ≠ [] := by rintro rfl; simp at hw
  have hg := scanGroups_group final (0 + closed.length) window [] hw
  rw [List.append_nil] at hg
  rw [scanGroups_append final 0 closed window hc (.inl hne), hg]
  rcases scanGroups false 0 closed with ⟨bytes, _ | e⟩
  · simp only [List.isEmpty_nil, Bool.and_true, Nat.zero_add]
    cases decGroup window final with
    | err kind i => simp
    | ok more => simp [scanGroups_short]
  · rfl

/-- What `CLOSE(final)` leaves in `OBUF` and the latch (R147). -/
theorem closeWindow_track {s : State} {closed window : List Byte} (final : Bool) (h : DecodeTrack s closed window)
    (hw : window.length = 8) :
    (closeWindow final s).obuf = (scanGroups final 0 (closed ++ window)).1 ∧
    (match (scanGroups final 0 (closed ++ window)).2 with
      | none => (closeWindow final s).elatV = false
      | some (kind, pos) => (closeWindow final s).elatV = true ∧ (closeWindow final s).elatKind = kind.kind ∧
          (closeWindow final s).elatPos.toNat = pos) := by
  have hg : s.gcnt = 8 := Fin.ext (by rw [h.gcnt, hw]; rfl)
  have hl := h.latch
  have hb := h.bytes
  rw [scanGroups_window final closed window h.aligned hw]
  unfold closeWindow
  rw [winBytes_full s hg, h.window]
  rcases hs : scanGroups false 0 closed with ⟨bytes, _ | ⟨kind, pos⟩⟩
  · rw [hs] at hl hb
    simp only at hl hb
    simp only [hl, Bool.false_eq_true, if_false]
    cases hd : decGroup window final with
    | ok more => simp [hb]
    | err kind i =>
      have hi := decGroup_err_lt hw hd
      have hn := h.count
      have h64 := s.n.isLt
      refine ⟨by simp [hb], rfl, rfl, ?_⟩
      have h8 : (8 : Pos).toNat = 8 := rfl
      simp only [State.latchError_elatPos, BitVec.toNat_add, BitVec.toNat_sub, BitVec.toNat_ofNat, h8]
      omega
  · rw [hs] at hl hb
    simp only at hl hb
    simp [hl, hb]

/-- `CLOSE(false)` moves the window to the closed groups. -/
theorem DecodeTrack.close {s : State} {closed window : List Byte} (h : DecodeTrack s closed window)
    (hw : window.length = 8) : DecodeTrack (closeWindow false s) (closed ++ window) [] := by
  obtain ⟨h1, h2⟩ := closeWindow_track false h hw
  refine ⟨?_, ?_, ?_, h1, h2⟩
  · rw [closeWindow_frame]; simp [h.count]
  · simp [State.winBytes, closeWindow_gcnt]
  · have := h.aligned
    simp only [List.length_append, hw]; omega

/-- `PUSH(c)` into a window that is not full. -/
theorem DecodeTrack.append {s : State} {closed window : List Byte} (h : DecodeTrack s closed window)
    (hw : window.length < 8) (hn : s.n.toNat + 1 < 2 ^ 64) (c : Byte) :
    DecodeTrack (pushChar c s) closed (window ++ [c]) := by
  have hg : s.gcnt ≠ 8 := fun hh => by
    have h1 := h.gcnt
    rw [hh] at h1
    have h2 : (8 : Fin 9).val = 8 := rfl
    omega
  have he : closeIfFull false s = s := if_neg hg
  rw [pushChar_eq]
  have hs := winBytes_storeWin c (closeIfFull false s) (closeIfFull_gcnt_lt false s)
  constructor
  · simp only [BitVec.toNat_add, List.length_append, List.length_singleton, ← Nat.add_assoc, ← h.count]
    simp; omega
  · refine Eq.trans ?_ (hs.trans ?_)
    · rfl
    · rw [he, h.window]
  · exact h.aligned
  · simpa [he] using h.bytes
  · simpa [he] using h.latch

/-- `PUSH(c)` into a full window. -/
theorem DecodeTrack.appendFull {s : State} {closed window : List Byte} (h : DecodeTrack s closed window)
    (hw : window.length = 8) (hn : s.n.toNat + 1 < 2 ^ 64) (c : Byte) :
    DecodeTrack (pushChar c s) (closed ++ window) [c] := by
  have hg : s.gcnt = 8 := Fin.ext (by rw [h.gcnt, hw]; rfl)
  have hc := h.close hw
  have he : pushChar c s = pushChar c (closeWindow false s) := by
    rw [pushChar, pushChar, closeIfFull, if_pos hg, closeIfFull, if_neg (by simp [closeWindow_gcnt])]
  rw [he]
  exact hc.append (by simp) (by rw [closeWindow_frame]; exact hn) c

/-- The stream pushed so far, with some split into closed groups and window: the window is empty only at the start (R40 (e)). -/
def Tracks (s : State) (sig : List Byte) : Prop :=
  ∃ closed window, sig = closed ++ window ∧ DecodeTrack s closed window ∧ (window = [] → closed = [])

/-- `PUSH(c)` tracks one more character (R146, R152). -/
theorem Tracks.push {s : State} {sig : List Byte} (h : Tracks s sig) (hn : s.n.toNat + 1 < 2 ^ 64) (c : Byte) :
    Tracks (pushChar c s) (sig ++ [c]) := by
  obtain ⟨closed, window, rfl, ht, -⟩ := h
  have hlt := s.gcnt.isLt
  rw [ht.gcnt] at hlt
  by_cases hw : window.length = 8
  · exact ⟨closed ++ window, [c], rfl, ht.appendFull hw hn c, by simp⟩
  · exact ⟨closed, window ++ [c], by simp, ht.append (by omega) hn c, by simp⟩

theorem Tracks.count {s : State} {sig : List Byte} (h : Tracks s sig) : s.n.toNat = sig.length := by
  obtain ⟨closed, window, rfl, ht, -⟩ := h
  simp [ht.count]

/-- The replay of a run of `LF` (R148). -/
theorem Tracks.pushLfs {s : State} {sig : List Byte} (k : Nat) (h : Tracks s sig) (hn : s.n.toNat + k < 2 ^ 64) :
    Tracks (pushLfs k s) (sig ++ List.replicate k Config.lf) := by
  induction k generalizing s sig with
  | zero => simpa [Machine.pushLfs] using h
  | succ k ih =>
    have hp := h.push (by omega) Config.lf
    have hc : (pushChar Config.lf s).n.toNat = s.n.toNat + 1 := by
      rw [hp.count, h.count]; simp
    have := ih hp (by omega)
    rw [List.replicate_succ, show sig ++ Config.lf :: List.replicate k Config.lf = sig ++ [Config.lf] ++ List.replicate k Config.lf by simp]
    exact this

end Sys2Proof.Machine
end

