-- ==== Sys2Proof/Laws/Wrap.lean ====
section
/-! SUPPORT. `WRAP` and `WRAP'` line by line and column by column (40_codec_functions.md R100, R102, 42_encode_path.md R134). -/

namespace Sys2Proof.Machine

/-! ### Line by line -/

/-- The lines of a non-empty sequence at a width `w > 0`: full lines, then one last line of 1 to `w` characters (R102). -/
theorem wrapLines_lines (fuel : Nat) (s : List Byte) (w : Nat) (hw : 0 < w) (hs : s ≠ []) (hf : s.length ≤ fuel) :
    ∃ (full : List (List Byte)) (last : List Byte),
      wrapLines fuel s w = (full.map (· ++ [Config.lf])).flatten ++ last ++ [Config.lf] ∧
      full.flatten ++ last = s ∧ (∀ l ∈ full, l.length = w) ∧ 1 ≤ last.length ∧ last.length ≤ w ∧
      full.length + 1 = (s.length + w - 1) / w := by
  induction fuel generalizing s with
  | zero => exact absurd (List.length_eq_zero_iff.1 (by omega)) hs
  | succ fuel ih =>
    have hpos : 0 < s.length := List.length_pos_iff.2 hs
    by_cases hle : s.length ≤ w
    · refine ⟨[], s, ?_, by simp, by simp, hpos, hle, ?_⟩
      · have hd : s.drop w = [] := by simp [hle]
        have ht : s.take w = s := List.take_of_length_le hle
        have hz : wrapLines fuel [] w = [] := by cases fuel <;> simp [wrapLines]
        simp [wrapLines, hs, hd, ht, hz]
      · rw [List.length_nil, Nat.zero_add]
        symm; apply Nat.div_eq_of_lt_le <;> omega
    · have hd : s.drop w ≠ [] := by simp; omega
      obtain ⟨full, last, h1, h2, h3, h4, h5, h6⟩ := ih (s.drop w) hd (by simp; omega)
      refine ⟨s.take w :: full, last, ?_, ?_, ?_, h4, h5, ?_⟩
      · simp [wrapLines, hs, h1]
      · simp [h2]
      · intro l hl
        rcases List.mem_cons.1 hl with rfl | hl
        · simp; omega
        · exact h3 l hl
      · rw [List.length_cons, h6, List.length_drop,
          show s.length + w - 1 = (s.length - w + w - 1) + w by omega, Nat.add_div_right _ hw]

/-- `WRAP` at a width `w > 0` of a non-empty sequence, line by line (R102). -/
theorem wrap_lines (s : List Byte) (w : Nat) (hw : 0 < w) (hs : s ≠ []) :
    ∃ (full : List (List Byte)) (last : List Byte),
      wrap s w = (full.map (· ++ [Config.lf])).flatten ++ last ++ [Config.lf] ∧
      full.flatten ++ last = s ∧ (∀ l ∈ full, l.length = w) ∧ 1 ≤ last.length ∧ last.length ≤ w ∧
      full.length + 1 = (s.length + w - 1) / w := by
  simpa [wrap, Nat.pos_iff_ne_zero.1 hw, hs] using wrapLines_lines s.length s w hw hs (le_refl _)

theorem wrap_zero (s : List Byte) : wrap s 0 = s ++ [Config.lf] := by simp [wrap]

theorem wrap_nil (w : Nat) : wrap [] w = [Config.lf] := by unfold wrap; split <;> simp

/-- Removing the line breaks of lines that hold none gives the lines. -/
theorem filter_lines (full : List (List Byte)) (h : ∀ l ∈ full, Config.lf ∉ l) :
    ((full.map (· ++ [Config.lf])).flatten).filter (fun c => c != Config.lf) = full.flatten := by
  induction full with
  | nil => rfl
  | cons l full ih =>
    have hl : l.filter (fun c => c != Config.lf) = l := by
      rw [List.filter_eq_self]
      intro c hc
      have := h l (by simp)
      simp only [bne_iff_ne, ne_eq]
      rintro rfl; exact this hc
    simp [hl, ih fun l hl => h l (by simp [hl])]

/-- Removing every `LF` from `WRAP(s, w)` gives `s`, which holds none (R102). -/
theorem wrap_filter (s : List Byte) (w : Nat) (h : Config.lf ∉ s) :
    (wrap s w).filter (fun c => c != Config.lf) = s := by
  have hs : ∀ l : List Byte, Config.lf ∉ l → l.filter (fun c => c != Config.lf) = l := by
    intro l hl
    rw [List.filter_eq_self]
    intro c hc
    simp only [bne_iff_ne, ne_eq]
    rintro rfl; exact hl hc
  rcases Nat.eq_zero_or_pos w with rfl | hw
  · simp [wrap_zero, hs s h]
  · by_cases he : s = []
    · subst he; simp [wrap_nil]
    · obtain ⟨full, last, h1, h2, -⟩ := wrap_lines s w hw he
      have hf : ∀ l ∈ full, Config.lf ∉ l := fun l hl hc => h (by
        rw [← h2]; exact List.mem_append_left _ (List.mem_flatten.2 ⟨l, hl, hc⟩))
      have hl : Config.lf ∉ last := fun hc => h (by rw [← h2]; exact List.mem_append_right _ hc)
      rw [h1, List.filter_append, List.filter_append, filter_lines full hf, hs last hl, h2]
      simp

/-- `WRAP` ends in `LF` (R102). -/
theorem wrap_getLast? (s : List Byte) (w : Nat) : (wrap s w).getLast? = some Config.lf := by
  rcases Nat.eq_zero_or_pos w with rfl | hw
  · simp [wrap_zero]
  · by_cases he : s = []
    · subst he; simp [wrap_nil]
    · obtain ⟨full, last, h1, -⟩ := wrap_lines s w hw he
      rw [h1]; simp

/-! ### Column by column -/

/-- The symbols `s` through a wrap stage of width `w > 0` whose column is `col`: an `LF` after each symbol that reaches the width (R131). -/
def wrapFrom (w : Nat) : Nat → List Byte → List Byte
  | _, [] => []
  | col, y :: ys => if col + 1 = w then y :: Config.lf :: wrapFrom w 0 ys else y :: wrapFrom w (col + 1) ys

/-- The column after the symbols `s`. -/
def columnAfter (w : Nat) : Nat → List Byte → Nat
  | col, [] => col
  | col, _ :: ys => if col + 1 = w then columnAfter w 0 ys else columnAfter w (col + 1) ys

theorem wrapFrom_append (w col : Nat) (s t : List Byte) :
    wrapFrom w col (s ++ t) = wrapFrom w col s ++ wrapFrom w (columnAfter w col s) t := by
  induction s generalizing col with
  | nil => rfl
  | cons y ys ih => simp only [List.cons_append, wrapFrom, columnAfter]; split <;> simp [ih]

theorem columnAfter_append (w col : Nat) (s t : List Byte) :
    columnAfter w col (s ++ t) = columnAfter w (columnAfter w col s) t := by
  induction s generalizing col with
  | nil => rfl
  | cons y ys ih => simp only [List.cons_append, columnAfter]; split <;> simp [ih]

theorem columnAfter_lt (w col : Nat) (s : List Byte) (h : col < w) : columnAfter w col s < w := by
  induction s generalizing col with
  | nil => exact h
  | cons y ys ih => simp only [columnAfter]; split <;> exact ih _ (by omega)

theorem columnAfter_eq_mod (w col : Nat) (s : List Byte) (h : col < w) :
    columnAfter w col s = (col + s.length) % w := by
  induction s generalizing col with
  | nil => simp [columnAfter, Nat.mod_eq_of_lt h]
  | cons y ys ih =>
    simp only [columnAfter, List.length_cons]
    split
    next hc =>
      rw [ih 0 (by omega), show col + (ys.length + 1) = (0 + ys.length) + w by omega, Nat.add_mod_right]
    next hc => rw [ih (col + 1) (by omega)]; congr 1; omega

/-- A line that is not full has no `LF`. -/
theorem wrapFrom_lt (w col : Nat) (s : List Byte) (h : col + s.length < w) : wrapFrom w col s = s := by
  induction s generalizing col with
  | nil => rfl
  | cons y ys ih =>
    simp only [List.length_cons] at h
    simp only [wrapFrom]
    rw [if_neg (by omega), ih (col + 1) (by omega)]

/-- A line that is exactly full is closed by one `LF`. -/
theorem wrapFrom_full (w col : Nat) (s t : List Byte) (hs : s ≠ []) (h : col + s.length = w) :
    wrapFrom w col (s ++ t) = s ++ Config.lf :: wrapFrom w 0 t := by
  induction s generalizing col with
  | nil => exact absurd rfl hs
  | cons y ys ih =>
    simp only [List.cons_append, wrapFrom]
    simp only [List.length_cons] at h
    by_cases hy : ys = []
    · subst hy
      simp only [List.length_nil] at h
      rw [if_pos (by omega)]; rfl
    · have : 0 < ys.length := List.length_pos_iff.2 hy
      rw [if_neg (by omega), ih (col + 1) hy (by omega)]

/-- `WRAP'` is the wrap stage from column 0 (R134). -/
theorem wrapOpenLines_eq_wrapFrom (fuel : Nat) (s : List Byte) (w : Nat) (hw : 0 < w) (hf : s.length < fuel) :
    wrapOpenLines fuel s w = wrapFrom w 0 s := by
  induction fuel generalizing s with
  | zero => omega
  | succ fuel ih =>
    simp only [wrapOpenLines]
    split
    next hlt => rw [wrapFrom_lt w 0 s (by omega)]
    next hge =>
      have hne : s.take w ≠ [] := by
        intro h
        have := congrArg List.length h
        rw [List.length_take, List.length_nil] at this; omega
      conv_rhs => rw [← List.take_append_drop w s]
      rw [wrapFrom_full w 0 _ _ hne (by simp; omega), ih (s.drop w) (by simp; omega)]
      simp

theorem wrapOpen_eq_wrapFrom (s : List Byte) (w : Nat) (hw : 0 < w) : wrapOpen s w = wrapFrom w 0 s := by
  rw [wrapOpen, if_neg (by omega), wrapOpenLines_eq_wrapFrom _ s w hw (by omega)]

/-- `WRAP` is the wrap stage from column 0 and a trailing `LF`, unless the last line was just closed (R133). -/
theorem wrapLines_eq_wrapFrom (fuel : Nat) (s : List Byte) (w : Nat) (hw : 0 < w) (hf : s.length ≤ fuel) :
    wrapLines fuel s w = wrapFrom w 0 s ++ if s.length % w = 0 then [] else [Config.lf] := by
  induction fuel generalizing s with
  | zero =>
    obtain rfl : s = [] := List.length_eq_zero_iff.1 (by omega)
    simp [wrapLines, wrapFrom]
  | succ fuel ih =>
    by_cases hs : s = []
    · subst hs; simp [wrapLines, wrapFrom]
    have hpos : 0 < s.length := List.length_pos_iff.2 hs
    simp only [wrapLines, if_neg hs]
    by_cases hlt : s.length < w
    · have hd : s.drop w = [] := by simp; omega
      have ht : s.take w = s := List.take_of_length_le (by omega)
      have hz : wrapLines fuel [] w = [] := by cases fuel <;> simp [wrapLines]
      rw [wrapFrom_lt w 0 s (by omega), hd, ht, hz, if_neg (by rw [Nat.mod_eq_of_lt hlt]; omega)]
      simp
    · have hne : s.take w ≠ [] := by
        intro h
        have := congrArg List.length h
        rw [List.length_take, List.length_nil] at this; omega
      conv_rhs => rw [← List.take_append_drop w s]
      rw [wrapFrom_full w 0 _ _ hne (by simp; omega), ih (s.drop w) (by simp; omega), List.take_append_drop]
      have hm : (s.drop w).length % w = s.length % w := by
        rw [List.length_drop]; exact (Nat.mod_eq_sub_mod (by omega)).symm
      rw [hm]; simp

theorem wrap_eq_wrapFrom (s : List Byte) (w : Nat) (hw : 0 < w) :
    wrap s w = wrapFrom w 0 s ++ if s ≠ [] ∧ s.length % w = 0 then [] else [Config.lf] := by
  by_cases hs : s = []
  · subst hs; simp [wrap_nil, wrapFrom]
  · simp only [wrap, if_neg hs, if_neg (show ¬ w = 0 by omega), wrapLines_eq_wrapFrom _ s w hw (le_refl _)]
    simp [hs]

/-- A wrapped sequence does not begin with `LF` and holds no two adjacent ones (R102). -/
theorem wrapFrom_no_adjacent (w : Nat) (s : List Byte) (h : Config.lf ∉ s) (col : Nat) :
    (wrapFrom w col s).head? ≠ some Config.lf ∧ ∀ k, ¬ ((wrapFrom w col s)[k]? = some Config.lf ∧ (wrapFrom w col s)[k+1]? = some Config.lf) := by
  induction s generalizing col with
  | nil => simp [wrapFrom]
  | cons y ys ih =>
    have hy : y ≠ Config.lf := fun e => h (by simp [e])
    have hys : Config.lf ∉ ys := fun e => h (by simp [e])
    have h0 := ih hys 0
    have h1 := ih hys (col+1)
    rw [wrapFrom]
    split
    · refine ⟨by simpa using hy, ?_⟩
      rintro k ⟨a, b⟩
      rcases k with _ | _ | k
      · simp at a; exact hy a
      · have hd := h0.1
        rw [List.head?_eq_getElem?] at hd
        simp at b; simp at hd; exact hd b
      · exact h0.2 k ⟨by simpa using a, by simpa using b⟩
    · refine ⟨by simpa using hy, ?_⟩
      rintro k ⟨a, b⟩
      rcases k with _ | k
      · simp at a; exact hy a
      · exact h1.2 k ⟨by simpa using a, by simpa using b⟩

/-- A wrapped sequence that ends in `LF` has filled its last line (R102). -/
theorem wrapFrom_getLast_lf (w : Nat) (hw : 0 < w) (s : List Byte) (h : Config.lf ∉ s) (col : Nat) (hc : col < w) (hl : (wrapFrom w col s).getLast? = some Config.lf) : (col + s.length) % w = 0 := by
  induction s generalizing col with
  | nil => simp [wrapFrom] at hl
  | cons y ys ih =>
    have hy : y ≠ Config.lf := fun e => h (by simp [e])
    have hys : Config.lf ∉ ys := fun e => h (by simp [e])
    rw [wrapFrom] at hl
    split at hl
    · by_cases hn : ys = []
      · subst hn; simp [*]
      · have hne : wrapFrom w 0 ys ≠ [] := by
          cases ys with
          | nil => exact absurd rfl hn
          | cons a b => rw [wrapFrom]; split <;> simp
        have := ih hys 0 hw (by
          rw [List.getLast?_cons_cons, List.getLast?_cons] at hl
          rw [List.getLast?_eq_some_getLast hne] at hl ⊢
          simpa using hl)
        rw [List.length_cons, show col + (ys.length+1) = w + (0 + ys.length) by omega, Nat.add_mod_left]; exact this
    · by_cases hn : ys = []
      · subst hn; simp [wrapFrom] at hl; exact absurd hl hy
      · have hne : wrapFrom w (col+1) ys ≠ [] := by
          cases ys with
          | nil => exact absurd rfl hn
          | cons a b => rw [wrapFrom]; split <;> simp
        have := ih hys (col+1) (by omega) (by
          rw [List.getLast?_cons] at hl
          rw [List.getLast?_eq_some_getLast hne] at hl ⊢
          simpa using hl)
        rw [List.length_cons, show col + (ys.length+1) = col + 1 + ys.length by omega]; exact this

end Sys2Proof.Machine
end

