-- ==== Sys2Proof/Laws/EncodePath.lean ====
section
/-! SUPPORT. What the encode path can do (42_encode_path.md): `EMIT` on one symbol and on a sequence, and the group buffer as a list. -/

namespace Sys2Proof.Machine

/-! ### The group buffer as a list (10_state.md R21) -/

theorem ebufBytes_length (s : State) : s.ebufBytes.length = s.ecnt.val := by
  have := s.ecnt.isLt
  simp [State.ebufBytes]; omega

theorem ebufBytes_storeEbuf (b : Byte) (s : State) (h : s.ecnt.val < 4) :
    (s.storeEbuf b h).ebufBytes = s.ebufBytes ++ [b] := by
  simp only [State.ebufBytes, State.storeEbuf_ebuf, State.storeEbuf_ecnt, Vector.toList_set]
  rw [List.take_add_one, List.take_set_of_le (le_refl _)]
  simp [h]

theorem ebufBytes_full (s : State) (h : ¬ s.ecnt.val < 4) : s.ebuf.toList = s.ebufBytes := by
  have := s.ecnt.isLt
  rw [State.ebufBytes, List.take_of_length_le]
  simp; omega

/-! ### The wrap stage (R131) -/

/-- What the wrap stage makes of the symbols `ys` at width `w` and column `col`; width 0 is no wrapping. -/
def wrapStage (w col : Nat) (ys : List Byte) : List Byte := if w = 0 then ys else wrapFrom w col ys

/-- The column after them. -/
def stageColumn (w col : Nat) (ys : List Byte) : Nat := if w = 0 then col else columnAfter w col ys

theorem wrapStage_append (w col : Nat) (s t : List Byte) :
    wrapStage w col (s ++ t) = wrapStage w col s ++ wrapStage w (stageColumn w col s) t := by
  unfold wrapStage stageColumn; split <;> simp [wrapFrom_append]

theorem stageColumn_append (w col : Nat) (s t : List Byte) :
    stageColumn w col (s ++ t) = stageColumn w (stageColumn w col s) t := by
  unfold stageColumn; split <;> simp [columnAfter_append]

@[simp] theorem wrapStage_nil (w col : Nat) : wrapStage w col [] = [] := by
  unfold wrapStage; split <;> rfl

@[simp] theorem stageColumn_nil (w col : Nat) : stageColumn w col [] = col := by
  unfold stageColumn; split <;> rfl

/-- `EMIT(y)` changes `OUT`, `ANY` and `COL` only, and how (R131). -/
theorem emit_eq (y : Byte) (s : State) :
    emit y s = { s with
      out := s.out ++ (if s.ww = 0 then [y] else if s.col + 1 = s.ww then [y, Config.lf] else [y])
      any := true
      col := if s.ww = 0 then s.col else if s.col + 1 = s.ww then 0 else s.col + 1 } := by
  by_cases h0 : s.ww = 0#32
  · simp [emit, h0, State.pushOut]
  · by_cases h1 : s.col + 1#32 = s.ww
    · simp [emit, h0, h1, State.pushOut]
    · simp [emit, h0, h1, State.pushOut]

/-- The column has room below the width (R35, R40 (d)). -/
abbrev State.ColumnOk (s : State) : Prop := s.ww = 0 ∨ s.col < s.ww

theorem col_succ_toNat {s : State} (h : s.col < s.ww) : (s.col + 1).toNat = s.col.toNat + 1 := by
  have h1 : s.col.toNat < s.ww.toNat := h
  have h2 := s.ww.isLt
  rw [BitVec.toNat_add]; simp; omega

theorem col_succ_eq_iff {s : State} (h : s.col < s.ww) : s.col + 1 = s.ww ↔ s.col.toNat + 1 = s.ww.toNat := by
  rw [← col_succ_toNat h, ← BitVec.toNat_inj]

/-- `EMIT(y)` in terms of the wrap stage. -/
theorem emit_spec (y : Byte) (s : State) (h : s.ColumnOk) :
    (emit y s).out = s.out ++ wrapStage s.ww.toNat s.col.toNat [y] ∧
    (emit y s).col.toNat = stageColumn s.ww.toNat s.col.toNat [y] ∧ (emit y s).ColumnOk := by
  rw [emit_eq]
  by_cases h0 : s.ww = 0
  · simp [State.ColumnOk, wrapStage, stageColumn, h0]
  · replace h0 : ¬ s.ww = 0#32 := h0
    have hlt : s.col < s.ww := h.resolve_left h0
    have hw : s.ww.toNat ≠ 0 := by
      intro hz; exact h0 (BitVec.eq_of_toNat_eq (by simpa using hz))
    by_cases h1 : s.col + 1#32 = s.ww
    · have h1' := (col_succ_eq_iff hlt).1 h1
      have : 0#32 < s.ww := by rw [BitVec.lt_def]; simp; omega
      simp [State.ColumnOk, wrapStage, stageColumn, wrapFrom, columnAfter, h0, h1, h1', hw, this]
    · have h1' : ¬ s.col.toNat + 1 = s.ww.toNat := fun hh => h1 ((col_succ_eq_iff hlt).2 hh)
      have hcs : (s.col + 1#32).toNat = s.col.toNat + 1 := col_succ_toNat hlt
      have hl : s.col + 1#32 < s.ww := by
        have h2 : s.col.toNat < s.ww.toNat := hlt
        rw [BitVec.lt_def]; exact lt_of_eq_of_lt (col_succ_toNat hlt) (by omega)
      simp [State.ColumnOk, wrapStage, stageColumn, wrapFrom, columnAfter, h0, h1, h1', hw, hl, hcs, -BitVec.toNat_add]

theorem emitAll_eq_foldl (ys : List Byte) (s : State) : emitAll ys s = ys.foldl (fun u y => emit y u) s := by
  induction ys generalizing s with
  | nil => rfl
  | cons y ys ih => exact ih _

/-- A sequence of `EMIT`s changes `OUT`, `ANY` and `COL` only. -/
theorem emitAll_frame (ys : List Byte) (s : State) :
    emitAll ys s = { s with out := (emitAll ys s).out, any := (emitAll ys s).any, col := (emitAll ys s).col } := by
  induction ys generalizing s with
  | nil => rfl
  | cons y ys ih =>
    rw [emitAll, ih (emit y s)]
    simp [emit_eq y s]

/-- A sequence of `EMIT`s in terms of the wrap stage. -/
theorem emitAll_spec (ys : List Byte) (s : State) (h : s.ColumnOk) :
    (emitAll ys s).out = s.out ++ wrapStage s.ww.toNat s.col.toNat ys ∧
    (emitAll ys s).col.toNat = stageColumn s.ww.toNat s.col.toNat ys ∧ (emitAll ys s).ColumnOk ∧
    (emitAll ys s).any = (s.any || !ys.isEmpty) := by
  induction ys generalizing s with
  | nil => simp [emitAll, h]
  | cons y ys ih =>
    obtain ⟨e1, e2, e3⟩ := emit_spec y s h
    have hw : (emit y s).ww = s.ww := by simp [emit_eq]
    have ha : (emit y s).any = true := by simp [emit_eq]
    obtain ⟨i1, i2, i3, i4⟩ := ih (emit y s) e3
    rw [hw] at i1 i2
    refine ⟨?_, ?_, i3, ?_⟩
    · rw [emitAll, i1, e1, e2, List.append_assoc, ← wrapStage_append]; rfl
    · rw [emitAll, i2, e2, ← stageColumn_append]; rfl
    · rw [emitAll, i4, ha]; simp

/-- `emitAll` only appends to `OUT`. -/
theorem emitAll_out_append (ys : List Byte) (s : State) : ∃ d, (emitAll ys s).out = s.out ++ d := by
  induction ys generalizing s with
  | nil => exact ⟨[], by simp [emitAll]⟩
  | cons y ys ih =>
    obtain ⟨d, hd⟩ := ih (emit y s)
    rw [emitAll, hd, emit_eq]
    exact ⟨_, List.append_assoc _ _ _⟩

/-- `emitGroup` changes `OUT`, `ANY`, `COL` and `ECNT` only, and only appends to `OUT` (R131, R132). -/
theorem emitGroup_frame (b : List Byte) (s : State) :
    ∃ o a c, emitGroup b s = { s with out := s.out ++ o, any := a, col := c, ecnt := 0 } := by
  obtain ⟨o, ho⟩ := emitAll_out_append (encGroup b) s
  refine ⟨o, (emitAll (encGroup b) s).any, (emitAll (encGroup b) s).col, ?_⟩
  rw [emitGroup, ← ho]
  conv => lhs; rw [emitAll_frame]

end Sys2Proof.Machine
end

