-- ==== Sys2Proof/Laws/Exec.lean ====
section
/-! SUPPORT. What a command can do, said once: the cases of `exec` when it answers a next state, and that no meaning reads the fault bits or the command stream. -/

namespace Sys2Proof.Machine

/-! ### Going on from a result -/

@[simp] theorem andThen_next (s : State) (f : State → Result) : andThen (.next s) f = f s := rfl

@[simp] theorem andThen_refused (r : Refusal) (f : State → Result) : andThen (.refused r) f = .refused r := rfl

theorem andThen_eq_next {r : Result} {f : State → Result} {t : State} (h : andThen r f = .next t) :
    ∃ s, r = .next s ∧ f s = .next t := by
  cases r with
  | next s => exact ⟨s, rfl, h⟩
  | fault e => cases h
  | refused e => cases h

theorem andThen_assoc (r : Result) (f g : State → Result) :
    andThen (andThen r f) g = andThen r fun s => andThen (f s) g := by
  cases r <;> rfl

theorem admitObuf_eq_next {s t : State} (h : admitObuf s = .next t) : t = s ∧ s.obufFits = true := by
  unfold admitObuf at h
  split at h
  · cases h; exact ⟨rfl, ‹_›⟩
  · cases h

theorem admitObuf_of_fits {s : State} (h : s.obufFits = true) : admitObuf s = .next s := if_pos h

theorem obufFits_iff (s : State) : s.obufFits = true ↔ ∀ c ∈ s.obufCap, s.obuf.length ≤ c := by
  unfold State.obufFits
  cases s.obufCap <;> simp

/-! ### The cases of `exec` -/

/-- What a command does when it answers a next state: a sequence fault, a start, a `PUT` of either direction, or an `END` of either direction (41_commands_dispatch.md R120 to R122). -/
inductive ExecCase (s : State) : Instr → State → Prop where
  | fault {i : Instr} : phaseAfter s.phase i = none → ExecCase s i (raiseSequenceFault s)
  | startEncode (width : Width) : s.phase = .idle →
      ExecCase s (.enc width) { s.startInvocation with ww := width, ig := false, phase := .enc }
  | startDecode (ig : Bool) : s.phase = .idle →
      ExecCase s (.dec ig) { s.startInvocation with ww := 0, ig := ig, phase := .dec }
  | putEncode (byte : Byte) : s.phase = .enc → s.putAdmitted = true →
      ExecCase s (.put byte) (encPut byte s.countPut)
  | putDecode (byte : Byte) : s.phase = .dec → s.putAdmitted = true → (decPut byte s.countPut).obufFits = true →
      ExecCase s (.put byte) (decPut byte s.countPut)
  | endEncode : s.phase = .enc → ExecCase s .endInv (encEnd s).finishInvocation
  | endLengthError : s.phase = .dec → s.gcnt ≠ 0 → s.gcnt ≠ 8 →
      ExecCase s .endInv (raiseCodecError .invalidLength (s.n - BitVec.ofNat 64 s.gcnt.val)
        { s with nlrun := 0 }).clearDecoder.finishInvocation
  | endLatchedError (u : State) : s.phase = .dec → (s.gcnt = 0 ∨ s.gcnt = 8) →
      u = closeIfFull true { s with nlrun := 0 } → u.obufFits = true → u.elatV = true →
      ExecCase s .endInv (raiseCodecError u.elatKind u.elatPos u).clearDecoder.finishInvocation
  | endCommit (u : State) : s.phase = .dec → (s.gcnt = 0 ∨ s.gcnt = 8) →
      u = closeIfFull true { s with nlrun := 0 } → u.obufFits = true → u.elatV = false →
      ExecCase s .endInv (commitObuf u).clearDecoder.finishInvocation

theorem exec_cases {i : Instr} {s t : State} (h : exec i s = .next t) : ExecCase s i t := by
  cases i with
  | enc width =>
    simp only [exec, execEnc] at h
    cases hp : s.phase <;> rw [hp] at h <;> cases h
    · exact .startEncode width hp
    · exact .fault (by rw [hp]; rfl)
    · exact .fault (by rw [hp]; rfl)
  | dec ig =>
    simp only [exec, execDec] at h
    cases hp : s.phase <;> rw [hp] at h <;> cases h
    · exact .startDecode ig hp
    · exact .fault (by rw [hp]; rfl)
    · exact .fault (by rw [hp]; rfl)
  | put byte =>
    simp only [exec, execPut] at h
    split at h
    next hp => cases h; exact .fault (by rw [hp]; rfl)
    next hp =>
      split at h
      next ha =>
        cases hq : s.phase with
        | idle => exact absurd hq hp
        | enc =>
          simp only [putBody, hq] at h
          cases h
          exact .putEncode byte hq ha
        | dec =>
          simp only [putBody, hq] at h
          obtain ⟨rfl, hf⟩ := admitObuf_eq_next h
          exact .putDecode byte hq ha hf
      next => cases h
  | endInv =>
    simp only [exec, execEnd] at h
    cases hp : s.phase with
    | idle => rw [hp] at h; cases h; exact .fault (by rw [hp]; rfl)
    | enc => rw [hp] at h; cases h; exact .endEncode hp
    | dec =>
      rw [hp] at h
      obtain ⟨u, hu, ht⟩ := andThen_eq_next h
      cases ht
      simp only [decEnd] at hu
      split at hu
      next hg => cases hu; exact .endLengthError hp hg.1 hg.2
      next hg =>
        have hg' : s.gcnt = 0 ∨ s.gcnt = 8 := by
          by_cases h0 : s.gcnt = 0
          · exact .inl h0
          · by_cases h8 : s.gcnt = 8
            · exact .inr h8
            · exact absurd ⟨h0, h8⟩ hg
        obtain ⟨v, hv, hw⟩ := andThen_eq_next hu
        obtain ⟨rfl, hf⟩ := admitObuf_eq_next hv
        simp only [decFinish] at hw
        split at hw
        next hl => cases hw; exact .endLatchedError _ hp hg' rfl hf hl
        next hl => cases hw; exact .endCommit _ hp hg' rfl hf (by simpa using hl)

/-! ### Equations of `exec` -/

theorem exec_of_fault {i : Instr} {s : State} (h : phaseAfter s.phase i = none) :
    exec i s = .next (raiseSequenceFault s) := by
  cases i <;> cases hp : s.phase <;> rw [hp] at h <;>
    first
      | (simp [phaseAfter] at h; done)
      | simp [exec, execEnc, execDec, execPut, execEnd, hp]

theorem exec_enc_idle {s : State} (width : Width) (hp : s.phase = .idle) :
    exec (.enc width) s = .next { s.startInvocation with ww := width, ig := false, phase := .enc } := by
  simp [exec, execEnc, hp]

theorem exec_dec_idle {s : State} (ig : Bool) (hp : s.phase = .idle) :
    exec (.dec ig) s = .next { s.startInvocation with ww := 0, ig := ig, phase := .dec } := by
  simp [exec, execDec, hp]

theorem exec_put_enc {s : State} (byte : Byte) (hp : s.phase = .enc) (ha : s.putAdmitted = true) :
    exec (.put byte) s = .next (encPut byte s.countPut) := by
  simp [exec, execPut, putBody, hp, ha]

theorem exec_put_dec {s : State} (byte : Byte) (hp : s.phase = .dec) (ha : s.putAdmitted = true) :
    exec (.put byte) s = admitObuf (decPut byte s.countPut) := by
  simp [exec, execPut, putBody, hp, ha]

theorem exec_end_enc {s : State} (hp : s.phase = .enc) :
    exec .endInv s = .next (encEnd s).finishInvocation := by
  simp [exec, execEnd, hp]

theorem exec_end_dec_length {s : State} (hp : s.phase = .dec) (h0 : s.gcnt ≠ 0) (h8 : s.gcnt ≠ 8) :
    exec .endInv s = .next (raiseCodecError .invalidLength (s.n - BitVec.ofNat 64 s.gcnt.val)
        { s with nlrun := 0 }).clearDecoder.finishInvocation := by
  simp [exec, execEnd, hp, decEnd, h0, h8]

theorem exec_end_dec_whole {s : State} (hp : s.phase = .dec) (hg : s.gcnt = 0 ∨ s.gcnt = 8) :
    exec .endInv s = andThen (admitObuf (closeIfFull true { s with nlrun := 0 })) fun u =>
      .next (if u.elatV then (raiseCodecError u.elatKind u.elatPos u).clearDecoder.finishInvocation
        else (commitObuf u).clearDecoder.finishInvocation) := by
  have hn : ¬ (s.gcnt ≠ 0 ∧ s.gcnt ≠ 8) := by rintro ⟨a, b⟩; rcases hg with h | h <;> contradiction
  simp only [exec, execEnd, hp, decEnd, if_neg hn, andThen_assoc]
  congr 1
  funext u
  unfold decFinish
  split <;> simp [*]

/-! ### No meaning reads the fault bits or the command stream -/

/-- The state with other fault bits and another command stream. -/
def State.withEnv (f : BitVec 2) (j : List HostInput) (s : State) : State := { s with fault := f, input := j }

/-- The result with other fault bits and another command stream. -/
def withEnvResult (f : BitVec 2) (j : List HostInput) : Result → Result
  | .next s => .next (s.withEnv f j)
  | .fault e => .fault e
  | .refused e => .refused e

theorem emitAll_withEnv (f : BitVec 2) (j : List HostInput) (ys : List Byte) (s : State) :
    emitAll ys (s.withEnv f j) = (emitAll ys s).withEnv f j := by
  induction ys generalizing s with
  | nil => rfl
  | cons y ys ih =>
    have : emit y (s.withEnv f j) = (emit y s).withEnv f j := by simp [emit_eq, State.withEnv]
    rw [emitAll, this, ih]; rfl

theorem emitGroup_withEnv (f : BitVec 2) (j : List HostInput) (b : List Byte) (s : State) :
    emitGroup b (s.withEnv f j) = (emitGroup b s).withEnv f j := by
  simp only [emitGroup, emitAll_withEnv]; rfl

theorem encPut_withEnv (f : BitVec 2) (j : List HostInput) (byte : Byte) (s : State) :
    encPut byte (s.withEnv f j) = (encPut byte s).withEnv f j := by
  unfold encPut
  by_cases h : s.ecnt.val < 4
  · rw [dif_pos h, dif_pos (show (s.withEnv f j).ecnt.val < 4 from h)]; rfl
  · rw [dif_neg h, dif_neg (show ¬ (s.withEnv f j).ecnt.val < 4 from h)]
    exact emitGroup_withEnv f j _ s

theorem encEnd_withEnv (f : BitVec 2) (j : List HostInput) (s : State) :
    encEnd (s.withEnv f j) = (encEnd s).withEnv f j := by
  unfold encEnd
  have h1 : (if 0 < (s.withEnv f j).ecnt.val then emitGroup (s.withEnv f j).ebufBytes (s.withEnv f j) else s.withEnv f j)
      = (if 0 < s.ecnt.val then emitGroup s.ebufBytes s else s).withEnv f j := by
    by_cases h : 0 < s.ecnt.val
    · rw [if_pos h, if_pos (show 0 < (s.withEnv f j).ecnt.val from h)]
      exact emitGroup_withEnv f j _ s
    · rw [if_neg h, if_neg (show ¬ 0 < (s.withEnv f j).ecnt.val from h)]
  simp only [h1]
  generalize (if 0 < s.ecnt.val then emitGroup s.ebufBytes s else s) = u
  have h2 : (u.withEnv f j).trailingLf = u.trailingLf := rfl
  rw [h2]
  cases u.trailingLf <;> rfl

theorem closeIfFull_withEnv (f : BitVec 2) (j : List HostInput) (final : Bool) (s : State) :
    closeIfFull final (s.withEnv f j) = (closeIfFull final s).withEnv f j := by
  have hc : closeWindow final (s.withEnv f j) = (closeWindow final s).withEnv f j := by
    unfold closeWindow
    have hv : (s.withEnv f j).elatV = s.elatV := rfl
    have hw : (s.withEnv f j).win = s.win := rfl
    rw [hv, hw]
    cases s.elatV
    · simp only [Bool.false_eq_true, if_false]
      cases decGroup s.win.toList final <;> rfl
    · rfl
  unfold closeIfFull
  by_cases h : s.gcnt = 8
  · rw [if_pos h, if_pos (show (s.withEnv f j).gcnt = 8 from h), hc]
  · rw [if_neg h, if_neg (show ¬ (s.withEnv f j).gcnt = 8 from h)]

theorem pushChar_withEnv (f : BitVec 2) (j : List HostInput) (c : Byte) (s : State) :
    pushChar c (s.withEnv f j) = (pushChar c s).withEnv f j := by
  unfold pushChar
  rw [closeIfFull_withEnv]
  unfold appendChar
  have h := closeIfFull_gcnt_lt false s
  rw [dif_pos h, dif_pos (show ((closeIfFull false s).withEnv f j).gcnt.val < 8 from h)]
  rfl

theorem pushLfs_withEnv (f : BitVec 2) (j : List HostInput) (k : Nat) (s : State) :
    pushLfs k (s.withEnv f j) = (pushLfs k s).withEnv f j := by
  induction k generalizing s with
  | zero => rfl
  | succ k ih => rw [pushLfs, pushChar_withEnv, ih]; rfl

theorem decPut_withEnv (f : BitVec 2) (j : List HostInput) (byte : Byte) (s : State) :
    decPut byte (s.withEnv f j) = (decPut byte s).withEnv f j := by
  have hs : decPutStrict byte (s.withEnv f j) = (decPutStrict byte s).withEnv f j := by
    unfold decPutStrict
    split
    · rfl
    · have : pushLfs (s.withEnv f j).nlrun.toNat (s.withEnv f j) = (pushLfs s.nlrun.toNat s).withEnv f j :=
        pushLfs_withEnv f j _ s
      rw [this]
      exact pushChar_withEnv f j byte { pushLfs s.nlrun.toNat s with nlrun := 0 }
  have hl : decPutLenient byte (s.withEnv f j) = (decPutLenient byte s).withEnv f j := by
    unfold decPutLenient
    split
    · exact pushChar_withEnv f j byte s
    · rfl
  unfold decPut
  have : (s.withEnv f j).ig = s.ig := rfl
  rw [this]
  cases s.ig
  · exact hs
  · exact hl

/-- A command that is performed does the same under other fault bits and another command stream (R42, R120). -/
theorem exec_withEnv (f : BitVec 2) (j : List HostInput) (i : Instr) (s : State) (h : phaseAfter s.phase i ≠ none) :
    exec i (s.withEnv f j) = withEnvResult f j (exec i s) := by
  have hph : (s.withEnv f j).phase = s.phase := rfl
  cases i with
  | enc width =>
    cases hp : s.phase <;> simp only [hp, phaseAfter, ne_eq, not_true_eq_false] at h
    simp only [exec, execEnc, hph, hp]; rfl
  | dec ig =>
    cases hp : s.phase <;> simp only [hp, phaseAfter, ne_eq, not_true_eq_false] at h
    simp only [exec, execDec, hph, hp]; rfl
  | put byte =>
    have ha : (s.withEnv f j).putAdmitted = s.putAdmitted := rfl
    have hc : (s.withEnv f j).countPut = s.countPut.withEnv f j := rfl
    cases hp : s.phase with
    | idle => simp [hp, phaseAfter] at h
    | enc =>
      simp only [exec, execPut, hph, hp, ha, putBody, hc, encPut_withEnv, reduceCtorEq, if_false]
      cases s.putAdmitted <;> rfl
    | dec =>
      simp only [exec, execPut, hph, hp, ha, putBody, hc, decPut_withEnv, reduceCtorEq, if_false]
      cases s.putAdmitted
      · rfl
      · simp only [if_true, admitObuf]
        have hf : ((decPut byte s.countPut).withEnv f j).obufFits = (decPut byte s.countPut).obufFits := rfl
        rw [hf]
        cases (decPut byte s.countPut).obufFits <;> rfl
  | endInv =>
    cases hp : s.phase with
    | idle => simp [hp, phaseAfter] at h
    | enc => simp only [exec, execEnd, hph, hp, encEnd_withEnv]; rfl
    | dec =>
      by_cases hg : s.gcnt = 0 ∨ s.gcnt = 8
      · rw [exec_end_dec_whole hp hg, exec_end_dec_whole (s := s.withEnv f j) hp hg]
        have := closeIfFull_withEnv f j true { s with nlrun := 0 }
        have he : closeIfFull true { s.withEnv f j with nlrun := 0 } = (closeIfFull true { s with nlrun := 0 }).withEnv f j := this
        rw [he]
        generalize closeIfFull true { s with nlrun := 0 } = u
        have hf : (u.withEnv f j).obufFits = u.obufFits := rfl
        simp only [admitObuf, hf]
        cases u.obufFits
        · rfl
        · simp only [if_true, andThen_next]
          have hl : (u.withEnv f j).elatV = u.elatV := rfl
          rw [hl]
          cases u.elatV <;> rfl
      · have h0 : s.gcnt ≠ 0 := fun hh => hg (.inl hh)
        have h8 : s.gcnt ≠ 8 := fun hh => hg (.inr hh)
        rw [exec_end_dec_length hp h0 h8, exec_end_dec_length (s := s.withEnv f j) hp h0 h8]
        rfl

end Sys2Proof.Machine
end

