-- ==== Sys2Proof/Laws/PerInstr.lean ====
section
/-! SUPPORT. Statements about every instruction as syntax, one lemma per constructor: the encoder is undone by the decoder, and the encoded word agrees with its row of the opcode table. -/

/-- Decoding the word of an instruction gives it back (30_encoding.md R71, R81). -/
def Sys2Proof.Laws.RoundTrip.Statement (i : Sys2Proof.Instr) : Prop :=
  Sys2Proof.decode (Sys2Proof.encode i) = .ok i

/-- The match of an instruction's row of the opcode table (30_encoding.md R72 to R75). -/
def Sys2Proof.Laws.TableRow.rowMatch : Sys2Proof.Instr → Sys2Proof.CmdWord
  | .enc _ => 0x100000000
  | .dec _ => 0x200000000
  | .put _ => 0x300000000
  | .endInv => 0x400000000

/-- The mask of an instruction's row of the opcode table (30_encoding.md R72 to R75). -/
def Sys2Proof.Laws.TableRow.rowMask : Sys2Proof.Instr → Sys2Proof.CmdWord
  | .enc _ => 0xF00000000
  | .dec _ => 0xFFFFFFFFE
  | .put _ => 0xFFFFFFF00
  | .endInv => 0xFFFFFFFFF

/-- The word of an instruction has the bits its row of the opcode table fixes. -/
def Sys2Proof.Laws.TableRow.Statement (i : Sys2Proof.Instr) : Prop :=
  Sys2Proof.encode i &&& Sys2Proof.Laws.TableRow.rowMask i = Sys2Proof.Laws.TableRow.rowMatch i

namespace Sys2Proof.Laws

theorem RoundTrip.enc (width : Width) : RoundTrip.Statement (.enc width) := by
  simp [RoundTrip.Statement, encode, rawOf, decode_wordOfFields]

theorem RoundTrip.dec (ig : Bool) : RoundTrip.Statement (.dec ig) := by
  unfold RoundTrip.Statement; cases ig <;> decide

theorem RoundTrip.put (byte : Byte) : RoundTrip.Statement (.put byte) := by
  have h1 : Machine.putReserved (byte.setWidth 32) = 0 := by
    apply BitVec.eq_of_getLsbD_eq
    intro i hi
    simp [Machine.putReserved, BitVec.getLsbD_extractLsb']
  have h2 : Machine.putByte (byte.setWidth 32) = byte := by
    apply BitVec.eq_of_getLsbD_eq
    intro i hi
    have : i < 32 := by omega
    simp [Machine.putByte, hi, this]
  simp [RoundTrip.Statement, encode, rawOf, decode_wordOfFields, h1, h2]

theorem RoundTrip.endInv : RoundTrip.Statement .endInv := by
  unfold RoundTrip.Statement; decide

theorem TableRow.enc (width : Width) : TableRow.Statement (.enc width) := by
  apply BitVec.eq_of_getLsbD_eq
  intro i hi
  simp only [encode, rawOf, Machine.wordOfFields, TableRow.rowMask, TableRow.rowMatch, BitVec.getLsbD_and, BitVec.getLsbD_append]
  interval_cases i <;> simp

theorem TableRow.dec (ig : Bool) : TableRow.Statement (.dec ig) := by
  unfold TableRow.Statement; cases ig <;> decide

theorem TableRow.put (byte : Byte) : TableRow.Statement (.put byte) := by
  apply BitVec.eq_of_getLsbD_eq
  intro i hi
  simp only [encode, rawOf, Machine.wordOfFields, TableRow.rowMask, TableRow.rowMatch, BitVec.getLsbD_and, BitVec.getLsbD_append]
  interval_cases i <;> simp

theorem TableRow.endInv : TableRow.Statement .endInv := by
  unfold TableRow.Statement; decide

end Sys2Proof.Laws
end

