-- ==== Sys2Proof/Laws/Run.lean ====
section
/-! SUPPORT. The step on each kind of input, what every command leaves alone, and runs over presented words as runs over commands. -/

namespace Sys2Proof.Machine

/-! ### The step -/

theorem step_nil {s : State} (h : s.input = []) : step s = .next s := by
  simp [step, acceptNext, h]

theorem step_word {s : State} {w : CmdWord} {rest : List HostInput} (h : s.input = .word w :: rest) :
    step s = acceptWord w { s with input := rest } := by
  simp [step, acceptNext, h, acceptInput]

theorem step_reset {s : State} {rest : List HostInput} (h : s.input = .reset :: rest) :
    step s = .next (resetBlock { s with input := rest }) := by
  simp [step, acceptNext, h, acceptInput]

theorem acceptWord_ok {w : CmdWord} {i : Instr} (h : decode w = .ok i) (s : State) : acceptWord w s = exec i s := by
  simp [acceptWord, h]

theorem acceptWord_error {w : CmdWord} {e : Illegal} (h : decode w = .error e) (s : State) :
    acceptWord w s = .next (raiseIllegalCommand s) := by
  simp [acceptWord, h]

theorem decode_encode (i : Instr) : decode (encode i) = .ok i := by
  cases i with
  | enc width => exact Laws.RoundTrip.enc width
  | dec ig => exact Laws.RoundTrip.dec ig
  | put byte => exact Laws.RoundTrip.put byte
  | endInv => exact Laws.RoundTrip.endInv

/-! ### What every command leaves alone -/

/-- The bodies of the commands change neither the fault bits, nor the command stream, nor the capacity. -/
theorem encPut_env (byte : Byte) (s : State) :
    (encPut byte s).fault = s.fault ∧ (encPut byte s).input = s.input ∧ (encPut byte s).obufCap = s.obufCap ∧
    (encPut byte s).phase = s.phase := by
  unfold encPut
  split
  · exact ⟨rfl, rfl, rfl, rfl⟩
  · simp only [emitGroup]; rw [emitAll_frame]; exact ⟨rfl, rfl, rfl, rfl⟩

/-- `ENC_END` changes `ECNT`, the wrap state, `OUT` and the result registers only (R133). -/
theorem encEnd_frame (s : State) :
    encEnd s = { s with
      ecnt := 0, out := (encEnd s).out, any := (encEnd s).any, col := (encEnd s).col
      errKind := .noError, errPos := 0 } := by
  unfold encEnd
  by_cases h : 0 < s.ecnt.val
  · obtain ⟨o, a, c, he⟩ : ∃ o a c, emitAll (encGroup s.ebufBytes) s = { s with out := o, any := a, col := c } :=
      ⟨_, _, _, emitAll_frame _ _⟩
    simp only [if_pos h, emitGroup, he]
    split <;> rfl
  · simp only [if_neg h]
    have : s.ecnt = 0 := Fin.ext (by have : (0 : Fin 5).val = 0 := rfl; omega)
    split <;> simp [State.noErrorResult, State.pushOut, this]

/-- `DEC_PUT` changes the window, the position counters, `OBUF` and the latch only (R148, R149). -/
theorem decPut_frame (byte : Byte) (s : State) :
    decPut byte s = { s with
      win := (decPut byte s).win, gcnt := (decPut byte s).gcnt, n := (decPut byte s).n, nlrun := (decPut byte s).nlrun
      obuf := (decPut byte s).obuf, elatV := (decPut byte s).elatV
      elatKind := (decPut byte s).elatKind, elatPos := (decPut byte s).elatPos } := by
  unfold decPut
  split
  · unfold decPutLenient
    split
    · rw [pushChar_frame]
    · rfl
  · unfold decPutStrict
    split
    · rfl
    · rw [pushChar_frame]
      simp only
      rw [pushLfs_frame]

theorem exec_keeps_env {i : Instr} {s t : State} (h : exec i s = .next t) :
    t.input = s.input ∧ t.obufCap = s.obufCap := by
  cases exec_cases h with
  | fault => exact ⟨rfl, rfl⟩
  | startEncode => exact ⟨rfl, rfl⟩
  | startDecode => exact ⟨rfl, rfl⟩
  | putEncode byte =>
    have := encPut_env byte s.countPut
    exact ⟨this.2.1, this.2.2.1⟩
  | putDecode byte => rw [decPut_frame]; exact ⟨rfl, rfl⟩
  | endEncode => rw [encEnd_frame]; exact ⟨rfl, rfl⟩
  | endLengthError => exact ⟨rfl, rfl⟩
  | endLatchedError u hp hg hu => subst hu; rw [closeIfFull_frame]; exact ⟨rfl, rfl⟩
  | endCommit u hp hg hu => subst hu; rw [closeIfFull_frame]; exact ⟨rfl, rfl⟩

/-- The phase after a command, by the table of R123, and the fault bits (R30). -/
theorem exec_phase_fault {i : Instr} {s t : State} (h : exec i s = .next t) :
    (phaseAfter s.phase i = none ∧ t = raiseSequenceFault s) ∨
    (phaseAfter s.phase i = some t.phase ∧ t.fault = s.fault) := by
  cases exec_cases h with
  | fault hf => exact .inl ⟨hf, rfl⟩
  | startEncode width hp => right; rw [hp]; exact ⟨rfl, rfl⟩
  | startDecode ig hp => right; rw [hp]; exact ⟨rfl, rfl⟩
  | putEncode byte hp =>
    have := encPut_env byte s.countPut
    right; rw [this.2.2.2, this.1]; simp [hp, phaseAfter]
  | putDecode byte hp => right; rw [decPut_frame]; simp [hp, phaseAfter]
  | endEncode hp => right; rw [encEnd_frame]; simp [hp, phaseAfter]
  | endLengthError hp => right; simp [hp, phaseAfter]
  | endLatchedError u hp hg hu => subst hu; right; rw [closeIfFull_frame]; simp [hp, phaseAfter]
  | endCommit u hp hg hu =>
    subst hu; right; rw [closeIfFull_frame]
    simp [hp, phaseAfter, commitObuf]

/-! ### Runs -/

/-- The words accepted one after the other; the command stream plays no part. -/
def acceptAll : List CmdWord → State → Result
  | [], s => .next s
  | w :: ws, s => andThen (acceptWord w s) (acceptAll ws)

/-- The commands performed one after the other. -/
def execAll : List Instr → State → Result
  | [], s => .next s
  | i :: is, s => andThen (exec i s) (execAll is)

theorem execAll_append (p q : List Instr) (s : State) :
    execAll (p ++ q) s = andThen (execAll p s) (execAll q) := by
  induction p generalizing s with
  | nil => rfl
  | cons i p ih =>
    simp only [List.cons_append, execAll, andThen_assoc]
    congr 1; funext u; exact ih u

theorem acceptAll_append (p q : List CmdWord) (s : State) :
    acceptAll (p ++ q) s = andThen (acceptAll p s) (acceptAll q) := by
  induction p generalizing s with
  | nil => rfl
  | cons i p ih =>
    simp only [List.cons_append, acceptAll, andThen_assoc]
    congr 1; funext u; exact ih u

theorem acceptAll_programWords (p : List Instr) (s : State) : acceptAll (programWords p) s = execAll p s := by
  induction p generalizing s with
  | nil => rfl
  | cons i p ih =>
    simp only [programWords, List.map_cons, acceptAll, execAll, acceptWord_ok (decode_encode i)]
    congr 1; funext u; exact ih u

/-- A word does the same under another command stream. -/
theorem acceptWord_withInput (w : CmdWord) (j : List HostInput) (s : State) :
    acceptWord w { s with input := j } = match acceptWord w s with
      | .next t => .next { t with input := j }
      | .fault e => .fault e
      | .refused e => .refused e := by
  cases hd : decode w with
  | error e => rw [acceptWord_error hd, acceptWord_error hd]; rfl
  | ok i =>
    rw [acceptWord_ok hd, acceptWord_ok hd]
    cases hp : phaseAfter s.phase i with
    | none => rw [exec_of_fault hp, exec_of_fault (s := { s with input := j }) hp]; rfl
    | some q =>
      have := exec_withEnv s.fault j i s (by simp [hp])
      rw [show ({ s with input := j } : State) = s.withEnv s.fault j from rfl, this]
      cases he : exec i s with
      | next t =>
        rcases exec_phase_fault he with ⟨hn, -⟩ | ⟨-, hf⟩
        · rw [hp] at hn; cases hn
        · simp only [withEnvResult, State.withEnv, hf]
      | fault e => rfl
      | refused e => rfl

/-- A run over presented words is their acceptance one after the other (R52, R61). -/
theorem run_presented (ws : List CmdWord) (s : State) :
    Host.Core.run Sys2Proof.core ws.length { s with input := ws.map .word } = acceptAll ws { s with input := [] } := by
  induction ws generalizing s with
  | nil => rfl
  | cons w ws ih =>
    have hs : Sys2Proof.core.step { s with input := (w :: ws).map .word } =
        acceptWord w { s with input := ws.map .word } :=
      step_word (s := { s with input := (w :: ws).map .word }) rfl
    simp only [List.length_cons, Host.Core.run, hs, acceptAll]
    rw [acceptWord_withInput, acceptWord_withInput w []]
    cases acceptWord w s with
    | next t => exact ih t
    | fault e => rfl
    | refused e => rfl

theorem runWords_eq (ws : List CmdWord) (s : State) : runWords ws s = acceptAll ws { s with input := [] } :=
  run_presented ws s

theorem runWords_programWords (p : List Instr) (s : State) :
    runWords (programWords p) s = execAll p { s with input := [] } := by
  rw [runWords_eq, acceptAll_programWords]

/-- What accepting a word does to the phase and the fault bits (R120, R123): a fault sets a bit and nothing else, a command that is performed keeps them. -/
theorem acceptWord_next {w : CmdWord} {s t : State} (h : acceptWord w s = .next t) :
    t.input = s.input ∧ ((nextPhase s.phase w = none ∧ t.phase = s.phase ∧ ∃ f, t = { s with fault := f } ∧ f ≠ 0) ∨
      (nextPhase s.phase w = some t.phase ∧ t.fault = s.fault ∧ ∃ i, decode w = .ok i ∧ exec i s = .next t)) := by
  have hor : ∀ f : BitVec 2, f ||| 1 ≠ 0 ∧ f ||| 2 ≠ 0 := by decide
  unfold nextPhase
  cases hd : decode w with
  | error e =>
    rw [acceptWord_error hd] at h; cases h
    exact ⟨rfl, .inl ⟨rfl, rfl, _, rfl, (hor _).1⟩⟩
  | ok i =>
    rw [acceptWord_ok hd] at h
    refine ⟨(exec_keeps_env h).1, ?_⟩
    rcases exec_phase_fault h with ⟨a, rfl⟩ | ⟨a, b⟩
    · exact .inl ⟨a, rfl, _, rfl, (hor _).2⟩
    · exact .inr ⟨a, b, i, rfl, h⟩

theorem acceptAll_input (ws : List CmdWord) (s t : State) (h : acceptAll ws s = .next t) : t.input = s.input := by
  induction ws generalizing s with
  | nil => cases h; rfl
  | cons w ws ih =>
    obtain ⟨u, h1, h2⟩ := andThen_eq_next h
    rw [ih u h2, (acceptWord_next h1).1]

end Sys2Proof.Machine
end

