-- ==== Sys2Proof/Laws/DecodeInvocation.lean ====
section
/-! SUPPORT. What a sequence of `PUT`s and an `END` do in an open decode invocation, in terms of the pre-pass and the groups of the significant stream (43_decode_path.md R152), and the capacity it needs (00_scope.md R7 (b)). -/

namespace Sys2Proof.Machine

/-! ### The pre-pass, one byte at a time -/

theorem pre_strict_lf (x : List Byte) : pre (x ++ [Config.lf]) false = pre x false := by
  obtain ⟨k, hx, hl⟩ := pre_strict_split x
  have he : x ++ [Config.lf] = pre x false ++ List.replicate (k + 1) Config.lf := by
    conv_lhs => rw [hx]
    rw [List.append_assoc, List.replicate_succ']
  rw [he, pre_strict_append _ _ hl]

theorem pre_strict_char (x : List Byte) (c : Byte) (h : c ≠ Config.lf) : pre (x ++ [c]) false = x ++ [c] := by
  have := pre_strict_append (x ++ [c]) 0 (by simpa using h)
  simpa using this

theorem pre_lenient_snoc (x : List Byte) (c : Byte) :
    pre (x ++ [c]) true = pre x true ++ if isSym c || isPad c then [c] else [] := by
  simp only [pre_lenient, List.filter_append, List.filter_cons, List.filter_nil]

theorem pre_length_le (x : List Byte) (ig : Bool) : (pre x ig).length ≤ x.length := by
  cases ig
  · obtain ⟨k, hx, -⟩ := pre_strict_split x
    conv_rhs => rw [hx]
    simp
  · exact List.length_filter_le _ _

/-- More input never withdraws a character from the significant stream. -/
theorem pre_prefix (x y : List Byte) (ig : Bool) : pre x ig <+: pre (x ++ y) ig := by
  induction y using List.reverseRecOn with
  | nil => simp
  | append_singleton y c ih =>
    refine ih.trans ?_
    rw [← List.append_assoc]
    cases ig
    · by_cases hc : c = Config.lf
      · rw [hc, pre_strict_lf]
      · rw [pre_strict_char _ c hc]
        obtain ⟨k, hx, -⟩ := pre_strict_split (x ++ y)
        conv_rhs => rw [hx]
        rw [List.append_assoc]
        exact List.prefix_append _ _
    · rw [pre_lenient_snoc]; exact List.prefix_append _ _

/-! ### The capacity -/

/-- What the closed groups hold is held by every longer stream too. -/
theorem scanGroups_prefix (final : Bool) (closed t : List Byte) (hc : closed.length % 8 = 0)
    (ht : t = [] → closed = []) :
    (scanGroups false 0 closed).1 <+: (scanGroups final 0 (closed ++ t)).1 := by
  by_cases h : t = []
  · rw [ht h, scanGroups_short _ _ _ (by simp)]; exact List.nil_prefix
  · rw [scanGroups_append final 0 closed t hc (.inl h)]
    rcases scanGroups false 0 closed with ⟨bytes, _ | e⟩
    · exact List.prefix_append _ _
    · exact List.prefix_rfl

/-- What a decoder that tracks a prefix of the significant stream of `x` holds fits in the peak of `x` (R7 (b)). -/
theorem Tracks.obuf_le_peak {s : State} {sig x : List Byte} {ig : Bool} (h : Tracks s sig) (hp : sig <+: pre x ig) :
    s.obuf.length ≤ obufPeak x ig := by
  obtain ⟨closed, window, rfl, ht, hw⟩ := h
  obtain ⟨t, htt⟩ := hp
  rw [List.append_assoc] at htt
  rw [ht.bytes, obufPeak, ← htt]
  refine (scanGroups_prefix _ closed (window ++ t) ht.aligned fun h => hw ?_).length_le
  exact (List.append_eq_nil_iff.1 h).1

/-! ### The open invocation -/

/-- An open decode invocation that has received the bytes `raw` (R152). -/
structure DecodeOpen (s : State) (ig : Bool) (raw : List Byte) : Prop where
  phase : s.phase = .dec
  mode : s.ig = ig
  sig : Tracks s (pre raw ig)
  run : s.nlrun.toNat = if ig then 0 else raw.length - (pre raw ig).length
  puts : s.puts = raw.length

/-- Right after `DEC`. -/
theorem decodeOpen_start (s : State) (ig : Bool) (hp : s.phase = .dec) (hi : s.ig = ig) (hn : s.n = 0)
    (hg : s.gcnt = 0) (hr : s.nlrun = 0) (ho : s.obuf = []) (hv : s.elatV = false) (hq : s.puts = 0) :
    DecodeOpen s ig [] := by
  have hnil : pre [] ig = [] := by cases ig <;> rfl
  refine ⟨hp, hi, ?_, by rw [hr, hnil]; cases ig <;> rfl, hq⟩
  rw [hnil]
  exact ⟨[], [], rfl, ⟨by simp [hn], by simp [State.winBytes, hg], rfl, by simp [ho, scanGroups_short],
    by simpa [scanGroups_short] using hv⟩, fun _ => rfl⟩

theorem DecodeOpen.admitted {s : State} {ig : Bool} {raw : List Byte} (h : DecodeOpen s ig raw)
    (hl : raw.length + 1 < 2 ^ 64) : s.putAdmitted = true := by
  have h1 := h.sig.count
  have h2 := pre_length_le raw ig
  have h3 := h.run
  have h4 := h.puts
  have h5 : s.n.toNat + s.nlrun.toNat ≤ raw.length := by
    rw [h1, h3]; split <;> omega
  simp only [State.putAdmitted, Config.posBits, h4, Bool.and_eq_true, decide_eq_true_eq, Bool.or_eq_true]
  exact ⟨hl, .inr (by omega)⟩

theorem Tracks.withCounts {s : State} {sig : List Byte} (h : Tracks s sig) (p : Nat) (k : Pos) :
    Tracks (s.withCounts p k) sig := by
  obtain ⟨closed, window, e, t, w⟩ := h
  exact ⟨closed, window, e, ⟨t.count, t.window, t.aligned, t.bytes, t.latch⟩, w⟩

/-- One more `PUT` (R148, R149). -/
theorem DecodeOpen.put {s : State} {ig : Bool} {raw : List Byte} (h : DecodeOpen s ig raw)
    (hl : raw.length + 1 < 2 ^ 64) (c : Byte) : DecodeOpen (decPut c s.countPut) ig (raw ++ [c]) := by
  have hcount := h.sig.count
  have hle := pre_length_le raw ig
  have hrun := h.run
  have hmode : s.countPut.ig = ig := h.mode
  have hphase : (decPut c s.countPut).phase = .dec := by rw [decPut_frame]; exact h.phase
  have hig : (decPut c s.countPut).ig = ig := by rw [decPut_frame]; exact h.mode
  have hputs : (decPut c s.countPut).puts = (raw ++ [c]).length := by
    rw [decPut_frame]; simp [h.puts]
  refine ⟨hphase, hig, ?_, ?_, hputs⟩
  all_goals
    unfold decPut
    rw [hmode]
    cases ig
    · simp only [Bool.false_eq_true, if_false] at hrun ⊢
      by_cases hc : c = Config.lf
      · subst hc
        rw [decPutStrict, if_pos rfl, pre_strict_lf]
        first
          | exact h.sig.withCounts (s.puts + 1) (s.nlrun + 1)
          | (have : (s.nlrun + 1).toNat = s.nlrun.toNat + 1 := by rw [BitVec.toNat_add]; simp; omega
             show (s.nlrun + 1).toNat = _
             simp only [List.length_append, List.length_singleton]
             omega)
      · rw [decPutStrict_char c s hc, pre_strict_char raw c hc]
        first
          | (obtain ⟨k, hx, -⟩ := pre_strict_split raw
             have hk : s.nlrun.toNat = k := by
               have := congrArg List.length hx
               simp only [List.length_append, List.length_replicate] at this
               omega
             have ht := h.sig.pushLfs s.nlrun.toNat (by omega)
             have hn : (pushLfs s.nlrun.toNat s).n.toNat = raw.length := by
               rw [ht.count, List.length_append, List.length_replicate]; omega
             have ht' := ht.push (by omega) c
             rw [hk, ← hx, ← hk] at ht'
             exact ht'.withCounts _ _)
          | (show (0 : Pos).toNat = _
             simp)
    · simp only [if_true] at hrun ⊢
      by_cases hc : (isSym c || isPad c) = true
      · rw [decPutLenient_char c s hc]
        first
          | (rw [pre_lenient_snoc, if_pos hc]; exact (h.sig.push (by omega) c).withCounts _ _)
          | exact hrun
      · rw [decPutLenient, if_neg hc]
        first
          | (rw [pre_lenient_snoc, if_neg hc, List.append_nil]; exact h.sig.withCounts (s.puts + 1) s.nlrun)
          | exact hrun

/-- A sequence of `PUT`s in an open decode invocation: it is refused for the capacity, or it goes on and has pushed nothing (R7 (b), R151, R152). -/
theorem execAll_puts_decode (x : List Byte) (s : State) (ig : Bool) (raw : List Byte) (h : DecodeOpen s ig raw)
    (hl : (raw ++ x).length < 2 ^ 64) (hf : s.obufFits = true) :
    (∃ t, execAll (putsProgram x) s = .next t ∧ DecodeOpen t ig (raw ++ x) ∧ t.out = s.out ∧ t.fault = s.fault ∧
      t.obufCap = s.obufCap ∧ t.obufFits = true) ∨
    (execAll (putsProgram x) s = .refused .obufCapExceeded ∧ ∃ c ∈ s.obufCap, c < obufPeak (raw ++ x) ig) := by
  induction x generalizing s raw with
  | nil => exact .inl ⟨s, rfl, by simpa using h, rfl, rfl, rfl, hf⟩
  | cons b x ih =>
    have hl1 : raw.length + 1 < 2 ^ 64 := by
      simp only [List.length_append, List.length_cons] at hl; omega
    have hput := h.put hl1 b
    have hx : execAll (putsProgram (b :: x)) s =
        andThen (admitObuf (decPut b s.countPut)) (execAll (putsProgram x)) := by
      simp [putsProgram, execAll, exec_put_dec b h.phase (h.admitted hl1)]
    have hraw : raw ++ b :: x = (raw ++ [b]) ++ x := by simp
    have hcap : (decPut b s.countPut).obufCap = s.obufCap := by rw [decPut_frame]; rfl
    by_cases hfit : (decPut b s.countPut).obufFits = true
    · rw [hx, admitObuf_of_fits hfit, andThen_next, hraw]
      rcases ih _ _ hput (by rw [← hraw]; exact hl) hfit with ⟨t, t1, t2, t3, t4, t5, t6⟩ | ⟨t1, c, hc, hlt⟩
      · refine .inl ⟨t, t1, t2, t3.trans ?_, t4.trans ?_, t5.trans hcap, t6⟩
        · rw [decPut_frame]; rfl
        · rw [decPut_frame]; rfl
      · exact .inr ⟨t1, c, hcap ▸ hc, hlt⟩
    · right
      refine ⟨by rw [hx, admitObuf, if_neg hfit]; rfl, ?_⟩
      rw [obufFits_iff, hcap] at hfit
      simp only [not_forall, not_le] at hfit
      obtain ⟨c, hc, hlt⟩ := hfit
      refine ⟨c, hc, lt_of_lt_of_le hlt ?_⟩
      rw [hraw]
      exact hput.sig.obuf_le_peak (pre_prefix _ _ _)

/-- What `END` finds: an incomplete group, or whole groups whose last one is closed as final; what it answers, and the bytes `OBUF` holds at that moment (R150, R152). -/
theorem DecodeOpen.atEnd {s : State} {ig : Bool} {x : List Byte} (h : DecodeOpen s ig x) :
    (s.gcnt ≠ 0 ∧ s.gcnt ≠ 8 ∧ decodeBytes x ig = .err .invalidLength (8 * ((pre x ig).length / 8)) ∧
      (s.n - BitVec.ofNat 64 s.gcnt.val).toNat = 8 * ((pre x ig).length / 8) ∧ s.obuf.length = obufPeak x ig) ∨
    ((s.gcnt = 0 ∨ s.gcnt = 8) ∧ (closeIfFull true s).obuf.length = obufPeak x ig ∧
      match decodeBytes x ig with
      | .ok y => (closeIfFull true s).obuf = y ∧ (closeIfFull true s).elatV = false
      | .err kind pos => (closeIfFull true s).elatV = true ∧ (closeIfFull true s).elatKind = kind.kind ∧
          (closeIfFull true s).elatPos.toNat = pos) := by
  obtain ⟨closed, window, e, t, w⟩ := h.sig
  have hg := t.gcnt
  have hlt := s.gcnt.isLt
  have hal := t.aligned
  by_cases h0 : window.length = 0
  · have hwin : window = [] := List.length_eq_zero_iff.1 h0
    have hclosed := w hwin
    have hpre : pre x ig = [] := by rw [e, hwin, hclosed]; rfl
    have g0 : s.gcnt = 0 := Fin.ext (by rw [hg, h0]; rfl)
    have hcl : closeIfFull true s = s := if_neg (by rw [g0]; decide)
    have hob := t.bytes
    have hla := t.latch
    simp only [hclosed, scanGroups_short false 0 [] (by simp)] at hob hla
    refine .inr ⟨.inl g0, ?_, ?_⟩
    · rw [hcl, hob]; simp [obufPeak, hpre, scanGroups_short]
    · have hd : decodeBytes x ig = .ok [] := by simp [decodeBytes, hpre, coreDecode, scanGroups_short]
      rw [hd, hcl]; exact ⟨hob, hla⟩
  · by_cases h8 : window.length = 8
    · have g8 : s.gcnt = 8 := Fin.ext (by rw [hg, h8]; rfl)
      have hcl : closeIfFull true s = closeWindow true s := if_pos g8
      obtain ⟨k1, k2⟩ := closeWindow_track true t h8
      have hmod : (pre x ig).length % 8 = 0 := by rw [e, List.length_append, h8]; omega
      rw [← e] at k1 k2
      refine .inr ⟨.inr g8, ?_, ?_⟩
      · rw [hcl, k1]; simp [obufPeak, hmod]
      · rw [hcl, decodeBytes, coreDecode, if_neg (by simp [hmod])]
        rcases hs : scanGroups true 0 (pre x ig) with ⟨bytes, _ | ⟨kind, pos⟩⟩
        · rw [hs] at k1 k2; exact ⟨k1, k2⟩
        · rw [hs] at k2; exact k2
    · have g0 : s.gcnt ≠ 0 := fun hh => h0 (by rw [← hg, hh]; rfl)
      have g8 : s.gcnt ≠ 8 := fun hh => h8 (by rw [← hg, hh]; rfl)
      have hlen : (pre x ig).length = closed.length + window.length := by rw [e, List.length_append]
      have hmod : (pre x ig).length % 8 ≠ 0 := by rw [hlen]; omega
      have hdiv : 8 * ((pre x ig).length / 8) = closed.length := by rw [hlen]; omega
      refine .inl ⟨g0, g8, ?_, ?_, ?_⟩
      · rw [decodeBytes, coreDecode, if_pos hmod]
      · have hn := t.count
        have h64 := s.n.isLt
        rw [hdiv, BitVec.toNat_sub, BitVec.toNat_ofNat, hg]
        omega
      · have hp : (scanGroups ((pre x ig).length % 8 == 0) 0 (pre x ig)).1 = (scanGroups false 0 closed).1 := by
          rw [show ((pre x ig).length % 8 == 0) = false by simpa using hmod, e,
            scanGroups_append false 0 closed window hal (.inr rfl)]
          rcases scanGroups false 0 closed with ⟨bytes, _ | k⟩
          · simp [scanGroups_short false _ window (by omega)]
          · rfl
        rw [t.bytes, obufPeak, hp]

/-- `DEC` and a sequence of `PUT`s from `IDLE` (R152), or its refusal for the capacity (R7 (b)). -/
theorem execAll_decode_open (s : State) (ig : Bool) (x : List Byte) (hp : s.phase = .idle) (hx : x.length < 2 ^ 64) :
  (∃ t, execAll (.dec ig :: putsProgram x) s = .next t ∧ DecodeOpen t ig x ∧ t.out = s.out ∧ t.fault = s.fault ∧
      t.obufCap = s.obufCap ∧ t.obufFits = true) ∨
    (execAll (.dec ig :: putsProgram x) s = .refused .obufCapExceeded ∧ ∃ c ∈ s.obufCap, c < obufPeak x ig) := by
  rw [execAll, exec_dec_idle ig hp, andThen_next]
  generalize hv : ({ s.startInvocation with ww := 0, ig := ig, phase := .dec } : State) = v
  have hd : DecodeOpen v ig [] := by subst hv; exact decodeOpen_start _ _ rfl rfl rfl rfl rfl rfl rfl rfl
  have hf : v.obufFits = true := by rw [obufFits_iff]; subst hv; intro c _; simp
  have e1 : v.out = s.out := by subst hv; rfl
  have e2 : v.fault = s.fault := by subst hv; rfl
  have e3 : v.obufCap = s.obufCap := by subst hv; rfl
  have := execAll_puts_decode x v ig [] hd (by simpa using hx) hf
  rw [e1, e2, e3] at this
  simpa using this

/-- `END` of an open decode invocation, in terms of `DECODE` (R150, R152), and its refusal for the capacity. -/
theorem exec_end_decodeOpen (s : State) (ig : Bool) (x : List Byte) (hd : DecodeOpen s ig x) (hf : s.obufFits = true) :
  ((∀ c ∈ s.obufCap, obufPeak x ig ≤ c) → ∃ t, exec .endInv s = .next t ∧ t.phase = .idle ∧ t.done = true ∧ t.fault = s.fault ∧
      (∀ y, decodeBytes x ig = .ok y → t.out = s.out ++ y ∧ t.errKind = .noError ∧ t.errPos = 0) ∧
      (∀ kind pos, decodeBytes x ig = .err kind pos →
        t.out = s.out ∧ t.errKind = kind.kind ∧ t.errPos.toNat = pos)) ∧
  (∀ c ∈ s.obufCap, c < obufPeak x ig → exec .endInv s = .refused .obufCapExceeded) := by
  rcases hd.atEnd with ⟨h0, h8, hde, hpos, hpk⟩ | ⟨hg, hpk, hres⟩
  · rw [exec_end_dec_length hd.phase h0 h8]
    refine ⟨fun _ => ⟨_, rfl, rfl, rfl, rfl, ?_, ?_⟩, ?_⟩
    · intro y hy; rw [hde] at hy; cases hy
    · intro k p hk; rw [hde] at hk; cases hk; exact ⟨rfl, rfl, hpos⟩
    · intro c hc hlt; rw [obufFits_iff] at hf; have := hf c hc; omega
  · rw [exec_end_dec_whole hd.phase hg, closeIfFull_dropRun]
    obtain ⟨o, v, k, p, g, he⟩ : ∃ o v k p g, closeIfFull true s = {s with gcnt := g, obuf := o, elatV := v, elatKind := k, elatPos := p} := ⟨_, _, _, _, _, closeIfFull_frame true s⟩
    rw [he] at hpk hres ⊢
    simp only at hpk hres
    refine ⟨?_, ?_⟩
    · intro hc
      rw [admitObuf_of_fits (by rw [obufFits_iff]; intro c h; simp only; rw [hpk]; exact hc c h), andThen_next]
      cases hdb : decodeBytes x ig with
      | ok y =>
        rw [hdb] at hres
        obtain ⟨rfl, rfl⟩ := hres
        refine ⟨_, rfl, rfl, rfl, rfl, ?_, ?_⟩
        · rintro y h; cases h; exact ⟨rfl, rfl, rfl⟩
        · rintro k p h; cases h
      | err kind pos =>
        rw [hdb] at hres
        obtain ⟨rfl, rfl, h3⟩ := hres
        refine ⟨_, rfl, rfl, rfl, rfl, ?_, ?_⟩
        · rintro y h; cases h
        · rintro k p h; cases h; exact ⟨rfl, rfl, h3⟩
    · intro c hc hlt
      rw [admitObuf, if_neg]; rfl
      rw [obufFits_iff]; intro h; have := h c hc; simp only at this; omega

end Sys2Proof.Machine
end

