-- ==== Sys2Proof/Laws/Errors.lean ====
section
/-! SUPPORT. Which error a group and a stream of groups give, and where (60_exceptions.md R166, R167, R171). -/

namespace Sys2Proof.Machine

/-! ### One group -/

/-- The character at index `k` of the group `g` is not permitted there (R104, R167). -/
def BadInGroup (final : Bool) (g : List Byte) (k : Nat) : Prop :=
  ∃ c, g[k]? = some c ∧
    ((isSym c = false ∧ isPad c = false) ∨ (isSym c = true ∧ ∃ j, j < k ∧ g[j]? = some Config.pad) ∨
      (isPad c = true ∧ final = false))

theorem not_isPad_of_isSym {c : Byte} (h : isSym c = true) : isPad c = false := by
  by_contra hp
  exact isSym_ne_pad h ((isPad_iff c).1 (by simpa using hp))

theorem not_badInGroup_of_length_le {final : Bool} {g : List Byte} {k : Nat} (h : g.length ≤ k) :
    ¬ BadInGroup final g k := by
  rintro ⟨c, hc, -⟩
  rw [List.getElem?_eq_none h] at hc
  cases hc

/-- What the character tests find, the characters `q` behind them (R104). -/
theorem scanGroup_finds (final : Bool) (cs q : List Byte) (p : Nat) (vals : List Sym5) (hp : 0 < p ↔ Config.pad ∈ q) :
    match scanGroup final cs q.length p vals with
    | .error j => BadInGroup final (q ++ cs) j ∧ ∀ k, q.length ≤ k → k < j → ¬ BadInGroup final (q ++ cs) k
    | .ok _ => ∀ k, q.length ≤ k → ¬ BadInGroup final (q ++ cs) k := by
  induction cs generalizing q p vals with
  | nil =>
    intro k hk
    exact not_badInGroup_of_length_le (by simpa using hk)
  | cons c cs ih =>
    have hget : (q ++ c :: cs)[q.length]? = some c := by simp
    have hpad : (0 < p) ↔ ∃ j, j < q.length ∧ (q ++ c :: cs)[j]? = some Config.pad := by
      rw [hp, List.mem_iff_getElem?]
      constructor
      · rintro ⟨j, hj⟩
        have hl : j < q.length := by
          by_contra hn
          rw [List.getElem?_eq_none (by omega)] at hj; cases hj
        exact ⟨j, hl, by rw [List.getElem?_append_left hl]; exact hj⟩
      · rintro ⟨j, hl, hj⟩
        exact ⟨j, by rw [List.getElem?_append_left hl] at hj; exact hj⟩
    have hnone : ∀ k, q.length ≤ k → k < q.length → ¬ BadInGroup final (q ++ c :: cs) k := fun k h1 h2 => by omega
    have hstep : ∀ (p' : Nat) (vals' : List Sym5), (0 < p' ↔ Config.pad ∈ q ++ [c]) →
        ¬ BadInGroup final (q ++ c :: cs) q.length →
        match scanGroup final cs (q.length + 1) p' vals' with
        | .error j => BadInGroup final (q ++ c :: cs) j ∧
            ∀ k, q.length ≤ k → k < j → ¬ BadInGroup final (q ++ c :: cs) k
        | .ok _ => ∀ k, q.length ≤ k → ¬ BadInGroup final (q ++ c :: cs) k := by
      intro p' vals' hp' hok
      have h := ih (q ++ [c]) p' vals' hp'
      rw [List.length_append, List.length_singleton, List.append_assoc, List.singleton_append] at h
      cases hs : scanGroup final cs (q.length + 1) p' vals' with
      | error j =>
        rw [hs] at h
        refine ⟨h.1, fun k h1 h2 => ?_⟩
        rcases Nat.eq_or_lt_of_le h1 with rfl | h3
        · exact hok
        · exact h.2 k h3 h2
      | ok r =>
        rw [hs] at h
        intro k h1
        rcases Nat.eq_or_lt_of_le h1 with rfl | h3
        · exact hok
        · exact h k h3
    unfold scanGroup
    by_cases h1 : isSym c = true
    · have h2 := not_isPad_of_isSym h1
      have hcp : c ≠ Config.pad := isSym_ne_pad h1
      rw [if_pos h1]
      by_cases h3 : p > 0
      · rw [if_pos h3]
        exact ⟨⟨c, hget, .inr (.inl ⟨h1, hpad.1 h3⟩)⟩, hnone⟩
      · rw [if_neg h3]
        refine hstep p _ ?_ ?_
        · simp [hp, Ne.symm hcp]
        · rintro ⟨d, hd, hb⟩
          rw [hget] at hd; cases hd
          rcases hb with ⟨a, -⟩ | ⟨-, a⟩ | ⟨a, -⟩
          · simp [h1] at a
          · exact h3 (hpad.2 a)
          · simp [h2] at a
    · rw [if_neg h1]
      have h1' : isSym c = false := by simpa using h1
      by_cases h2 : isPad c = true
      · rw [if_pos h2]
        have hcp : c = Config.pad := (isPad_iff c).1 h2
        cases final
        · exact ⟨⟨c, hget, .inr (.inr ⟨h2, rfl⟩)⟩, hnone⟩
        · refine hstep (p + 1) vals ?_ ?_
          · simp [hcp]
          · rintro ⟨d, hd, hb⟩
            rw [hget] at hd; cases hd
            rcases hb with ⟨-, a⟩ | ⟨a, -⟩ | ⟨-, a⟩
            · simp [h2] at a
            · simp [h1'] at a
            · cases a
      · rw [if_neg h2]
        exact ⟨⟨c, hget, .inl ⟨h1', by simpa using h2⟩⟩, hnone⟩

/-- What `DEC_GROUP` answers (R104): bytes and no bad character; or the first bad character; or, with none, an illegal count of trailing pads after symbols. -/
theorem decGroup_finds (final : Bool) (g : List Byte) :
    match decGroup g final with
    | .ok _ => ∀ k, ¬ BadInGroup final g k
    | .err .invalidCharacter i => BadInGroup final g i ∧ ∀ k < i, ¬ BadInGroup final g k
    | .err .invalidLength i => (∀ k, ¬ BadInGroup final g k) ∧
        ∃ (vs : List Sym5) (p : Nat), g = vs.map sym ++ List.replicate p Config.pad ∧ (p = 0 ∨ final = true) ∧
          nbytes p = none ∧ i = 8 - p := by
  have h := scanGroup_finds final g [] 0 [] (by simp)
  simp only [List.length_nil, List.nil_append, Nat.zero_le, forall_const] at h
  unfold decGroup
  cases hs : scanGroup final g 0 0 [] with
  | error j => rw [hs] at h; exact h
  | ok r =>
    obtain ⟨p, vals⟩ := r
    rw [hs] at h
    obtain ⟨vs, k, e1, -, e3, e4, -⟩ := scanGroup_eq_ok hs
    have hpk : p = k := by omega
    subst hpk
    cases hn : nbytes p with
    | none => simp only [hn]; exact ⟨h, vs, p, e1, e4, hn, rfl⟩
    | some n => simp only [hn]; exact h

/-! ### The groups of a stream -/

theorem badCharacter_append (g rest : List Byte) (hg : g.length = 8) (k : Nat) :
    BadCharacter (g ++ rest) k ↔
      if k < 8 then BadInGroup rest.isEmpty g k else BadCharacter rest (k - 8) := by
  split
  next h =>
    have hk : k / 8 = 0 := by omega
    have hget : ∀ j, j ≤ k → (g ++ rest)[j]? = g[j]? := fun j hj => List.getElem?_append_left (by omega)
    have hfin : 8 * (k / 8) + 8 < (g ++ rest).length ↔ rest.isEmpty = false := by
      rw [hk, List.length_append, hg, List.isEmpty_eq_false_iff, ← List.length_pos_iff]; omega
    unfold BadCharacter BadInGroup
    rw [hget k le_rfl, hfin]
    constructor
    · rintro ⟨c, hc, h1 | ⟨h1, j, h2, -, h4⟩ | h1⟩
      · exact ⟨c, hc, .inl h1⟩
      · exact ⟨c, hc, .inr (.inl ⟨h1, j, h2, by rw [← hget j (by omega)]; exact h4⟩)⟩
      · exact ⟨c, hc, .inr (.inr h1)⟩
    · rintro ⟨c, hc, h1 | ⟨h1, j, h2, h4⟩ | h1⟩
      · exact ⟨c, hc, .inl h1⟩
      · exact ⟨c, hc, .inr (.inl ⟨h1, j, h2, by omega, by rw [hget j (by omega)]; exact h4⟩)⟩
      · exact ⟨c, hc, .inr (.inr h1)⟩
  next h =>
    have hget : ∀ j, 8 ≤ j → (g ++ rest)[j]? = rest[j - 8]? := fun j hj => by
      rw [List.getElem?_append_right (by omega), hg]
    have hfin : 8 * (k / 8) + 8 < (g ++ rest).length ↔ 8 * ((k - 8) / 8) + 8 < rest.length := by
      rw [List.length_append, hg]; omega
    unfold BadCharacter
    rw [hget k (by omega), hfin]
    constructor
    · rintro ⟨c, hc, h1 | ⟨h1, j, h2, h3, h4⟩ | h1⟩
      · exact ⟨c, hc, .inl h1⟩
      · exact ⟨c, hc, .inr (.inl ⟨h1, j - 8, by omega, by omega, by rw [← hget j (by omega)]; exact h4⟩)⟩
      · exact ⟨c, hc, .inr (.inr h1)⟩
    · rintro ⟨c, hc, h1 | ⟨h1, j, h2, h3, h4⟩ | h1⟩
      · exact ⟨c, hc, .inl h1⟩
      · exact ⟨c, hc, .inr (.inl ⟨h1, j + 8, by omega, by omega, by rw [hget (j + 8) (by omega)]; exact h4⟩)⟩
      · exact ⟨c, hc, .inr (.inr h1)⟩

/-- What the groups of a whole stream give, the last one final (R107): no bad character; or the first one; or, with none, an illegal count of pads at the end of the final group. -/
theorem scanGroups_finds (base : Nat) (s : List Byte) (hs : s.length % 8 = 0) :
    match (scanGroups true base s).2 with
    | none => ∀ k, ¬ BadCharacter s k
    | some (.invalidCharacter, pos) => base ≤ pos ∧ BadCharacter s (pos - base) ∧ ∀ k < pos - base, ¬ BadCharacter s k
    | some (.invalidLength, pos) => base ≤ pos ∧ (∀ k, ¬ BadCharacter s k) ∧
        ∃ (front : List Byte) (vs : List Sym5) (p : Nat), s = front ++ (vs.map sym ++ List.replicate p Config.pad) ∧
          (vs.map sym ++ List.replicate p Config.pad).length = 8 ∧ nbytes p = none ∧
          pos = base + front.length + (8 - p) := by
  induction s using windowInduction generalizing base with
  | short s h =>
    obtain rfl : s = [] := by rw [← List.length_eq_zero_iff]; omega
    simp [scanGroups_short, BadCharacter]
  | group g rest hg ih =>
    have hr : rest.length % 8 = 0 := by simp at hs; omega
    have hbad := badCharacter_append g rest hg
    rw [scanGroups_group true base g rest hg, Bool.true_and]
    have hd := decGroup_finds rest.isEmpty g
    have hlong : ∀ k, 8 ≤ k → ¬ BadInGroup rest.isEmpty g k := fun k hk => not_badInGroup_of_length_le (by omega)
    cases hdg : decGroup g rest.isEmpty with
    | err kind i =>
      have hi := decGroup_err_lt hg hdg
      rw [hdg] at hd
      cases kind with
      | invalidCharacter =>
        simp only at hd ⊢
        refine ⟨by omega, ?_, fun k hk => ?_⟩
        · rw [hbad, Nat.add_sub_cancel_left, if_pos hi]; exact hd.1
        · rw [hbad, if_pos (by omega)]; exact hd.2 k (by omega)
      | invalidLength =>
        simp only at hd ⊢
        obtain ⟨h1, vs, p, e1, e2, e3, e4⟩ := hd
        have hrest : rest = [] := by
          rcases e2 with rfl | e2
          · simp [nbytes] at e3
          · simpa using e2
        subst hrest
        refine ⟨by omega, fun k => ?_, [], vs, p, by simp [e1], by rw [← e1]; exact hg, e3, by simp [e4]⟩
        rw [hbad]
        split
        · exact h1 k
        · simp [BadCharacter]
    | ok bytes =>
      rw [hdg] at hd
      have h := ih (base + 8) hr
      simp only at hd ⊢
      rcases hsr : (scanGroups true (base + 8) rest).2 with _ | ⟨_ | _, pos⟩
      · rw [hsr] at h
        intro k
        rw [hbad]
        split
        · exact hd k
        · exact h _
      · rw [hsr] at h
        obtain ⟨h1, h2, front, vs, p, e1, e2, e3, e4⟩ := h
        refine ⟨by omega, fun k => ?_, g ++ front, vs, p, by rw [e1, List.append_assoc], e2, e3, ?_⟩
        · rw [hbad]
          split
          · exact hd k
          · exact h2 _
        · rw [List.length_append, hg]; omega
      · rw [hsr] at h
        obtain ⟨h1, h2, h3⟩ := h
        refine ⟨by omega, ?_, fun k hk => ?_⟩
        · rw [hbad, if_neg (by omega), show pos - base - 8 = pos - (base + 8) by omega]; exact h2
        · rw [hbad]
          split
          · exact hd k
          · exact h3 _ (by omega)

end Sys2Proof.Machine
end

