-- ==== Sys2Proof/Laws/Invocation.lean ====
section
/-! SUPPORT. What a sequence of `PUT`s and an `END` do in an open invocation of either direction, in terms of the codec functions (42_encode_path.md R134, 43_decode_path.md R152). -/

namespace Sys2Proof.Machine

/-! ### Encode -/

/-- How many of `n` held or received bytes stand in whole groups of five. -/
abbrev wholeGroups (n : Nat) : Nat := 5 * (n / 5)

/-- Emitting a group empties the group buffer and leaves the width alone; the rest goes through the wrap stage (R131, R132). -/
theorem emitGroup_spec (b : List Byte) (s : State) (h : s.ColumnOk) :
    (emitGroup b s).ebufBytes = [] ∧
    (emitGroup b s).out = s.out ++ wrapStage s.ww.toNat s.col.toNat (encGroup b) ∧
    (emitGroup b s).col.toNat = stageColumn s.ww.toNat s.col.toNat (encGroup b) ∧
    (emitGroup b s).any = true ∧ (emitGroup b s).ColumnOk ∧ (emitGroup b s).ww = s.ww ∧ (emitGroup b s).puts = s.puts := by
  obtain ⟨e1, e2, e3, e4⟩ := emitAll_spec (encGroup b) s h
  obtain ⟨o, a, c, he⟩ : ∃ o a c, emitAll (encGroup b) s = { s with out := o, any := a, col := c } :=
    ⟨_, _, _, emitAll_frame _ _⟩
  have hem : (encGroup b).isEmpty = false := by
    rw [List.isEmpty_eq_false_iff, ← List.length_pos_iff, encGroup_length]; omega
  rw [he] at e1 e2 e3 e4
  have hg : emitGroup b s = { s with out := o, any := a, col := c, ecnt := 0 } := by
    rw [emitGroup, he]
  rw [hg]
  exact ⟨by simp [State.ebufBytes], e1, e2, by simpa [hem] using e4, e3, rfl, rfl⟩

/-- `PUT` in phase `ENC`, the group buffer and the output seen as lists (R132). -/
theorem encPut_spec (b : Byte) (s : State) (h : s.ColumnOk) :
    (s.ebufBytes.length < 4 → (encPut b s).ebufBytes = s.ebufBytes ++ [b] ∧ (encPut b s).out = s.out ∧
      (encPut b s).col = s.col ∧ (encPut b s).any = s.any) ∧
    (s.ebufBytes.length = 4 → (encPut b s).ebufBytes = [] ∧
      (encPut b s).out = s.out ++ wrapStage s.ww.toNat s.col.toNat (encGroup (s.ebufBytes ++ [b])) ∧
      (encPut b s).col.toNat = stageColumn s.ww.toNat s.col.toNat (encGroup (s.ebufBytes ++ [b])) ∧
      (encPut b s).any = true) ∧
    (encPut b s).ColumnOk ∧ (encPut b s).ww = s.ww := by
  have hl := ebufBytes_length s
  have hlt := s.ecnt.isLt
  by_cases hc : s.ecnt.val < 4
  · have he : encPut b s = s.storeEbuf b hc := dif_pos hc
    rw [he]
    refine ⟨fun _ => ⟨ebufBytes_storeEbuf b s hc, rfl, rfl, rfl⟩, fun h4 => by omega, h, rfl⟩
  · have he : encPut b s = emitGroup (s.ebufBytes ++ [b]) s := by
      rw [encPut, dif_neg hc, ebufBytes_full s hc]
    obtain ⟨e0, e1, e2, e3, e4, e5, -⟩ := emitGroup_spec (s.ebufBytes ++ [b]) s h
    rw [he]
    exact ⟨fun h4 => by omega, fun _ => ⟨e0, e1, e2, e3⟩, e4, e5⟩

/-- `END` in phase `ENC`: the final partial group, then the trailing line break (R133). -/
theorem encEnd_out (s : State) (h : s.ColumnOk) :
    (encEnd s).out = s.out ++ wrapStage s.ww.toNat s.col.toNat (encodeBytes s.ebufBytes) ++
      (if s.ww ≠ 0 ∧ stageColumn s.ww.toNat s.col.toNat (encodeBytes s.ebufBytes) = 0 ∧ (s.any = true ∨ s.ebufBytes ≠ [])
        then [] else [Config.lf]) := by
  have hl := ebufBytes_length s
  have hlt := s.ecnt.isLt
  have key : ∀ u : State, u.ww = s.ww → u.ColumnOk →
      (u.noErrorResult.out = u.out) ∧
      ((if u.trailingLf then u.pushOut Config.lf else u).noErrorResult.out = u.out ++
        (if s.ww ≠ 0 ∧ u.col.toNat = 0 ∧ u.any = true then [] else [Config.lf])) := by
    intro u hw _
    refine ⟨rfl, ?_⟩
    have hz : u.col.toNat = 0 ↔ u.col = 0#32 := by rw [← BitVec.toNat_inj]; simp
    by_cases h0 : s.ww = 0#32
    · simp [State.trailingLf, hw, h0]
    · by_cases h1 : u.col = 0#32
      · cases ha : u.any <;> simp [State.trailingLf, hw, h0, h1, ha]
      · have : ¬ u.col.toNat = 0 := fun hh => h1 (hz.1 hh)
        simp [State.trailingLf, hw, h0, h1, this]
  unfold encEnd
  by_cases hc : 0 < s.ecnt.val
  · obtain ⟨e0, e1, e2, e3, e4, e5, -⟩ := emitGroup_spec s.ebufBytes s h
    have hne : s.ebufBytes ≠ [] := by rw [← List.length_pos_iff]; omega
    have hen : encodeBytes s.ebufBytes = encGroup s.ebufBytes := encodeBytes_short _ (by omega) (by omega)
    simp only [if_pos hc]
    rw [(key (emitGroup s.ebufBytes s) e5 e4).2, e1, e2, e3, hen]
    simp [hne]
  · have hne : s.ebufBytes = [] := by rw [← List.length_eq_zero_iff]; omega
    simp only [if_neg hc]
    rw [(key s rfl h).2]
    simp [hne]

/-- A sequence of `PUT`s in an open encode invocation (R134). -/
theorem execAll_puts_encode (x : List Byte) (s : State) (hp : s.phase = .enc) (hc : s.ColumnOk)
    (hb : s.puts + x.length < 2 ^ 64) (hany : s.any = false → s.col = 0) :
    ∃ t, execAll (putsProgram x) s = .next t ∧ t.phase = .enc ∧ t.ww = s.ww ∧ t.fault = s.fault ∧ t.ColumnOk ∧
      (t.any = false → t.col = 0) ∧
      t.ebufBytes = (s.ebufBytes ++ x).drop (wholeGroups (s.ebufBytes ++ x).length) ∧
      t.out = s.out ++ wrapStage s.ww.toNat s.col.toNat
        (encodeBytes ((s.ebufBytes ++ x).take (wholeGroups (s.ebufBytes ++ x).length))) ∧
      t.col.toNat = stageColumn s.ww.toNat s.col.toNat
        (encodeBytes ((s.ebufBytes ++ x).take (wholeGroups (s.ebufBytes ++ x).length))) ∧
      t.any = (s.any || decide (0 < wholeGroups (s.ebufBytes ++ x).length)) := by
  induction x generalizing s with
  | nil =>
    have hl := ebufBytes_length s
    have hlt := s.ecnt.isLt
    have hw : wholeGroups (s.ebufBytes ++ []).length = 0 := by simp [wholeGroups]; omega
    refine ⟨s, rfl, hp, rfl, rfl, hc, hany, ?_⟩
    rw [hw]; simp
  | cons b x ih =>
    have hl := ebufBytes_length s
    have hlt := s.ecnt.isLt
    simp only [List.length_cons] at hb
    have ha : s.putAdmitted = true := by simp [State.putAdmitted, hp, Config.posBits]; omega
    have hx : execAll (putsProgram (b :: x)) s = execAll (putsProgram x) (encPut b s.countPut) := by
      simp [putsProgram, execAll, exec_put_enc b hp ha]
    obtain ⟨hsmall, hfull, hcol, hww⟩ := encPut_spec b s.countPut hc
    obtain ⟨hf, -, -, hph⟩ := encPut_env b s.countPut
    have hputs : (encPut b s.countPut).puts = s.puts + 1 := by
      unfold encPut
      split
      · rfl
      · exact (emitGroup_spec _ s.countPut hc).2.2.2.2.2.2
    have hany' : (encPut b s.countPut).any = false → (encPut b s.countPut).col = 0 := by
      by_cases h4 : s.ebufBytes.length < 4
      · obtain ⟨-, -, h3, h4⟩ := hsmall h4
        rw [h3, h4]; exact hany
      · obtain ⟨-, -, -, h4⟩ := hfull (show s.countPut.ebufBytes.length = 4 by have : s.countPut.ebufBytes = s.ebufBytes := rfl; rw [this]; omega)
        rw [h4]; simp
    obtain ⟨t, t1, t2, t3, t4, t5, t6, t7, t8, t9, t10⟩ :=
      ih (encPut b s.countPut) (hph.trans hp) hcol (by rw [hputs]; omega) hany'
    refine ⟨t, hx.trans t1, t2, t3.trans hww, t4.trans hf, t5, t6, ?_⟩
    by_cases h4 : s.ebufBytes.length < 4
    · obtain ⟨g1, g2, g3, g4⟩ := hsmall h4
      have hb' : (encPut b s.countPut).ebufBytes ++ x = s.ebufBytes ++ b :: x := by
        rw [g1]; simp [State.ebufBytes]
      rw [hb'] at t7 t8 t9 t10
      rw [hww, g2, g3] at t8
      rw [hww, g3] at t9
      rw [g4] at t10
      exact ⟨t7, t8, t9, t10⟩
    · have h4' : s.countPut.ebufBytes.length = 4 := by
        have : s.countPut.ebufBytes = s.ebufBytes := rfl
        rw [this]; omega
      obtain ⟨g1, g2, g3, g4⟩ := hfull h4'
      rw [g1, List.nil_append] at t7 t8 t9 t10
      have hg : (s.ebufBytes ++ [b]).length = 5 := by simp; omega
      have hs : s.ebufBytes ++ b :: x = (s.ebufBytes ++ [b]) ++ x := by simp
      have hk : wholeGroups (s.ebufBytes ++ b :: x).length = (s.ebufBytes ++ [b]).length + wholeGroups x.length := by
        rw [hs, List.length_append, hg]; simp only [wholeGroups]; omega
      rw [hk, hs, List.drop_append, List.take_append, Nat.add_sub_cancel_left, List.drop_eq_nil_of_le (Nat.le_add_right _ _),
        List.take_of_length_le (Nat.le_add_right _ _), List.nil_append, encodeBytes_group _ _ hg,
        wrapStage_append, stageColumn_append]
      have e1 : s.countPut.ebufBytes = s.ebufBytes := rfl
      have e2 : s.countPut.out = s.out := rfl
      have e3 : s.countPut.col = s.col := rfl
      have e4 : s.countPut.ww = s.ww := rfl
      rw [e1, e3, e4] at g3
      rw [e1, e2, e3, e4] at g2
      rw [hww, g2, g3, e4, List.append_assoc] at t8
      rw [hww, g3, e4] at t9
      refine ⟨t7, t8, t9, ?_⟩
      rw [t10, g4]
      simp

/-- `ENC` and a sequence of `PUT`s from `IDLE` (R134). -/
theorem execAll_encode_open (s : State) (width : Width) (x : List Byte) (hp : s.phase = .idle) (hx : x.length < 2 ^ 64) :
  ∃ u, execAll (.enc width :: putsProgram x) s = .next u ∧ u.phase = .enc ∧ u.ww = width ∧ u.fault = s.fault ∧ u.ColumnOk ∧
      u.ebufBytes = x.drop (wholeGroups x.length) ∧
      u.out = s.out ++ wrapStage width.toNat 0 (encodeBytes (x.take (wholeGroups x.length))) ∧
      u.col.toNat = stageColumn width.toNat 0 (encodeBytes (x.take (wholeGroups x.length))) ∧
      u.any = decide (0 < wholeGroups x.length) := by
  rw [execAll, exec_enc_idle width hp, andThen_next]
  generalize hv : ({ s.startInvocation with ww := width, ig := false, phase := .enc } : State) = v
  have hcol : v.ColumnOk := by
    subst hv
    by_cases h : width = 0#32
    · left; exact h
    · right; show (0 : Width) < width; rw [BitVec.lt_def]; simp; exact Nat.pos_of_ne_zero (fun h' => h (BitVec.eq_of_toNat_eq (by simpa using h')))
  have he : v.ebufBytes = [] := by subst hv; simp [State.ebufBytes]
  obtain ⟨t, a1, a2, a3, a4, a5, a6, a7, a8, a9, a10⟩ := execAll_puts_encode x v (by subst hv; rfl) hcol (by subst hv; simpa using hx) (by subst hv; intro _; rfl)
  rw [he, List.nil_append] at a7 a8 a9 a10
  have e1 : v.ww = width := by subst hv; rfl
  have e2 : v.col = 0 := by subst hv; rfl
  have e3 : v.out = s.out := by subst hv; rfl
  have e4 : v.any = false := by subst hv; rfl
  have e5 : v.fault = s.fault := by subst hv; rfl
  rw [e1, e2] at a8 a9
  rw [e4] at a10
  exact ⟨t, a1, a2, a3.trans e1, a4.trans e5, a5, a7, by rw [a8, e3]; rfl, a9, by simpa using a10⟩

/-- The wrap stage from column 0 is `WRAP'` (R134). -/
theorem wrapStage_zero (w : Nat) (s : List Byte) : wrapStage w 0 s = wrapOpen s w := by
  unfold wrapStage
  split
  · simp [wrapOpen, *]
  · rw [wrapOpen_eq_wrapFrom]; omega

/-- `WRAP` is the wrap stage from column 0 and the trailing line break of `END` (R100, R133). -/
theorem wrap_eq_wrapStage (w : Nat) (s : List Byte) : wrap s w = wrapStage w 0 s ++ 
  (if w ≠ 0 ∧ stageColumn w 0 s = 0 ∧ s ≠ [] then [] else [Config.lf]) := by
  by_cases h : w = 0
  · subst h; simp [wrap_zero, wrapStage]
  · have := wrap_eq_wrapFrom s w (by omega)
    rw [this]; simp only [wrapStage, stageColumn, if_neg h]
    congr 1
    rw [columnAfter_eq_mod w 0 s (by omega)]
    by_cases h1 : s.length % w = 0 <;> by_cases h2 : s = [] <;> simp [h, h1, h2]

/-- `ENCODE` of the whole groups, then of the rest (R99 (e)). -/
theorem encodeBytes_wholeGroups (x : List Byte) :
    encodeBytes x = encodeBytes (x.take (wholeGroups x.length)) ++ encodeBytes (x.drop (wholeGroups x.length)) := by
  conv => lhs; rw [← List.take_append_drop (wholeGroups x.length) x]
  rw [encodeBytes_append]
  simp [wholeGroups]; omega

end Sys2Proof.Machine
end

