-- ==== Sys2Proof/Laws/Invariant.lean ====
section
/-! SUPPORT. The decoder's part of the invariant (10_state.md R40 (e), (h), R36) is kept by `PUSH` and `PUT`, and the encoder's part (R40 (d)) by the emission of a group. -/

namespace Sys2Proof.Machine

/-- `PUSH(c)` with room in the window (R146). -/
theorem pushChar_room (c : Byte) (s : State) (h : s.gcnt.val < 8) :
    pushChar c s = { s with
      win := s.win.set s.gcnt.val c h, gcnt := ⟨s.gcnt.val + 1, Nat.succ_lt_succ h⟩, n := s.n + 1 } := by
  have h8 : s.gcnt ≠ 8 := by rintro h8; rw [h8] at h; simp at h
  have hc : closeIfFull false s = s := if_neg h8
  rw [pushChar, hc, appendChar, dif_pos h]; rfl

/-- `PUSH(c)` with a full window (R146). -/
theorem pushChar_full (c : Byte) (s : State) (h : s.gcnt = 8) :
    pushChar c s = { closeWindow false s with win := s.win.set 0 c, gcnt := 1, n := s.n + 1 } := by
  have hc : closeIfFull false s = closeWindow false s := if_pos h
  rw [pushChar, hc]
  obtain ⟨o, v, k, p, he⟩ : ∃ o v k p, closeWindow false s =
      { s with gcnt := 0, obuf := o, elatV := v, elatKind := k, elatPos := p } := ⟨_, _, _, _, closeWindow_frame false s⟩
  rw [he]; rfl

/-- The decoder's part of the invariant, without the phase. -/
structure DecoderInv (s : State) : Prop where
  window : s.gcnt.val = if s.n.toNat = 0 then 0 else (s.n.toNat - 1) % 8 + 1
  kind : s.elatV = true → s.elatKind ≠ .noError
  pos : s.elatV = true → s.elatPos.toNat + s.gcnt.val < s.n.toNat
  len : s.elatV = false → s.obuf.length = 5 * ((s.n.toNat - s.gcnt.val) / 8)

/-- The window does not exceed the characters pushed, and the closed ones are whole groups (R40 (e)). -/
theorem DecoderInv.gle {s : State} (h : DecoderInv s) : s.gcnt.val ≤ s.n.toNat ∧ (s.n.toNat - s.gcnt.val) % 8 = 0 := by
  have := h.window
  split at this <;> omega

/-- `PUSH` keeps it. -/
theorem DecoderInv.push {s : State} (h : DecoderInv s) (hn : s.n.toNat + 1 < 2 ^ 64) (c : Byte) : DecoderInv (pushChar c s) := by
  have hw := h.window
  have hlt := s.gcnt.isLt
  have hg := pushChar_gcnt c s
  have hnn : (pushChar c s).n = s.n + 1 := by rw [pushChar_frame]
  have hn1 : (pushChar c s).n.toNat = s.n.toNat + 1 := by rw [hnn, BitVec.toNat_add]; simp; omega
  have hgl := h.gle
  have hcl : ((pushChar c s).elatV = true → (pushChar c s).elatKind ≠ .noError ∧ (pushChar c s).elatPos.toNat + (pushChar c s).gcnt.val < s.n.toNat + 1) ∧
     ((pushChar c s).elatV = false → (pushChar c s).obuf.length = 5 * ((s.n.toNat + 1 - (pushChar c s).gcnt.val) / 8)) := by
    by_cases h8 : s.gcnt = 8
    · have hv8 : s.gcnt.val = 8 := by rw [h8]; rfl
      have e : pushChar c s = { closeWindow false s with win := s.win.set 0 c, gcnt := 1, n := s.n + 1 } := pushChar_full c s h8
      have hg1 : (pushChar c s).gcnt.val = 1 := by rw [hg, hv8]
      rw [hg1]
      rw [e]
      simp only
      unfold closeWindow
      cases hv : s.elatV
      · simp only [Bool.false_eq_true, if_false]
        cases hd : decGroup s.win.toList false with
        | ok b =>
          have hb := (decGroup_ok_length hd).2.2 rfl
          refine ⟨fun hh => by simp at hh, fun _ => ?_⟩
          have := h.len hv
          simp only [List.length_append, hb, this]; omega
        | err k i =>
          have hi := decGroup_err_lt (by simp) hd
          refine ⟨fun _ => ⟨by cases k <;> simp [CodecError.kind], ?_⟩, fun hh => by simp at hh⟩
          have : (s.n - 8 + BitVec.ofNat 64 i).toNat = s.n.toNat - 8 + i := by
            have h8' : (8 : Pos).toNat = 8 := rfl
            simp only [BitVec.toNat_add, BitVec.toNat_sub, BitVec.toNat_ofNat, h8']; omega
          show (s.n - 8 + BitVec.ofNat 64 i).toNat + 1 < _
          omega
      · simp only [if_true]
        refine ⟨fun _ => ⟨by simpa using h.kind hv, ?_⟩, fun hh => by simp [hv] at hh⟩
        have := h.pos hv
        show s.elatPos.toNat + 1 < _
        omega
    · have hv8 : s.gcnt.val < 8 := by
        have : s.gcnt.val ≠ 8 := fun hh => h8 (Fin.ext hh)
        omega
      have e : pushChar c s = { s with win := s.win.set s.gcnt.val c hv8, gcnt := ⟨s.gcnt.val + 1, Nat.succ_lt_succ hv8⟩, n := s.n + 1 } := pushChar_room c s hv8
      rw [e]
      simp only
      refine ⟨fun hv => ⟨h.kind hv, by have := h.pos hv; omega⟩, fun hv => ?_⟩
      rw [h.len hv, show s.n.toNat + 1 - (s.gcnt.val + 1) = s.n.toNat - s.gcnt.val by omega]
  refine ⟨?_, fun h => (hcl.1 h).1, fun h => by rw [hn1]; exact (hcl.1 h).2, fun h => by rw [hn1]; exact hcl.2 h⟩
  rw [hn1, hg, if_neg (by omega)]
  split at hw <;> omega

/-- The replay of a run of `LF` keeps it. -/
theorem DecoderInv.lfs {s : State} (k : Nat) (h : DecoderInv s) (hn : s.n.toNat + k < 2 ^ 64) : DecoderInv (pushLfs k s) := by
  induction k generalizing s with
  | zero => exact h
  | succ k ih =>
    refine ih (h.push (by omega) _) ?_
    have : (pushChar Config.lf s).n = s.n + 1 := by rw [pushChar_frame]
    rw [this, BitVec.toNat_add]; simp; omega

/-- It speaks of six registers. -/
theorem DecoderInv.of {s t : State} (h : DecoderInv s) (h1 : t.gcnt = s.gcnt) (h2 : t.n = s.n) (h3 : t.elatV = s.elatV) (h4 : t.elatKind = s.elatKind) (h5 : t.elatPos = s.elatPos) (h6 : t.obuf = s.obuf) : DecoderInv t := by
  constructor
  · rw [h1, h2]; exact h.window
  · rw [h3, h4]; exact h.kind
  · rw [h3, h5, h1, h2]; exact h.pos
  · rw [h3, h6, h1, h2]; exact h.len

/-- `PUT` in phase `DEC` keeps it. -/
theorem DecoderInv.put {s : State} (h : DecoderInv s) (hn : s.n.toNat + s.nlrun.toNat + 1 < 2 ^ 64) (c : Byte) : DecoderInv (decPut c s.countPut) := by
  unfold decPut
  split
  · by_cases hc : (isSym c || isPad c) = true
    · rw [decPutLenient_char c s hc]; exact (h.push (by omega) c).of rfl rfl rfl rfl rfl rfl
    · rw [decPutLenient, if_neg hc]; exact h.of rfl rfl rfl rfl rfl rfl
  · by_cases hc : c = Config.lf
    · rw [decPutStrict, if_pos hc]; exact h.of rfl rfl rfl rfl rfl rfl
    · rw [decPutStrict_char c s hc]
      have hl := h.lfs s.nlrun.toNat (by omega)
      refine (hl.push ?_ c).of rfl rfl rfl rfl rfl rfl
      rw [pushLfs_n]; simp [BitVec.toNat_add]; omega

/-- The invariant gives it in phase `DEC`. -/
theorem Inv.di {s : State} (h : Inv s) (hp : s.phase = .dec) : DecoderInv s := by
  have hz : s.n = 0 ↔ s.n.toNat = 0 := by rw [← BitVec.toNat_inj]; simp
  refine ⟨?_, h.latchKind, h.latchPos hp, h.obufLength hp⟩
  have := h.window hp
  simp only [hz] at this; exact this

/-- A width that is not 0 is above 0. -/
theorem zero_lt_width {w : Width} (h : w ≠ 0) : (0 : Width) < w := by
  rw [BitVec.lt_def]; exact Nat.pos_of_ne_zero fun h' => h (BitVec.eq_of_toNat_eq h')

/-- The invariant gives the column bound (R40 (d)). -/
theorem Inv.col {s : State} (h : Inv s) : s.ColumnOk := by
  by_cases h0 : s.ww = 0
  · exact .inl h0
  · exact .inr (h.colBelowWidth h0)

/-- Without wrapping the column stays (R131). -/
theorem emitAll_zero (ys : List Byte) (s : State) (h : s.ww = 0) : (emitAll ys s).col = s.col := by
  induction ys generalizing s with
  | nil => rfl
  | cons y ys ih => rw [emitAll, ih _ (by rw [emit_eq]; exact h), emit_eq]; simp [h]

/-- The emission of a group keeps the column bound (R40 (d)). -/
theorem emitGroup_inv (b : List Byte) (s : State) (h : Inv s) : ∃ o c, emitGroup b s = {s with out := o, any := true, col := c, ecnt := 0} ∧ (s.ww = 0 → c = 0) ∧ (s.ww ≠ 0 → c < s.ww) := by
  obtain ⟨e0, e1, e2, e3, e4, e5, e6⟩ := emitGroup_spec b s h.col
  obtain ⟨o, a, c, he⟩ := emitGroup_frame b s
  have hz := fun hw => emitAll_zero (encGroup b) s hw
  have hz' : (emitGroup b s).col = (emitAll (encGroup b) s).col := by rw [emitGroup]
  rw [he] at e3 e4 hz'
  simp only at e3 hz'
  subst e3
  refine ⟨_, c, he, fun hw => ?_, fun hw => ?_⟩
  · rw [hz', hz hw]; exact h.colZero hw
  · exact (show ({ s with out := s.out ++ o, any := true, col := c, ecnt := 0 } : State).ww = 0 ∨ _ from e4).resolve_left hw

/-- The command stream plays no part in the invariant. -/
theorem Inv.input {s : State} (h : Inv s) (j : List HostInput) : Inv { s with input := j } :=
  ⟨h.colZero, h.colBelowWidth, h.colOfNothing, h.window, h.lenientRun, h.runOutsideDecode, h.noErrorPos, h.doneIdle,
    h.latchKind, h.latchPos, h.obufLength, h.obufOutsideDecode, h.obufFits, h.widthInDecode, h.garbageInEncode,
    h.counted, h.putsBound⟩

end Sys2Proof.Machine
end

