-- ==== Sys2Proof/Laws/Live.lean ====
section
/-! SUPPORT. The registers an open invocation reads determine what its commands do (10_state.md R40 (c), R42): the bodies of `PUT` and `END` on two states that agree on them. -/

namespace Sys2Proof.Machine

/-! ### Encode -/

/-- Two states agree on what the encode path reads. -/
structure SameEnc (s t : State) : Prop where
  ww : s.ww = t.ww
  ecnt : s.ecnt = t.ecnt
  buf : s.ebufBytes = t.ebufBytes
  col : s.col = t.col
  any : s.any = t.any

/-- `EMIT` reads the width and the column only (R131). -/
theorem emit_same (y : Byte) {s t : State} (h1 : s.ww = t.ww) (h2 : s.col = t.col) :
    ∃ o, (emit y s).out = s.out ++ o ∧ (emit y t).out = t.out ++ o ∧ (emit y s).col = (emit y t).col ∧ (emit y s).any = (emit y t).any ∧ (emit y s).ww = (emit y t).ww := by
  rw [emit_eq, emit_eq]
  refine ⟨_, rfl, ?_, ?_, rfl, h1⟩
  · simp only [h1, h2]
  · simp only [h1, h2]

/-- A sequence of `EMIT`s on states that agree on the wrap state. -/
theorem emitAll_same (ys : List Byte) {s t : State} (h1 : s.ww = t.ww) (h2 : s.col = t.col) (h3 : s.any = t.any) :
    ∃ o, (emitAll ys s).out = s.out ++ o ∧ (emitAll ys t).out = t.out ++ o ∧ (emitAll ys s).col = (emitAll ys t).col ∧ (emitAll ys s).any = (emitAll ys t).any := by
  induction ys generalizing s t with
  | nil => exact ⟨[], by simp [emitAll], by simp [emitAll], h2, h3⟩
  | cons y ys ih =>
    obtain ⟨o, a1, a2, a3, a4, a5⟩ := emit_same y h1 h2
    obtain ⟨o', b1, b2, b3, b4⟩ := ih a5 a3 a4
    exact ⟨o ++ o', by rw [emitAll, b1, a1, List.append_assoc], by rw [emitAll, b2, a2, List.append_assoc], b3, b4⟩

/-- The emission of a group on such states: the same bytes are appended (R132). -/
theorem emitGroup_same (b : List Byte) {s t : State} (h1 : s.ww = t.ww) (h2 : s.col = t.col) (h3 : s.any = t.any) :
    ∃ o c a, emitGroup b s = { s with out := s.out ++ o, col := c, any := a, ecnt := 0 } ∧ emitGroup b t = { t with out := t.out ++ o, col := c, any := a, ecnt := 0 } := by
  obtain ⟨o, a1, a2, a3, a4⟩ := emitAll_same (encGroup b) h1 h2 h3
  refine ⟨o, (emitAll (encGroup b) s).col, (emitAll (encGroup b) s).any, ?_, ?_⟩
  · rw [emitGroup, ← a1]; conv => lhs; rw [emitAll_frame]
  · rw [emitGroup, ← a2, a3, a4]; conv => lhs; rw [emitAll_frame]

/-- `PUT` in phase `ENC` on states that agree. -/
theorem encPut_same (b : Byte) {s t : State} (h : SameEnc s t) :
    ∃ o, (encPut b s).out = s.out ++ o ∧ (encPut b t).out = t.out ++ o ∧ SameEnc (encPut b s) (encPut b t) := by
  by_cases hc : s.ecnt.val < 4
  · have hc' : t.ecnt.val < 4 := h.ecnt ▸ hc
    rw [encPut, dif_pos hc, encPut, dif_pos hc']
    refine ⟨[], by simp, by simp, h.ww, ?_, ?_, h.col, h.any⟩
    · apply Fin.ext; have := congrArg Fin.val h.ecnt; simp [this]
    · rw [ebufBytes_storeEbuf, ebufBytes_storeEbuf, h.buf]
  · have hc' : ¬ t.ecnt.val < 4 := h.ecnt ▸ hc
    rw [encPut, dif_neg hc, encPut, dif_neg hc', ebufBytes_full s hc, ebufBytes_full t hc', h.buf]
    obtain ⟨o, c, a, e1, e2⟩ := emitGroup_same (t.ebufBytes ++ [b]) h.ww h.col h.any
    rw [e1, e2]
    exact ⟨o, rfl, rfl, h.ww, rfl, by simp [State.ebufBytes], rfl, rfl⟩

/-- `END` in phase `ENC` on states that agree. -/
theorem encEnd_same {s t : State} (h : SameEnc s t) :
    ∃ o, (encEnd s).out = s.out ++ o ∧ (encEnd t).out = t.out ++ o := by
  unfold encEnd
  have key : ∃ o c a k, (if 0 < s.ecnt.val then emitGroup s.ebufBytes s else s) = { s with out := s.out ++ o, col := c, any := a, ecnt := k } ∧ (if 0 < t.ecnt.val then emitGroup t.ebufBytes t else t) = { t with out := t.out ++ o, col := c, any := a, ecnt := k } := by
    by_cases hc : 0 < s.ecnt.val
    · have hc' : 0 < t.ecnt.val := h.ecnt ▸ hc
      rw [if_pos hc, if_pos hc', h.buf]
      obtain ⟨o, c, a, e1, e2⟩ := emitGroup_same (t.ebufBytes) h.ww h.col h.any
      exact ⟨o, c, a, 0, e1, e2⟩
    · have hc' : ¬ 0 < t.ecnt.val := h.ecnt ▸ hc
      rw [if_neg hc, if_neg hc']
      exact ⟨[], s.col, s.any, s.ecnt, by simp, by rw [h.col, h.any, h.ecnt]; simp⟩
  obtain ⟨o, c, a, k, e1, e2⟩ := key
  rw [e1, e2]
  have ht : ({ s with out := s.out ++ o, col := c, any := a, ecnt := k } : State).trailingLf = ({ t with out := t.out ++ o, col := c, any := a, ecnt := k } : State).trailingLf := by
    simp only [State.trailingLf, h.ww]
  simp only [ht]
  split
  · exact ⟨o ++ [Config.lf], by simp, by simp⟩
  · exact ⟨o, by simp, by simp⟩

/-! ### Decode -/

/-- Two states agree on what the decode path reads. -/
structure SameDec (s t : State) : Prop where
  gcnt : s.gcnt = t.gcnt
  win : s.winBytes = t.winBytes
  n : s.n = t.n
  elatV : s.elatV = t.elatV
  lat : s.elatV = true → s.elatKind = t.elatKind ∧ s.elatPos = t.elatPos
  obuf : s.obuf = t.obuf

/-- `CLOSE` on states that agree. -/
theorem closeWindow_same (f : Bool) {s t : State} (h : SameDec s t) (h8 : s.gcnt = 8) : SameDec (closeWindow f s) (closeWindow f t) := by
  have h8' : t.gcnt = 8 := h.gcnt ▸ h8
  unfold closeWindow
  rw [winBytes_full s h8, winBytes_full t h8', ← h.win, ← h.elatV]
  cases hv : s.elatV
  · simp only [Bool.false_eq_true, if_false]
    cases decGroup s.winBytes f with
    | ok b => exact ⟨rfl, by simp [State.winBytes], h.n, rfl, by simp, by simp [h.obuf]⟩
    | err k i => exact ⟨rfl, by simp [State.winBytes], h.n, rfl, fun _ => ⟨rfl, by simp [h.n]⟩, h.obuf⟩
  · simp only [if_true]
    exact ⟨rfl, by simp [State.winBytes], h.n, h.elatV, h.lat, h.obuf⟩

/-- `CLOSE` of a full window on states that agree. -/
theorem closeIfFull_same (f : Bool) {s t : State} (h : SameDec s t) : SameDec (closeIfFull f s) (closeIfFull f t) := by
  unfold closeIfFull
  by_cases h8 : s.gcnt = 8
  · rw [if_pos h8, if_pos (h.gcnt ▸ h8)]; exact closeWindow_same f h h8
  · rw [if_neg h8, if_neg (h.gcnt ▸ h8)]; exact h

/-- `PUSH` on states that agree. -/
theorem pushChar_same (c : Byte) {s t : State} (h : SameDec s t) : SameDec (pushChar c s) (pushChar c t) := by
  have hc := closeIfFull_same false h
  rw [pushChar_eq, pushChar_eq]
  refine ⟨?_, ?_, by simp [h.n], hc.elatV, hc.lat, hc.obuf⟩
  · apply Fin.ext; have := congrArg Fin.val hc.gcnt; simp [this]
  · have e1 := winBytes_storeWin c _ (closeIfFull_gcnt_lt false s)
    have e2 := winBytes_storeWin c _ (closeIfFull_gcnt_lt false t)
    have e3 : (closeIfFull false s).winBytes ++ [c] = (closeIfFull false t).winBytes ++ [c] := by rw [hc.win]
    exact e1.trans (e3.trans e2.symm)

/-- The replay of a run of `LF` on states that agree. -/
theorem pushLfs_same (k : Nat) {s t : State} (h : SameDec s t) : SameDec (pushLfs k s) (pushLfs k t) := by
  induction k generalizing s t with
  | zero => exact h
  | succ k ih => exact ih (pushChar_same _ h)

theorem SameDec.counts {s t : State} (h : SameDec s t) (p p' k k') : SameDec (s.withCounts p k) (t.withCounts p' k') :=
  ⟨h.gcnt, h.win, h.n, h.elatV, h.lat, h.obuf⟩

/-- `PUT` in phase `DEC` on states that agree. -/
theorem decPut_same (c : Byte) {s t : State} (h : SameDec s t) (hi : s.ig = t.ig) (hn : s.nlrun = t.nlrun) :
    SameDec (decPut c s.countPut) (decPut c t.countPut) ∧ (decPut c s.countPut).nlrun = (decPut c t.countPut).nlrun := by
  have hh : SameDec s.countPut t.countPut := h.counts (s.puts+1) (t.puts+1) s.nlrun t.nlrun
  unfold decPut
  have : t.countPut.ig = s.countPut.ig := hi.symm
  rw [this]
  split
  · by_cases hc : (isSym c || isPad c) = true
    · rw [decPutLenient_char c s hc, decPutLenient_char c t hc]
      exact ⟨(pushChar_same c h).counts _ _ _ _, hn⟩
    · rw [decPutLenient, if_neg hc, decPutLenient, if_neg hc]; exact ⟨hh, hn⟩
  · by_cases hc : c = Config.lf
    · rw [decPutStrict, if_pos hc, decPutStrict, if_pos hc]
      exact ⟨⟨h.gcnt, h.win, h.n, h.elatV, h.lat, h.obuf⟩, by show s.nlrun + 1 = t.nlrun + 1; rw [hn]⟩
    · rw [decPutStrict_char c s hc, decPutStrict_char c t hc, hn]
      exact ⟨(pushChar_same c (pushLfs_same _ h)).counts _ _ _ _, rfl⟩

/-- Equal buffers under equal capacities are admitted alike. -/
theorem SameLive.fits {s t : State} (h1 : s.obufCap = t.obufCap) (h2 : s.obuf = t.obuf) : s.obufFits = t.obufFits := by
  simp [State.obufFits, h1, h2]

end Sys2Proof.Machine
end

