-- ==== Sys2Proof/Tests/Slice0.lean ====
section
/-! SUPPORT. Tests of the model, their expected results taken from spec/95_test_vectors.md and the worked examples of the rules, and the witnesses that the hypotheses of the statements can be met. -/

namespace Sys2Proof.Tests

open Sys2Proof.Machine

/-! ### Helpers -/

/-- The bytes of a text, by their one-byte codes (00_scope.md R10, R92). -/
def txt (s : String) : List Byte := s.toList.map fun c => BitVec.ofNat 8 c.toNat

/-- The bytes of a text at the front of a buffer of four. -/
def buf4 (s : String) : Vector Byte 4 := Vector.ofFn fun i => (txt s).getD i 0

/-- The characters of a text at the front of a window of eight. -/
def win8 (s : String) : Vector Byte 8 := Vector.ofFn fun i => (txt s).getD i 0

/-- The next state of a step on one word, if there is one. -/
def stepOn (s : State) (w : CmdWord) : Option State :=
  match step (s.withFetchWord 36 w.toNat) with
  | .next t => some t
  | _ => none

/-- A result is a next state. -/
def answersNext (r : Result) : Bool :=
  match r with
  | .next _ => true
  | _ => false

theorem next_of_answersNext {r : Result} (h : answersNext r = true) : ∃ t, r = .next t := by
  cases r with
  | next t => exact ⟨t, rfl⟩
  | fault e => cases h
  | refused e => cases h

/-- An open encode invocation that has performed some `PUT`s. -/
def encState (width : Width) (held : String) (ecnt : Fin 5) (col : Width) (any : Bool) : State :=
  { State.reset with phase := .enc, ww := width, ebuf := buf4 held, ecnt := ecnt, col := col, any := any, puts := 10 }

/-- An open decode invocation that has performed some `PUT`s. -/
def decState (ig : Bool) (held : String) (gcnt : Fin 9) (n nlrun : Pos) : State :=
  { State.reset with phase := .dec, ig := ig, win := win8 held, gcnt := gcnt, n := n, nlrun := nlrun, puts := 40 }

/-! ### Well-formedness: an ill-formed term for each check -/

/-- Opcode `0x5` is reserved (R77). -/
theorem test_wellFormed_opcode_reserved : (RawCommand.wellFormed ⟨5, 0⟩) = false := by decide
/-- Opcode `0x0` is reserved (R77). -/
theorem test_wellFormed_opcode_zero : (RawCommand.wellFormed ⟨0, 0⟩) = false := by decide
/-- `DEC` with `arg[1]` set (R78). -/
theorem test_wellFormed_dec_reserved : (RawCommand.wellFormed ⟨2, 2⟩) = false := by decide
/-- `PUT` with `arg[8]` set (R78). -/
theorem test_wellFormed_put_reserved : (RawCommand.wellFormed ⟨3, 0x100⟩) = false := by decide
/-- `END` with `arg[0]` set (R78). -/
theorem test_wellFormed_end_reserved : (RawCommand.wellFormed ⟨4, 1⟩) = false := by decide
/-- `ENC` has no reserved field (R72). -/
theorem test_wellFormed_enc_any : (RawCommand.wellFormed ⟨1, 0xFFFFFFFF⟩) = true := by decide
/-- Program lines with an operand out of range (R82). -/
theorem test_wellFormed_lines :
    AsmLine.wellFormed (.enc 4294967296) = false ∧ AsmLine.wellFormed (.dec 2) = false ∧
    AsmLine.wellFormed (.put 256) = false ∧ AsmLine.wellFormed (.dotWord (2 ^ 36)) = false ∧
    AsmLine.wellFormed (.encode 4294967296 []) = false ∧ AsmLine.wellFormed (.decode 2 []) = false := by decide
/-- The largest operands in range (R82). -/
theorem test_wellFormed_lines_boundary :
    AsmLine.wellFormed (.enc 4294967295) = true ∧ AsmLine.wellFormed (.dec 1) = true ∧
    AsmLine.wellFormed (.put 255) = true ∧ AsmLine.wellFormed (.dotWord (2 ^ 36 - 1)) = true := by decide

/-! ### Decoding (V-CMD; each word written out from R72 to R75) -/

/-- `0001` then the 32 bits of 20. -/
theorem test_decode_enc : decode 0b000100000000000000000000000000010100 = .ok (.enc 20) := by rfl
/-- `0010` then bit 0 set. -/
theorem test_decode_dec : decode 0b001000000000000000000000000000000001 = .ok (.dec true) := by rfl
/-- `0011` then `01001000`, the letter H. -/
theorem test_decode_put : decode 0b001100000000000000000000000001001000 = .ok (.put 0x48) := by rfl
/-- `0100` and nothing else. -/
theorem test_decode_end : decode 0b010000000000000000000000000000000000 = .ok .endInv := by rfl
/-- The same words encoded. -/
theorem test_encode :
    encode (.enc 20) = 0x100000014 ∧ encode (.dec true) = 0x200000001 ∧ encode (.put 0x48) = 0x300000048 ∧
    encode .endInv = 0x400000000 := by decide
/-- The decoder over table numbering; a bit above bit 35 makes no command. -/
theorem test_decodeTableWord :
    decodeTableWord 40 0x300000048 = some (.put 0x48) ∧ decodeTableWord 40 0x1300000048 = none ∧
    decodeTableWord 40 0x280000000 = none := by decide

/-! ### Tables and codec functions -/

/-- V-TABLE. -/
theorem test_tables :
    sym 0 = 0x41 ∧ sym 25 = 0x5A ∧ sym 26 = 0x32 ∧ sym 31 = 0x37 ∧ val 0x3D = 0x40 ∧ val 0x61 = 0xFF ∧
    val 0x31 = 0xFF ∧ val 0x37 = 31 ∧ tableRead 31 = some 0x37 ∧ tableRead 288 = none := by decide
/-- V-ENC_GROUP and R96. -/
theorem test_encGroup :
    encGroup (txt "f") = txt "MY======" ∧ encGroup (txt "foob") = txt "MZXW6YQ=" ∧ encGroup [0xFF] = txt "74======" := by decide
/-- V-DEC_GROUP: the values. -/
theorem test_decGroup_ok :
    decGroup (txt "YZ234567") true = .ok [0xC6, 0x75, 0xBE, 0x77, 0xDF] ∧
    decGroup (txt "M7======") true = .ok [0x67] := by decide
/-- V-DEC_GROUP: the errors. -/
theorem test_decGroup_err :
    decGroup (txt "MZ=W6Y==") true = .err .invalidCharacter 3 ∧ decGroup (txt "MZXW6=TB") false = .err .invalidCharacter 5 ∧
    decGroup (txt "MZX=====") true = .err .invalidLength 3 ∧ decGroup (txt "========") true = .err .invalidLength 0 := by decide
/-- V-WRAP and R100. -/
theorem test_wrap :
    wrap (txt "MZXW6YTBOI======") 5 = txt "MZXW6\nYTBOI\n=====\n=\n" ∧ wrap (txt "MZXW6YTB") 8 = txt "MZXW6YTB\n" ∧
    wrap [] 7 = txt "\n" := by decide
/-- V-PRE. -/
theorem test_pre :
    pre (txt "MY==\n====\n") false = txt "MY==\n====" ∧ pre (txt "my MY=\t=====\r\n") true = txt "MY======" := by decide
/-- V-DECODE and the examples of R107, R108. -/
theorem test_decode_errors :
    decodeBytes (txt "aGVsbG8sIHdvcmxkIQ==\x00") false = .err .invalidLength 16 ∧
    decodeBytes (txt "MY======MY======") false = .err .invalidCharacter 2 ∧
    decodeBytes (txt "MZXW6YTBMZXW6Y==") false = .err .invalidLength 14 := by decide
/-- R98, R108: the source's message. -/
theorem test_roundtrip_message :
    encodeStream (txt "Hello, World!") 20 = txt "JBSWY3DPFQQFO33SNRSC\nC===\n" ∧
    decodeBytes (txt "JBSWY3DPFQQFO33SNRSCC===\n") false = .ok (txt "Hello, World!") := by decide
/-- R82, R83: a program text. -/
theorem test_assembleText :
    assembleText ["ENCODE 0x14, \"f\\n\" ; a comment".toList, "".toList, ".word 0x0".toList] =
      some [0x100000014, 0x300000066, 0x30000000A, 0x400000000, 0x000000000] := by decide
/-- R82: an operand out of range and a line without a number are rejected; both cases of a hexadecimal numeral. -/
theorem test_assembleText_rejects :
    assembleText ["PUT 256".toList] = none ∧ assembleText ["DEC 2".toList] = none ∧ assembleText ["PUT 0x".toList] = none ∧
    assembleText ["PUT 4A".toList] = none ∧ assembleText ["PUT 0x4a".toList] = assembleText ["PUT 0x4A".toList] ∧
    assembleText ["PUTS \"\\x4A\"".toList] = some [0x30000004A] := by decide

/-! ### Single steps (V-STEP), at most two per command -/

/-- Row 1: `ENC 20` from reset. -/
theorem test_enc_idle :
    stepOn State.reset 0x100000014 = some { State.reset with phase := .enc, ww := 20 } := by decide
/-- Row 7: `ENC` in an open invocation. -/
theorem test_enc_open : stepOn (encState 20 "" 0 0 false) 0x100000000 = some { encState 20 "" 0 0 false with fault := 2 } := by decide
/-- Row 2: `DEC 1` from reset. -/
theorem test_dec_idle :
    stepOn State.reset 0x200000001 = some { State.reset with phase := .dec, ig := true } := by decide
/-- R145: a start command after an error result clears it. -/
theorem test_dec_clears_result :
    stepOn { State.reset with done := true, errKind := .invalidLength, errPos := 16, gcnt := 5, n := 21 } 0x200000000 =
      some { State.reset with phase := .dec } := by decide
/-- Row 6: an illegal word is never a sequence fault. -/
theorem test_illegal_end : stepOn State.reset 0x400000001 = some { State.reset with fault := 1 } := by decide
/-- Row 3: `PUT` in `IDLE`. Row 11: the fifth byte of a group at width 5. Row 14: a byte is held. -/
theorem test_put_idle_encode :
    stepOn State.reset 0x300000041 = some { State.reset with fault := 2 } ∧
    stepOn (encState 5 "foob" 4 0 false) 0x300000061 =
      some { encState 5 "foob" 4 0 false with out := txt "MZXW6\nYTB", ecnt := 0, col := 3, any := true, puts := 11 } ∧
    stepOn (encState 0 "fo" 2 0 false) 0x30000006F = some { encState 0 "foo" 3 0 false with puts := 11 } := by decide
/-- Row 20: an embedded `LF` closes a full window as non-final. Row 25: a padded group that is not final. Row 22: garbage changes nothing but the model's count. Row 24: a symbol is pushed. -/
theorem test_put_decode :
    (stepOn (decState false "MZXW6YTB" 8 8 1) 0x30000004D).map (fun t => (t.obuf, t.winBytes, t.n, t.nlrun)) =
      some (txt "fooba", txt "\nM", 10, 0) ∧
    (stepOn (decState false "MY======" 8 8 0) 0x30000004D).map (fun t => (t.elatV, t.elatKind, t.elatPos, t.obuf, t.winBytes)) =
      some (true, ErrKind.invalidCharacter, 2, [], txt "M") ∧
    stepOn (decState true "MZXW6" 5 5 0) 0x300000001 = some { decState true "MZXW6" 5 5 0 with puts := 41 } ∧
    stepOn (decState true "MZXW6" 5 5 0) 0x300000033 = some { decState true "MZXW63" 6 6 0 with puts := 41 } := by decide
/-- Row 19: the `LF` of a full last line is not doubled. Row 17: an empty encoding. -/
theorem test_end_encode :
    (stepOn (encState 8 "f" 1 0 true) 0x400000000).map (fun t => (t.out, t.col, t.done, t.phase)) =
      some (txt "MY======\n", 0, true, Phase.idle) ∧
    (stepOn (encState 8 "" 0 0 false) 0x400000000).map (fun t => (t.out, t.done, t.phase)) =
      some (txt "\n", true, Phase.idle) := by decide
/-- Row 27: an illegal pad count in the final group. Row 28: the length error overrides the latch. -/
theorem test_end_decode :
    (stepOn { decState false "MZXW6Y==" 8 16 0 with obuf := txt "fooba" } 0x400000000).map
      (fun t => (t.errKind, t.errPos, t.out, t.obuf, t.done)) =
      some (ErrKind.invalidLength, 14, [], [], true) ∧
    (stepOn { decState false "IQ==" 5 21 0 with elatV := true, elatKind := .invalidCharacter } 0x400000000).map
      (fun t => (t.errKind, t.errPos, t.out, t.phase)) =
      some (ErrKind.invalidLength, 16, [], Phase.idle) := by decide

/-! ### Witnesses: the hypotheses of each statement are met, together, by a concrete state and operands -/

/-- The open decode invocation of the first witnesses: `MZXW6YTB` in a full window after one closed group. -/
def decFull : State := { decState false "MZXW6YTB" 8 16 0 with obuf := txt "fooba" }

/-- The same with `input` presented. -/
def present1 (w : CmdWord) (s : State) : State := { s with input := [.word w] }

/-- The condition of the last clause of `DecodeCmdIsTotalFunction`. -/
abbrev noCommand (op : BitVec 4) (arg : BitVec 32) : Prop :=
  ¬ (op = 1 ∨ op = 2 ∧ arg >>> 1 = 0 ∨ op = 3 ∧ arg >>> 8 = 0 ∨ op = 4 ∧ arg = 0)

theorem witness_DecodeCmdIsTotalFunction :
    (1 : BitVec 32) >>> 1 = 0 ∧ (0xFF : BitVec 32) >>> 8 = 0 ∧ noCommand 0 0 ∧ noCommand 2 2 ∧ noCommand 3 0x100 ∧
    noCommand 4 1 ∧ noCommand 5 0 ∧ noCommand 15 0xFFFFFFFF := by decide

theorem witness_DecodeAndEncodeAreInverse : decode 0x3000000FF = .ok (.put 0xFF) := by rfl

/-- The condition of `IllegalWordSetsIllAndNothingElse`. -/
abbrev illegalWord (op : BitVec 4) (arg : BitVec 32) : Prop :=
  op = 0 ∨ 5 ≤ op.toNat ∨ (op = 2 ∧ arg >>> 1 ≠ 0) ∨ (op = 3 ∧ arg >>> 8 ≠ 0) ∨ (op = 4 ∧ arg ≠ 0)

theorem witness_IllegalWordSetsIllAndNothingElse :
    (present1 ((0 : BitVec 4) ++ (0 : BitVec 32)) decFull).input = .word ((0 : BitVec 4) ++ (0 : BitVec 32)) :: [] ∧
    illegalWord 0 0 ∧ illegalWord 5 0 ∧ illegalWord 15 1 ∧ illegalWord 2 2 ∧ illegalWord 3 0x100 ∧ illegalWord 4 1 := by
  decide

/-- The largest operand in range and the smallest out of range of each clause. -/
theorem witness_AssemblerChecksOperands :
    4294967295 < 2 ^ 32 ∧ 1 < 2 ∧ 255 < 256 ∧ 2 ^ 36 - 1 < 2 ^ 36 ∧ 2 ^ 36 ≤ 2 ^ 36 ∧
    2 ^ 32 ≤ 4294967296 ∧ 2 ≤ 2 ∧ 256 ≤ 256 ∧
    assembleLine (.decode 1 (txt "M")) = some [0x200000001, 0x30000004D, 0x400000000] ∧
    (∀ k, AsmLine.decode 1 (txt "M") ≠ .dotWord k) :=
  ⟨by decide, by decide, by decide, by decide, by decide, by decide, by decide, by decide, by decide,
    fun _ h => AsmLine.noConfusion h⟩

theorem witness_StepRunsDecodedCommand :
    (present1 0x30000004D decFull).input = .word 0x30000004D :: [] ∧ decode 0x30000004D = .ok (.put 0x4D) := by decide

theorem witness_StepFunctionChecksWordThenPhase :
    (present1 0x500000000 decFull).input = .word 0x500000000 :: [] ∧ decode 0x500000000 = .error .reservedOpcode ∧
    decFull.phase ≠ .idle ∧ decode 0x100000000 = .ok (.enc 0) ∧ decode 0x200000001 = .ok (.dec true) ∧
    State.reset.phase = .idle ∧ decode 0x3000000FF = .ok (.put 0xFF) ∧ decode 0x400000000 = .ok .endInv := by decide

theorem witness_NothingPresentedHoldsState : decFull.input = [] := by rfl

theorem witness_ResetInputRestoresRegisters :
    ({ decFull with input := [.reset] } : State).input = .reset :: [] := by rfl

/-- Each row of the table: a start command in and out of `IDLE`, `PUT`, `END`, an illegal word, the reset input. -/
theorem witness_PhaseChangesOnlyByTable :
    answersNext (step (present1 0x100000000 State.reset)) ∧ answersNext (step (present1 0x100000000 decFull)) ∧
    answersNext (step (present1 0x200000001 State.reset)) ∧ answersNext (step (present1 0x200000001 decFull)) ∧
    answersNext (step (present1 0x30000004D decFull)) ∧ answersNext (step (present1 0x400000000 decFull)) ∧
    answersNext (step (present1 0x400000001 decFull)) ∧ answersNext (step { decFull with input := [.reset] }) := by decide

theorem witness_FaultBitsAreSticky :
    (answersNext (step (present1 0x400000001 decFull)) ∧ decode 0x400000001 = .error .reservedField) ∧
    (answersNext (step (present1 0x100000000 decFull)) ∧ nextPhase decFull.phase 0x100000000 = none ∧
      decode 0x100000000 = .ok (.enc 0)) ∧
    (answersNext (step (present1 0x30000004D decFull)) ∧ nextPhase decFull.phase 0x30000004D ≠ none) ∧
    answersNext (step { decFull with fault := 3, input := [.reset] }) := by decide

theorem witness_OutputOnlyGrows :
    answersNext (step (present1 0x400000000 { decFull with out := txt "A" })) ∧
    answersNext (step { decFull with out := txt "A", input := [.reset] }) := by decide

/-- A state in the middle of a decode invocation meets the invariant. -/
theorem inv_decFull : Inv decFull := by constructor <;> decide

theorem witness_EveryAdmittedStepCompletes :
    ∃ s, Inv s ∧ s.obufCap = none ∧ s.puts + 1 < 2 ^ 64 := ⟨decFull, inv_decFull, by decide, by decide⟩

theorem witness_EncOpensEncodeInvocation : State.reset.phase = .idle ∧ decFull.phase ≠ .idle := by decide

theorem witness_DecOpensDecodeInvocation :
    State.reset.phase = .idle ∧ decFull.phase ≠ .idle ∧ (2 : BitVec 32) >>> 1 ≠ 0 ∧
    (0x80000000 : BitVec 32) >>> 1 ≠ 0 := by decide

theorem witness_PutAndEndNeedOpenInvocation : State.reset.phase = .idle := by rfl

theorem witness_PutBeyondAdmissionIsRefused :
    ∃ s : State, s.phase ≠ .idle ∧ 2 ^ 64 ≤ s.puts + 1 :=
  ⟨{ decFull with puts := 2 ^ 64 - 1 }, by decide, by decide⟩

theorem witness_EmitPushesThroughWrapStage :
    (encState 0 "" 0 0 false).ww = 0 ∧
    ((encState 5 "" 0 4 true).ww ≠ 0 ∧ (encState 5 "" 0 4 true).col + 1 = (encState 5 "" 0 4 true).ww) ∧
    ((encState 1 "" 0 0 true).ww ≠ 0 ∧ (encState 1 "" 0 0 true).col + 1 = (encState 1 "" 0 0 true).ww) ∧
    ((encState 5 "" 0 3 true).ww ≠ 0 ∧ (encState 5 "" 0 3 true).col + 1 ≠ (encState 5 "" 0 3 true).ww) ∧
    (encState 0xFFFFFFFF "" 0 0xFFFFFFFE true).col < (encState 0xFFFFFFFF "" 0 0xFFFFFFFE true).ww := by decide

theorem witness_PutInEncodePhase :
    ((encState 5 "foo" 3 0 false).ecnt.val < 4 ∧ (encState 5 "foo" 3 0 false).phase = .enc ∧
      (encState 5 "foo" 3 0 false).puts + 1 < 2 ^ 64) ∧
    ((encState 5 "foob" 4 0 false).ecnt.val = 4 ∧ (encState 5 "foob" 4 0 false).phase = .enc ∧
      (encState 5 "foob" 4 0 false).puts + 1 < 2 ^ 64) := by decide

theorem witness_EndInEncodePhase :
    ((encState 5 "" 0 3 true).phase = .enc ∧ (encState 5 "" 0 3 true).ecnt.val = 0) ∧
    ((encState 5 "foob" 4 0 false).phase = .enc ∧ 0 < (encState 5 "foob" 4 0 false).ecnt.val) := by decide

theorem witness_EncodePhaseFrame :
    (encState 5 "foob" 4 0 false).phase = .enc ∧ answersNext (exec (.put 0x61) (encState 5 "foob" 4 0 false)) ∧
    answersNext (exec .endInv (encState 5 "foob" 4 0 false)) := by decide

theorem witness_EncodeInvocationComputesEncodeStream :
    State.reset.phase = .idle ∧ AdmittedEncode (txt "Hello, World!") := by decide

/-- Clauses: a latched error, a good group, an error at its first and at its last position. -/
theorem witness_CloseRunsGroupDatapathOnce :
    (decFull.gcnt = 8 ∧ ({ decFull with elatV := true } : State).elatV = true) ∧
    (decFull.elatV = false ∧ decGroup decFull.win.toList false = .ok (txt "fooba")) ∧
    decGroup (decState false "1ZXW6YTB" 8 8 0).win.toList false = .err .invalidCharacter 0 ∧
    decGroup (decState false "MZXW6YT1" 8 8 0).win.toList true = .err .invalidCharacter 7 := by decide

theorem witness_PushClosesFullWindowFirst :
    (decState false "" 0 0 0).gcnt.val < 8 ∧ (decState false "MZXW6YT" 7 7 0).gcnt.val < 8 ∧ decFull.gcnt = 8 := by decide

/-- The capacity is met exactly by the window that the byte closes. -/
theorem witness_PutInStrictDecodePhase :
    ∃ s : State, s.phase = .dec ∧ s.ig = false ∧ s.puts + 1 < 2 ^ 64 ∧ s.n.toNat + s.nlrun.toNat + 1 < 2 ^ 64 ∧
      (∀ c ∈ s.obufCap, s.obuf.length + 5 * ((s.gcnt.val + s.nlrun.toNat) / 8) ≤ c) ∧ s.obufCap = some 10 :=
  ⟨{ decState false "MZXW6YTB" 8 16 7 with obuf := txt "fooba", obufCap := some 10 }, by decide⟩

theorem witness_PutInLenientDecodePhase :
    (∃ s : State, s.phase = .dec ∧ s.ig = true ∧ s.puts + 1 < 2 ^ 64 ∧ s.n.toNat + s.nlrun.toNat + 1 < 2 ^ 64 ∧
      (∀ c ∈ s.obufCap, s.obuf.length + 5 * (s.gcnt.val / 8) ≤ c) ∧ s.obufCap = some 5) ∧
    val 0x41 ≤ 31 ∧ val 0x37 ≤ 31 ∧ ¬ (val 0x0A ≤ 31 ∨ (0x0A : Byte) = 0x3D) ∧ ¬ (val 0x61 ≤ 31 ∨ (0x61 : Byte) = 0x3D) :=
  ⟨⟨{ decState true "MZXW6YTB" 8 8 0 with obufCap := some 5 }, by decide⟩, by decide⟩

/-- Clauses: a partial window of 1 and of 7, an empty window, a full window that latches and one that does not, with the capacity met exactly. -/
theorem witness_EndInDecodePhase :
    (∃ s : State, s.phase = .dec ∧ (∀ c ∈ s.obufCap, s.obuf.length + 5 * (s.gcnt.val / 8) ≤ c) ∧ s.gcnt = 1) ∧
    (∃ s : State, s.phase = .dec ∧ (∀ c ∈ s.obufCap, s.obuf.length + 5 * (s.gcnt.val / 8) ≤ c) ∧ s.gcnt = 7) ∧
    (∃ s : State, s.phase = .dec ∧ (∀ c ∈ s.obufCap, s.obuf.length + 5 * (s.gcnt.val / 8) ≤ c) ∧ s.gcnt = 0) ∧
    (∃ s : State, s.phase = .dec ∧ (∀ c ∈ s.obufCap, s.obuf.length + 5 * (s.gcnt.val / 8) ≤ c) ∧ s.gcnt = 8 ∧
      (closeWindow true s).elatV = true) ∧
    (∃ s : State, s.phase = .dec ∧ (∀ c ∈ s.obufCap, s.obuf.length + 5 * (s.gcnt.val / 8) ≤ c) ∧ s.gcnt = 8 ∧
      (closeWindow true s).elatV = false ∧ s.obufCap = some 10) :=
  ⟨⟨decState false "M" 1 1 0, by decide⟩, ⟨decState false "MZXW6YT" 7 7 0, by decide⟩, ⟨decState false "" 0 0 3, by decide⟩,
    ⟨decState false "========" 8 8 0, by decide⟩, ⟨{ decFull with obufCap := some 10 }, by decide⟩⟩

theorem witness_DecodePutFrame :
    decFull.phase = .dec ∧ answersNext (exec (.put 0x4D) decFull) ∧
    answersNext (exec (.put 0x4D) { decFull with elatV := true, elatKind := .invalidCharacter }) := by decide

theorem witness_DecodeEndFrame : decFull.phase = .dec ∧ answersNext (exec .endInv decFull) := by decide

/-- Clauses: a `PUT`, an `END` with an error, an `END` without. -/
theorem witness_DecodeCommitsAllOrNothing :
    (decFull.phase = .dec ∧ (decFull.elatV = true → decFull.elatKind ≠ .noError) ∧ answersNext (exec (.put 0x4D) decFull)) ∧
    (∃ s t : State, s.phase = .dec ∧ (s.elatV = true → s.elatKind ≠ .noError) ∧ exec .endInv s = .next t ∧
      t.errKind ≠ .noError) ∧
    (∃ t : State, exec .endInv decFull = .next t ∧ t.errKind = .noError) :=
  ⟨by decide, ⟨decState false "M" 1 1 0, _, by decide, by decide, rfl, by decide⟩, ⟨_, rfl, by decide⟩⟩

/-- The capacity is met exactly, and the input is an error in the first case and none in the second. -/
theorem witness_DecodeInvocationComputesDecode :
    (∃ s : State, s.phase = .idle ∧ AdmittedDecode (txt "MZXW6YTB") false s.obufCap ∧ s.obufCap = some 5 ∧
      decodeBytes (txt "MZXW6YTB") false = .ok (txt "fooba")) ∧
    (∃ s : State, s.phase = .idle ∧ AdmittedDecode (txt "MZXW6YTBM") false s.obufCap ∧ s.obufCap = some 5 ∧
      decodeBytes (txt "MZXW6YTBM") false = .err .invalidLength 8) :=
  ⟨⟨{ State.reset with obufCap := some 5 }, by decide⟩, ⟨{ State.reset with obufCap := some 5 }, by decide⟩⟩

theorem witness_DecodeBeyondCapacityIsRefused :
    ∃ s : State, s.phase = .idle ∧ s.obufCap = some 4 ∧ (txt "MZXW6YTB").length < 2 ^ 64 ∧ 4 < obufPeak (txt "MZXW6YTB") false :=
  ⟨{ State.reset with obufCap := some 4 }, by decide⟩

theorem witness_InvariantKeptByStep :
    ∃ s t : State, Inv s ∧ step s = .next t ∧ t ≠ s :=
  ⟨present1 0x30000004D decFull, _, by constructor <;> decide, rfl, by decide⟩

/-- Two states with different dead registers and outputs. -/
theorem witness_DeadRegistersAreNeverRead :
    SameLive decFull { decFull with ebuf := buf4 "xxxx", ecnt := 2, ww := 7, col := 3, fault := 3, out := txt "A" } ∧
    answersNext (exec .endInv decFull) ∧
    (∃ s t : State, SameLive s t ∧ exec (.put 0x4D) s = .refused .tooManyPuts) :=
  ⟨by constructor <;> decide, by decide,
    ⟨{ decFull with puts := 2 ^ 64 - 1 }, { decFull with puts := 2 ^ 64 - 1, fault := 3 }, by constructor <;> decide, by rfl⟩⟩

theorem witness_InvocationDependsOnItsCommandsOnly :
    ∃ s t : State, s.phase = .idle ∧ t.phase = .idle ∧ s.obufCap = t.obufCap ∧ s ≠ t ∧
      answersNext (runWords (encode (.enc 5) :: [0x300000066, 0x400000000]) s) ∧
      answersNext (runWords (encode (.dec true) :: [0x300000066, 0x400000000]) s) :=
  ⟨State.reset, { State.reset with fault := 3, out := txt "A", done := true, errKind := .invalidLength, errPos := 8 }, by decide⟩

/-- A sequence with an illegal word and a command out of sequence. -/
theorem witness_FaultingWordsActAsDeleted :
    answersNext (runWords [0x300000041, 0x100000005, 0x200000000, 0x0, 0x300000066, 0x400000000] State.reset) ∧
    performedWords .idle [0x300000041, 0x100000005, 0x200000000, 0x0, 0x300000066, 0x400000000] =
      [0x100000005, 0x300000066, 0x400000000] := by decide

theorem witness_LegalSequencesAreThoseWithoutFault :
    State.reset.phase = .idle ∧ State.reset.FaultFree ∧
    answersNext (runWords [0x100000005, 0x300000066, 0x400000000, 0x200000000] State.reset) ∧
    answersNext (runWords [0x100000005, 0x100000005] State.reset) := by decide

theorem witness_AlphabetIsBijection : isSym 0x41 = true ∧ isSym 0x37 = true := by decide

theorem witness_TableSpaceHoldsTables : 288 ≤ 288 := by decide

/-- Both disjuncts of the last hypothesis, at the smallest and the largest group. -/
theorem witness_DecGroupUndoesEncGroup :
    (1 ≤ (txt "f").length ∧ (txt "f").length ≤ 5 ∧ (true = true ∨ (txt "f").length = 5)) ∧
    (1 ≤ (txt "fooba").length ∧ (txt "fooba").length ≤ 5 ∧ (false = true ∨ (txt "fooba").length = 5)) := by decide

theorem witness_EncodeLaws :
    (txt "").length % 5 = 0 ∧ (txt "f").length % 5 = 1 ∧ (txt "fo").length % 5 = 2 ∧ (txt "foo").length % 5 = 3 ∧
    (txt "foob").length % 5 = 4 ∧ (txt "fooba").length % 5 = 0 ∧ 0x3D ∈ encodeBytes (txt "f") := by decide

theorem witness_WrapLaws :
    (0x0A : Byte) ∉ txt "MZXW6YTB" ∧ (0x0A : Byte) ∉ txt "" ∧ txt "MZXW6YTB" ≠ [] ∧ 0 < 1 := by decide

/-- The significant length is no multiple of 8 for 24 characters at width 20, and is one for 72 characters at width 8. -/
theorem witness_WrappedTextFailsInStrictMode :
    (0 < 20 ∧ 20 < (encodeBytes (txt "Hello, World!")).length ∧
      25 = (encodeBytes (txt "Hello, World!")).length + (((encodeBytes (txt "Hello, World!")).length + 20 - 1) / 20 - 1) ∧
      25 % 8 ≠ 0) ∧
    (0 < 8 ∧ 8 < (encodeBytes (List.replicate 45 0)).length ∧
      80 = (encodeBytes (List.replicate 45 0)).length + (((encodeBytes (List.replicate 45 0)).length + 8 - 1) / 8 - 1) ∧
      80 % 8 = 0) := by decide

/-- Cause (a); cause (b) with the smallest and the largest illegal pad count. -/
theorem witness_InvalidLengthCauses :
    decodeBytes (txt "MZXW6YTBM") false = .err .invalidLength 8 ∧
    decodeBytes (txt "MZXW6Y==") false = .err .invalidLength 6 ∧
    decodeBytes (txt "========") true = .err .invalidLength 0 := by decide

/-- Cause (a), (b) and (c) of R167. -/
theorem witness_InvalidCharacterCauses :
    decodeBytes (txt "MZXW6YT1") false = .err .invalidCharacter 7 ∧
    decodeBytes (txt "MY=A====") true = .err .invalidCharacter 3 ∧
    decodeBytes (txt "MY======MY======") false = .err .invalidCharacter 2 ∧
    (pre (txt "1M=") true)[1]? = some 0x3D := by decide

theorem witness_ErrorPositionIndexesSignificantStream :
    decodeBytes (txt "MZXW6YT1\n") false = .err .invalidCharacter 7 := by decide

end Sys2Proof.Tests
end

section
/-! The statements of 10_state.md: the reset values, the sticky fault bits and the growing output. -/

namespace Sys2Proof.Machine

/-! ### The next phase of a word -/

theorem nextPhase_ok {w : CmdWord} {i : Instr} (h : decode w = .ok i) (p : Phase) : nextPhase p w = phaseAfter p i := by
  simp [nextPhase, h]

/-! ### What the bodies of the commands do to `OUT` (10_state.md R37) -/

theorem emitGroup_out_prefix (b : List Byte) (s : State) : s.out <+: (emitGroup b s).out := by
  obtain ⟨o, a, c, he⟩ := emitGroup_frame b s
  rw [he]
  exact List.prefix_append _ _

theorem encPut_out_prefix (byte : Byte) (s : State) : s.out <+: (encPut byte s).out := by
  unfold encPut
  split
  · rw [State.storeEbuf_out]
  · exact emitGroup_out_prefix _ s

/-- The flush of a partial group is appended, then the trailing line break (42_encode_path.md R133). -/
theorem encEnd_out_prefix (s : State) : s.out <+: (encEnd s).out := by
  have lineBreak (u : State) : u.out <+: (if u.trailingLf then u.pushOut Config.lf else u).out := by
    split
    · exact List.prefix_append _ _
    · exact List.prefix_rfl
  simp only [encEnd, State.noErrorResult_out]
  split
  · exact (emitGroup_out_prefix s.ebufBytes s).trans (lineBreak _)
  · exact lineBreak s

theorem decPut_out (byte : Byte) (s : State) : (decPut byte s).out = s.out := by
  rw [decPut_frame]

theorem closeIfFull_out (final : Bool) (s : State) : (closeIfFull final s).out = s.out := by
  rw [closeIfFull_frame]

theorem commitObuf_out (s : State) : (commitObuf s).out = s.out ++ s.obuf := rfl

/-- A command only appends to `OUT`: the encoder as it goes, the decoder at the commit and nowhere else. -/
theorem exec_out_prefix {i : Instr} {s t : State} (h : exec i s = .next t) : s.out <+: t.out := by
  cases exec_cases h with
  | fault => exact List.prefix_rfl
  | startEncode => exact List.prefix_rfl
  | startDecode => exact List.prefix_rfl
  | putEncode byte => exact encPut_out_prefix byte s.countPut
  | putDecode byte => rw [decPut_out, State.countPut_out]
  | endEncode => exact encEnd_out_prefix s
  | endLengthError => exact List.prefix_rfl
  | endLatchedError u _ _ hu => simp [hu, closeIfFull_out]
  | endCommit u _ _ hu => simp [hu, commitObuf_out, closeIfFull_out]

theorem acceptWord_out_prefix {w : CmdWord} {s t : State} (h : acceptWord w s = .next t) : s.out <+: t.out := by
  cases hd : decode w with
  | error e =>
    rw [acceptWord_error hd] at h
    cases h
    exact List.prefix_rfl
  | ok i =>
    rw [acceptWord_ok hd] at h
    exact exec_out_prefix h

/-! ### The obligations -/

/-- Settles O13: the three kinds of word by the decoder and the phase table, and the reset input by its value of `FAULT`. -/
theorem faultBitsAreSticky : Obligations.FaultBitsAreSticky := by
  unfold Obligations.FaultBitsAreSticky
  refine ⟨fun s t w rest hs ht => ?_, fun s t rest hs ht => ?_⟩
  · rw [step_word hs] at ht
    refine ⟨fun e hd => ?illegal, fun i hd hp => ?wrongPhase, fun hp => ?performed⟩
    case illegal =>
      rw [acceptWord_error hd] at ht
      cases ht
      rfl
    case wrongPhase =>
      rw [nextPhase_ok hd] at hp
      rw [acceptWord_ok hd, exec_of_fault (s := { s with input := rest }) hp] at ht
      cases ht
      rfl
    case performed =>
      obtain ⟨-, ⟨hn, -⟩ | ⟨-, hf, -⟩⟩ := acceptWord_next (s := { s with input := rest }) ht
      · exact absurd hn hp
      · exact hf
  · rw [step_reset hs] at ht
    cases ht
    rfl

/-- Settles O14: by the cases of the accepted command; the reset input takes `OUT` from the reset state. -/
theorem outputOnlyGrows : Obligations.OutputOnlyGrows := by
  unfold Obligations.OutputOnlyGrows
  refine ⟨fun s t w rest hs ht => ?_, fun s t rest hs ht => ?_⟩
  · rw [step_word hs] at ht
    exact acceptWord_out_prefix (s := { s with input := rest }) ht
  · rw [step_reset hs] at ht
    cases ht
    rfl

/-- Settles O10: every value is a field of the reset state as it is written. -/
theorem resetLeavesSpecValues : Obligations.ResetLeavesSpecValues := by
  unfold Obligations.ResetLeavesSpecValues
  exact ⟨rfl, rfl, rfl, rfl, rfl, rfl, rfl, rfl, rfl, rfl, rfl, rfl, rfl, rfl, rfl, rfl, rfl, rfl⟩

end Sys2Proof.Machine
end

section
/-! The statements of 30_encoding.md: the decoder on a word `op : arg`, and the step that accepts an illegal word. -/

namespace Sys2Proof.Machine

/-! ### The decoder on a word of given fields (30_encoding.md R81) -/

theorem decode_enc_word (arg : BitVec 32) : decode ((1 : BitVec 4) ++ arg) = .ok (.enc arg) :=
  (decode_wordOfFields ⟨1, arg⟩).trans (if_pos rfl)

theorem decode_dec_word {arg : BitVec 32} (h : arg >>> 1 = 0) :
    decode ((2 : BitVec 4) ++ arg) = .ok (.dec (arg.getLsbD 0)) :=
  (decode_wordOfFields ⟨2, arg⟩).trans (if_pos ((decReserved_eq_zero_iff arg).2 h))

theorem decode_put_word {arg : BitVec 32} (h : arg >>> 8 = 0) :
    decode ((3 : BitVec 4) ++ arg) = .ok (.put (arg.setWidth 8)) := by
  rw [← putByte_eq_setWidth]
  exact (decode_wordOfFields ⟨3, arg⟩).trans (if_pos ((putReserved_eq_zero_iff arg).2 h))

theorem decode_end_word : decode ((4 : BitVec 4) ++ (0 : BitVec 32)) = .ok .endInv :=
  decode_wordOfFields ⟨4, 0⟩

/-- What makes a word legal (R77 to R79), with each reserved field as a shift. -/
theorem wellFormed_iff (op : BitVec 4) (arg : BitVec 32) :
    (RawCommand.mk op arg).wellFormed = true ↔
      op = 1 ∨ op = 2 ∧ arg >>> 1 = 0 ∨ op = 3 ∧ arg >>> 8 = 0 ∨ op = 4 ∧ arg = 0 := by
  rw [← decReserved_eq_zero_iff, ← putReserved_eq_zero_iff]
  simp only [RawCommand.wellFormed, RawCommand.opDefined, RawCommand.reservedZero, endReserved]
  by_cases h1 : op = 1#4
  · subst h1; simp
  by_cases h2 : op = 2#4
  · subst h2; simp
  by_cases h3 : op = 3#4
  · subst h3; simp
  by_cases h4 : op = 4#4
  · subst h4; simp
  · simp [h1, h2, h3, h4]

/-- The decoder is total, so the words it rejects are those that are not well formed. -/
theorem decode_isError_iff (op : BitVec 4) (arg : BitVec 32) :
    (∃ e, decode (op ++ arg) = .error e) ↔ ¬ (RawCommand.mk op arg).wellFormed = true := by
  rw [← decode_isOk_iff, show wordOfFields ⟨op, arg⟩ = op ++ arg from rfl]
  cases decode (op ++ arg) with
  | error e => simp
  | ok i => simp

/-- A reserved opcode (R77) or a reserved field that is not zero (R78) makes a word that is not well formed. -/
theorem not_wellFormed_of_reserved {op : BitVec 4} {arg : BitVec 32}
    (h : op = 0 ∨ 5 ≤ op.toNat ∨ (op = 2 ∧ arg >>> 1 ≠ 0) ∨ (op = 3 ∧ arg >>> 8 ≠ 0) ∨ (op = 4 ∧ arg ≠ 0)) :
    ¬ (RawCommand.mk op arg).wellFormed = true := by
  rw [wellFormed_iff]
  obtain rfl | hop | ⟨rfl, hr⟩ | ⟨rfl, hr⟩ | ⟨rfl, hr⟩ := h
  · simp
  · rintro (rfl | ⟨rfl, -⟩ | ⟨rfl, -⟩ | ⟨rfl, -⟩) <;> exact absurd hop (by decide)
  · simpa using hr
  · simpa using hr
  · simpa using hr

/-! ### The step that accepts an illegal word (30_encoding.md R77, R78) -/

theorem step_illegalWord {s : State} {w : CmdWord} {rest : List HostInput} {e : Illegal}
    (hs : s.input = .word w :: rest) (hd : decode w = .error e) :
    step s = .next (raiseIllegalCommand { s with input := rest }) := by
  rw [step_word hs, acceptWord_error hd]

/-! ### The obligations -/

/-- Settles O4: a reserved opcode or field is not well formed, so the decoder rejects the word and the step raises `IllegalCommand`. -/
theorem illegalWordSetsIllAndNothingElse : Obligations.IllegalWordSetsIllAndNothingElse := by
  unfold Obligations.IllegalWordSetsIllAndNothingElse
  intro s rest op arg hs hill
  obtain ⟨e, hd⟩ := (decode_isError_iff op arg).2 (not_wellFormed_of_reserved hill)
  exact ⟨⟨e, hd⟩, step_illegalWord hs hd⟩

/-- Settles O2: one clause per opcode, and for every other word its fields are not well formed. -/
theorem decodeCmdIsTotalFunction : Obligations.DecodeCmdIsTotalFunction := by
  unfold Obligations.DecodeCmdIsTotalFunction
  intro op arg
  refine ⟨?enc, ?dec, ?put, ?endInv, ?illegal⟩
  case enc => rintro rfl; exact decode_enc_word arg
  case dec => rintro rfl h; exact decode_dec_word h
  case put => rintro rfl h; exact decode_put_word h
  case endInv => rintro rfl rfl; exact decode_end_word
  case illegal => exact fun h => (decode_isError_iff op arg).2 (mt (wellFormed_iff op arg).1 h)

end Sys2Proof.Machine
end

section
/-! The statements of 40_codec_functions.md: the alphabet, the bit layout of a group in both directions, the laws of `ENCODE` and `WRAP`, and the pre-pass. -/

namespace Sys2Proof.Machine

/-! ### The alphabet (R90, R91) -/

theorem val_sym (v : Sym5) : val (sym v) = v.setWidth 8 := by
  revert v; decide

theorem sym_eq_formula (v : Sym5) :
    sym v = if v.toNat ≤ 25 then BitVec.ofNat 8 (0x41 + v.toNat) else BitVec.ofNat 8 (0x32 + (v.toNat - 26)) := by
  revert v; decide

theorem isSym_iff (c : Byte) : isSym c = true ↔ val c ≤ 31 := decide_eq_true_iff

/-- Settles O43: the tables agree with the rules on every entry, and the counts are over the 256 byte values. -/
theorem alphabetIsBijection : Obligations.AlphabetIsBijection := by
  unfold Obligations.AlphabetIsBijection
  refine ⟨fun _ => rfl, fun c => ⟨isSym_iff c, isPad_iff c⟩, fun v => ⟨val_sym v, isSym_sym v⟩, sym_symValue,
    sym_eq_formula, ?symbols, ?neither⟩
  case symbols => rfl
  case neither => rfl

/-! ### The bit layout of `ENC_GROUP` (R97) -/

/-- The fields `v0` to `v7` of the bytes `b0` to `b4`, absent bytes zero (R97). -/
def encFields (b : List Byte) : List Sym5 :=
  let byte := fun i => b.getD i 0
  [(byte 0).extractLsb' 3 5, (byte 0).extractLsb' 0 3 ++ (byte 1).extractLsb' 6 2, (byte 1).extractLsb' 1 5,
    (byte 1).extractLsb' 0 1 ++ (byte 2).extractLsb' 4 4, (byte 2).extractLsb' 0 4 ++ (byte 3).extractLsb' 7 1,
    (byte 3).extractLsb' 2 5, (byte 3).extractLsb' 0 2 ++ (byte 4).extractLsb' 5 3, (byte 4).extractLsb' 0 5]

theorem map_valueAt_packBytes (b : List Byte) : (List.range 8).map (valueAt (packBytes b)) = encFields b := by
  simp only [encFields, List.range_succ, List.range_zero, List.map_cons, List.map_nil, List.nil_append,
    List.cons_append, List.cons.injEq, and_true]
  refine ⟨?_, ?_, ?_, ?_, ?_, ?_, ?_, ?_⟩
  all_goals
    apply BitVec.eq_of_getLsbD_eq
    intro i hi
    simp only [valueAt, packBytes, BitVec.getLsbD_append, BitVec.getLsbD_extractLsb']
    interval_cases i <;> simp

/-- `ENC_GROUP` is the symbols of the fields its bytes reach, then the pads (R95, R97). -/
theorem encGroup_eq_fields (b : List Byte) :
    encGroup b = ((encFields b).take (nsym b.length)).map sym ++ List.replicate (8 - nsym b.length) Config.pad := by
  have hk : min (nsym b.length) 8 = nsym b.length := Nat.min_eq_left (nsym_le _)
  rw [encGroup_eq_symbols_pads b (nsym_le _), ← map_valueAt_packBytes, ← List.map_take, List.take_range, hk]

/-- Settles O45: the fields of each group size; the fields of absent bytes are zero. -/
theorem encGroupBitLayout : Obligations.EncGroupBitLayout := by
  unfold Obligations.EncGroupBitLayout
  intro b0 b1 b2 b3 b4
  refine ⟨?_, ?_, ?_, ?_, ?_⟩
  all_goals
    rw [encGroup_eq_fields]
    simp only [encFields, List.getD_cons_zero, List.getD_cons_succ, List.getD_nil]
    rfl

/-! ### The bit layout of `DEC_GROUP` (R105) -/

/-- The bytes `b0` to `b4` of the values `v0` to `v7`, absent values zero (R105). -/
def decFields (v : List Sym5) : List Byte :=
  let value := fun i => v.getD i 0
  [value 0 ++ (value 1).extractLsb' 2 3, (value 1).extractLsb' 0 2 ++ value 2 ++ (value 3).extractLsb' 4 1,
    (value 3).extractLsb' 0 4 ++ (value 4).extractLsb' 1 4,
    (value 4).extractLsb' 0 1 ++ value 5 ++ (value 6).extractLsb' 3 2, (value 6).extractLsb' 0 3 ++ value 7]

theorem map_byteAt_packValues (v : List Sym5) : (List.range 5).map (byteAt (packValues v)) = decFields v := by
  simp only [decFields, List.range_succ, List.range_zero, List.map_cons, List.map_nil, List.nil_append,
    List.cons_append, List.cons.injEq, and_true]
  refine ⟨?_, ?_, ?_, ?_, ?_⟩
  all_goals
    apply BitVec.eq_of_getLsbD_eq
    intro i hi
    simp only [byteAt, packValues, BitVec.getLsbD_append, BitVec.getLsbD_extractLsb']
    interval_cases i <;> simp

theorem nbytes_le {p n : Nat} (h : nbytes p = some n) : n ≤ 5 := by
  unfold nbytes at h
  split at h <;> simp at h <;> omega

/-- A final group with a legal number of pads decodes to the bytes `NBYTES` keeps of the layout (R103, R105). -/
theorem decGroup_eq_fields (v : List Sym5) {p n : Nat} (hn : nbytes p = some n) :
    decGroup (v.map sym ++ List.replicate p Config.pad) true = .ok ((decFields v).take n) := by
  rw [decGroup_symbols_pads true v p n (.inr rfl) hn, ← map_byteAt_packValues, ← List.map_take, List.take_range,
    Nat.min_eq_left (nbytes_le hn)]

/-- Settles O46: the bytes each legal pad count keeps reach only values that are there. -/
theorem decGroupBitLayout : Obligations.DecGroupBitLayout := by
  unfold Obligations.DecGroupBitLayout
  intro v0 v1 v2 v3 v4 v5 v6 v7
  exact ⟨decGroup_eq_fields [v0, v1, v2, v3, v4, v5, v6, v7] (p := 0) rfl,
    decGroup_eq_fields [v0, v1, v2, v3, v4, v5, v6] (p := 1) rfl,
    decGroup_eq_fields [v0, v1, v2, v3, v4] (p := 3) rfl,
    decGroup_eq_fields [v0, v1, v2, v3] (p := 4) rfl,
    decGroup_eq_fields [v0, v1] (p := 6) rfl⟩

/-! ### The laws of `ENCODE` (R99) -/

/-- `ENCODE` is injective, since `CORE_DECODE` undoes it (R99 (d)). -/
theorem encodeBytes_injective {x y : List Byte} (h : encodeBytes x = encodeBytes y) : x = y := by
  have hxy : DecodeResult.ok x = .ok y := by rw [← coreDecode_encodeBytes x, h, coreDecode_encodeBytes]
  exact DecodeResult.ok.inj hxy

/-- Settles O48: the length, the pads of the final group, injectivity, concatenation and the characters, each by its law of `ENCODE`. -/
theorem encodeLaws : Obligations.EncodeLaws := by
  unfold Obligations.EncodeLaws
  refine ⟨encodeBytes_length, fun x => ?pads, fun _ _ => encodeBytes_injective, encodeBytes_append,
    fun x c hc => ⟨mem_encodeBytes hc, ne_lf_of_mem_encodeBytes hc⟩⟩
  case pads =>
    obtain ⟨vs, hvs⟩ := encodeBytes_symbols_pads x
    refine ⟨vs.map sym, padsOf x.length, hvs, ?_, ?_⟩
    · rw [List.forall_mem_map]
      exact fun v _ => isSym_sym v
    · refine ⟨?_, ?_, ?_, ?_, ?_⟩ <;> intro h <;> simp [padsOf, h]

/-! ### The laws of `WRAP` (R102) -/

/-- Lines of one length are as long together as their number says. -/
theorem length_flatten_of_lines {full : List (List Byte)} {w : Nat} (h : ∀ l ∈ full, l.length = w) :
    full.flatten.length = full.length * w := by
  rw [List.length_flatten, List.map_congr_left h, List.map_const', List.sum_replicate, smul_eq_mul]

/-- The lines of `WRAP` at a width `w > 0`, and the length of the last (R102). -/
theorem wrap_lines_spec (s : List Byte) (w : Nat) (hw : 0 < w) :
    ∃ (full : List (List Byte)) (last : List Byte),
      wrap s w = (full.map (· ++ [Config.lf])).flatten ++ last ++ [Config.lf] ∧
      full.flatten ++ last = s ∧ (∀ l ∈ full, l.length = w) ∧
      (s = [] → full = [] ∧ last = []) ∧
      (s ≠ [] → 1 ≤ last.length ∧ last.length ≤ w ∧ full.length + 1 = (s.length + w - 1) / w ∧
        last.length = s.length - w * ((s.length + w - 1) / w - 1)) := by
  by_cases hs : s = []
  · subst hs
    exact ⟨[], [], wrap_nil w, rfl, by simp, fun _ => ⟨rfl, rfl⟩, fun h => absurd rfl h⟩
  · obtain ⟨full, last, hwrap, hjoin, hfull, h1, h2, hcount⟩ := wrap_lines s w hw hs
    have hlen : s.length = w * full.length + last.length := by
      rw [← hjoin, List.length_append, length_flatten_of_lines hfull, Nat.mul_comm]
    refine ⟨full, last, hwrap, hjoin, hfull, fun h => absurd h hs, fun _ => ⟨h1, h2, hcount, ?_⟩⟩
    rw [← hcount, Nat.add_sub_cancel, hlen, Nat.add_sub_cancel_left]

/-- Each line that holds no `LF` is closed by one. -/
theorem count_lf_lines (full : List (List Byte)) (h : ∀ l ∈ full, Config.lf ∉ l) :
    (full.map (· ++ [Config.lf])).flatten.count Config.lf = full.length := by
  induction full with
  | nil => rfl
  | cons l full ih =>
    obtain ⟨hl, hfull⟩ := List.forall_mem_cons.1 h
    rw [List.map_cons, List.flatten_cons, List.count_append, List.count_append, ih hfull,
      List.count_eq_zero_of_not_mem hl, List.count_singleton_self, List.length_cons, Nat.zero_add, Nat.add_comm]

/-- The number of `LF` bytes of `WRAP` (R102). -/
theorem count_lf_wrap (s : List Byte) (w : Nat) (h : Config.lf ∉ s) :
    (wrap s w).count Config.lf = if w = 0 then 1 else max 1 ((s.length + w - 1) / w) := by
  split
  next hw =>
    rw [hw, wrap_zero, List.count_append, List.count_eq_zero_of_not_mem h, List.count_singleton_self]
  next hw =>
    obtain ⟨full, last, hwrap, hjoin, -, hnil, hne⟩ := wrap_lines_spec s w (Nat.pos_of_ne_zero hw)
    obtain ⟨hfull, hlast⟩ : (∀ l ∈ full, Config.lf ∉ l) ∧ Config.lf ∉ last := by
      rw [← hjoin, List.mem_append, List.mem_flatten] at h
      exact ⟨fun l hl hc => h (.inl ⟨l, hl, hc⟩), fun hc => h (.inr hc)⟩
    rw [hwrap, List.count_append, List.count_append, count_lf_lines full hfull, List.count_eq_zero_of_not_mem hlast,
      List.count_singleton_self]
    by_cases hs : s = []
    · have hzero : (s.length + w - 1) / w = 0 := Nat.div_eq_of_lt (by rw [hs, List.length_nil]; omega)
      rw [hzero, (hnil hs).1]
      rfl
    · obtain ⟨-, -, hlines, -⟩ := hne hs
      omega

/-- No two neighbours are both `LF` (R102). -/
def NoAdjacentLf (t : List Byte) : Prop :=
  ∀ k : Nat, ¬ (t[k]? = some Config.lf ∧ t[k + 1]? = some Config.lf)

theorem noAdjacentLf_of_not_mem {t : List Byte} (h : Config.lf ∉ t) : NoAdjacentLf t :=
  fun _ hk => h (List.mem_of_getElem? hk.1)

/-- A final `LF` has no neighbour when the sequence before it does not end in one. -/
theorem NoAdjacentLf.snoc {t : List Byte} (h : NoAdjacentLf t) (hl : t.getLast? ≠ some Config.lf) :
    NoAdjacentLf (t ++ [Config.lf]) := by
  rintro k ⟨h1, h2⟩
  obtain hk | hk | hk : k + 1 < t.length ∨ k + 1 = t.length ∨ t.length ≤ k := by omega
  · rw [List.getElem?_append_left (by omega)] at h1 h2
    exact h k ⟨h1, h2⟩
  · rw [List.getElem?_append_left (by omega)] at h1
    rw [List.getLast?_eq_getElem?, ← hk, Nat.add_sub_cancel] at hl
    exact hl h1
  · rw [List.getElem?_eq_none (by simp; omega)] at h2
    cases h2

/-- `WRAP` holds no two adjacent `LF`: the trailing one is added only to a line that is not full or to the empty sequence (R102). -/
theorem wrap_noAdjacentLf (s : List Byte) (w : Nat) (h : Config.lf ∉ s) : NoAdjacentLf (wrap s w) := by
  obtain rfl | hw := Nat.eq_zero_or_pos w
  · rw [wrap_zero]
    exact (noAdjacentLf_of_not_mem h).snoc fun hl => h (List.mem_of_getLast? hl)
  · have hstage : NoAdjacentLf (wrapFrom w 0 s) := (wrapFrom_no_adjacent w s h 0).2
    rw [wrap_eq_wrapFrom s w hw]
    split
    next => rwa [List.append_nil]
    next hopen =>
      refine hstage.snoc fun hl => hopen ⟨?_, ?_⟩
      · rintro rfl; cases hl
      · simpa using wrapFrom_getLast_lf w hw s h 0 hw hl

/-- Settles O49: the lines, the number of `LF`, their removal, the final `LF` and their spacing, each by its law of `WRAP`. -/
theorem wrapLaws : Obligations.WrapLaws := by
  unfold Obligations.WrapLaws
  intro s w h
  refine ⟨?zero, wrap_lines_spec s w, ?count, wrap_filter s w h, wrap_getLast? s w, wrap_noAdjacentLf s w h⟩
  case zero => rintro rfl; exact wrap_zero s
  case count => rw [← List.count_eq_length_filter]; exact count_lf_wrap s w h

/-! ### The pre-pass (R106) -/

/-- Settles O50: the strict split of a stream into its significant part and a run of `LF`, and lenient mode by its filter. -/
theorem prePassKeepsSignificantStream : Obligations.PrePassKeepsSignificantStream := by
  unfold Obligations.PrePassKeepsSignificantStream
  exact ⟨pre_strict_split, pre_lenient⟩

end Sys2Proof.Machine
end

section
/-! The statements of 41_commands_dispatch.md: the order of the checks when a word is accepted, and the table of phase transitions. -/

namespace Sys2Proof.Machine

/-! ### The phase after a word, a faulting word leaving it as it is (R123) -/

theorem acceptWord_phase {w : CmdWord} {s t : State} (h : acceptWord w s = .next t) :
    t.phase = (nextPhase s.phase w).getD s.phase := by
  obtain ⟨-, ⟨hn, hp, -⟩ | ⟨hn, -⟩⟩ := acceptWord_next h
  · rw [hn, hp, Option.getD_none]
  · rw [hn, Option.getD_some]

theorem nextPhase_error {w : CmdWord} {e : Illegal} (h : decode w = .error e) (p : Phase) : nextPhase p w = none := by
  simp [nextPhase, h]

theorem phaseAfter_enc_getD (p : Phase) (width : Width) :
    (phaseAfter p (.enc width)).getD p = if p = .idle then .enc else p := by
  cases p <;> rfl

theorem phaseAfter_dec_getD (p : Phase) (ig : Bool) :
    (phaseAfter p (.dec ig)).getD p = if p = .idle then .dec else p := by
  cases p <;> rfl

theorem phaseAfter_put_getD (p : Phase) (byte : Byte) : (phaseAfter p (.put byte)).getD p = p := by
  cases p <;> rfl

theorem phaseAfter_end_getD (p : Phase) : (phaseAfter p .endInv).getD p = .idle := by
  cases p <;> rfl

/-! ### The step on a word that is a command (R120) -/

theorem step_command {s : State} {w : CmdWord} {rest : List HostInput} {i : Instr}
    (hs : s.input = .word w :: rest) (hd : decode w = .ok i) : step s = exec i { s with input := rest } := by
  rw [step_word hs, acceptWord_ok hd]

theorem step_wrongPhase {s : State} {w : CmdWord} {rest : List HostInput} {i : Instr}
    (hs : s.input = .word w :: rest) (hd : decode w = .ok i) (hp : phaseAfter s.phase i = none) :
    step s = .next (raiseSequenceFault { s with input := rest }) := by
  rw [step_command hs hd, exec_of_fault (s := { s with input := rest }) hp]

/-! A start command has a row of the table in `IDLE` only. -/

theorem phaseAfter_enc_eq_none_iff (p : Phase) (width : Width) : phaseAfter p (.enc width) = none ↔ p ≠ .idle := by
  cases p <;> simp [phaseAfter]

theorem phaseAfter_dec_eq_none_iff (p : Phase) (ig : Bool) : phaseAfter p (.dec ig) = none ↔ p ≠ .idle := by
  cases p <;> simp [phaseAfter]

/-! ### The obligations -/

/-- Settles O12: the phase after a word is its row of the table, or the phase it had; the reset input takes `IDLE` from the reset state. -/
theorem phaseChangesOnlyByTable : Obligations.PhaseChangesOnlyByTable := by
  unfold Obligations.PhaseChangesOnlyByTable
  intro s t e rest hs ht
  have hword (w : CmdWord) (he : e = .word w) : t.phase = (nextPhase s.phase w).getD s.phase := by
    subst he
    rw [step_word hs] at ht
    exact acceptWord_phase (s := { s with input := rest }) ht
  have hcommand (w : CmdWord) (i : Instr) (he : e = .word w) (hd : decode w = .ok i) :
      t.phase = (phaseAfter s.phase i).getD s.phase := by
    rw [hword w he, nextPhase_ok hd]
  refine ⟨fun w width he hd => ?enc, fun w ig he hd => ?dec, fun w byte he hd => ?put, fun w he hd => ?endInv,
    fun w r he hd => ?illegal, fun he => ?reset⟩
  case enc => rw [hcommand w _ he hd, phaseAfter_enc_getD]
  case dec => rw [hcommand w _ he hd, phaseAfter_dec_getD]
  case put => rw [hcommand w _ he hd, phaseAfter_put_getD]
  case endInv => rw [hcommand w _ he hd, phaseAfter_end_getD]
  case illegal => rw [hword w he, nextPhase_error hd, Option.getD_none]
  case reset =>
    subst he
    rw [step_reset hs] at ht
    cases ht
    rfl

/-- Settles O8: an illegal word by the decoder, a wrong phase by the missing row of the table, and every command by its meaning. -/
theorem stepFunctionChecksWordThenPhase : Obligations.StepFunctionChecksWordThenPhase := by
  unfold Obligations.StepFunctionChecksWordThenPhase
  intro s w rest hs
  refine ⟨?illegal, fun hp => ?start, fun hp => ?putOrEnd, fun i hd => step_command hs hd⟩
  case illegal =>
    rintro ⟨e, hd⟩
    exact step_illegalWord hs hd
  case start =>
    rintro (⟨width, hd⟩ | ⟨ig, hd⟩)
    · exact step_wrongPhase hs hd ((phaseAfter_enc_eq_none_iff _ width).2 hp)
    · exact step_wrongPhase hs hd ((phaseAfter_dec_eq_none_iff _ ig).2 hp)
  case putOrEnd =>
    rintro (⟨byte, hd⟩ | hd)
    · exact step_wrongPhase hs hd (by rw [hp]; rfl)
    · exact step_wrongPhase hs hd (by rw [hp]; rfl)

end Sys2Proof.Machine
end

section
/-! The statements of 42_encode_path.md: `ENC`, the wrap stage `EMIT`, `PUT` and `END` in phase `ENC`, and a whole encode invocation. -/

namespace Sys2Proof.Machine

/-! ### The start command (R130) -/

/-- Settles O16: the start in `IDLE`, the fault where the phase table has no row, and the decoder on opcode 1. -/
theorem encOpensEncodeInvocation : Obligations.EncOpensEncodeInvocation := by
  unfold Obligations.EncOpensEncodeInvocation
  refine ⟨fun s width hp => ?idle, fun s width hp => ?elsewhere, decode_enc_word⟩
  case idle => exact ⟨0, exec_enc_idle width hp⟩
  case elsewhere => exact exec_of_fault ((phaseAfter_enc_eq_none_iff _ width).2 hp)

/-! ### The wrap stage (R131) -/

/-- Settles O20: the three cases of `EMIT` from its equation, and the column below the width. -/
theorem emitPushesThroughWrapStage : Obligations.EmitPushesThroughWrapStage := by
  unfold Obligations.EmitPushesThroughWrapStage
  intro s y
  refine ⟨fun hw => ?noWrap, fun hw hc => ?lineEnd, fun hw hc => ?withinLine, col_succ_toNat⟩
  case noWrap => simp only [emit_eq, if_pos hw]
  case lineEnd => simp only [emit_eq, if_neg hw, if_pos hc, Config.lf]
  case withinLine => simp only [emit_eq, if_neg hw, if_neg hc]

/-! ### The emission of a group (R132, R133) -/

theorem emitGroup_eq_foldl (b : List Byte) (s : State) :
    emitGroup b s = { (encGroup b).foldl (fun u y => emit y u) s with ecnt := 0 } := by
  rw [emitGroup, emitAll_eq_foldl]

/-- `EMIT` does not read the model's count of `PUT`s (log entry 5). -/
theorem emitAll_withPuts (ys : List Byte) (s : State) (k : Nat) :
    emitAll ys { s with puts := k } = { emitAll ys s with puts := k } := by
  induction ys generalizing s with
  | nil => rfl
  | cons y ys ih =>
    have hemit : emit y { s with puts := k } = { emit y s with puts := k } := by simp only [emit_eq]
    rw [emitAll, hemit, ih]
    rfl

theorem emitGroup_countPut (b : List Byte) (s : State) :
    emitGroup b s.countPut = { emitGroup b s with puts := s.puts + 1 } := by
  rw [emitGroup, State.countPut, emitAll_withPuts]
  rfl

/-! ### `PUT` (R132) -/

theorem putAdmitted_of_enc {s : State} (hp : s.phase = .enc) (hb : s.puts + 1 < 2 ^ 64) : s.putAdmitted = true := by
  simpa [State.putAdmitted, hp, Config.posBits] using hb

/-- The full group buffer, entry by entry. -/
theorem ebuf_toList (s : State) : s.ebuf.toList = [s.ebuf[0], s.ebuf[1], s.ebuf[2], s.ebuf[3]] := by
  refine List.ext_getElem (by simp) fun i hi _ => ?_
  have hi4 : i < 4 := by simpa using hi
  interval_cases i <;> simp

theorem encPut_of_room {s : State} (byte : Byte) (h : s.ecnt.val < 4) : encPut byte s = s.storeEbuf byte h := dif_pos h

theorem encPut_of_full {s : State} (byte : Byte) (h : s.ecnt.val = 4) :
    encPut byte s = emitGroup [s.ebuf[0], s.ebuf[1], s.ebuf[2], s.ebuf[3], byte] s := by
  rw [encPut, dif_neg (by omega), ebuf_toList]
  rfl

/-- Settles O21: the two cases of `ENC_PUT`, the emission of the full group apart from the count. -/
theorem putInEncodePhase : Obligations.PutInEncodePhase := by
  unfold Obligations.PutInEncodePhase
  refine ⟨fun s byte h hp hb => ⟨s.puts + 1, ?room⟩, fun s byte h hp hb => ⟨s.puts + 1, ?full⟩⟩
  case room =>
    rw [exec_put_enc byte hp (putAdmitted_of_enc hp hb), encPut_of_room (s := s.countPut) byte h]
    rfl
  case full =>
    rw [exec_put_enc byte hp (putAdmitted_of_enc hp hb), encPut_of_full (s := s.countPut) byte h,
      emitGroup_countPut, emitGroup_eq_foldl]
    simp only [State.countPut_ebuf]

/-! ### `END` (R133) -/

theorem trailingLf_iff (s : State) : s.trailingLf = true ↔ s.ww = 0 ∨ s.col ≠ 0 ∨ s.any = false := by
  simp [State.trailingLf, or_assoc]

/-- The state between the two halves of `ENC_END`: the final partial group, if there is one, has been emitted. -/
def flushGroup (s : State) : State := if 0 < s.ecnt.val then emitGroup s.ebufBytes s else s

theorem flushGroup_of_empty {s : State} (h : s.ecnt.val = 0) : flushGroup s = s := if_neg (by omega)

theorem flushGroup_of_held {s : State} (h : 0 < s.ecnt.val) : flushGroup s = emitGroup s.ebufBytes s := if_pos h

/-- `ENC_END` after the final group: the trailing line break and the result. -/
theorem encEnd_eq_flushGroup (s : State) :
    encEnd s = { flushGroup s with
      out := if (flushGroup s).trailingLf then (flushGroup s).out ++ [Config.lf] else (flushGroup s).out
      errKind := .noError, errPos := 0 } := by
  rw [encEnd, ← flushGroup]
  cases (flushGroup s).trailingLf <;> rfl

/-- Settles O22: the state between is the one with the final group emitted. -/
theorem endInEncodePhase : Obligations.EndInEncodePhase := by
  unfold Obligations.EndInEncodePhase
  intro s hp
  refine ⟨flushGroup s, flushGroup_of_empty, fun h => ?held, ?completes⟩
  case held => rw [flushGroup_of_held h, emitGroup_eq_foldl, State.ebufBytes]
  case completes =>
    rw [exec_end_enc hp, encEnd_eq_flushGroup]
    simp only [trailingLf_iff, State.finishInvocation, Config.lf]

/-! ### The invocation (R134) -/

/-- A completed run has accepted all that was presented (20_memory.md R52). -/
theorem runWords_input {ws : List CmdWord} {s t : State} (h : runWords ws s = .next t) : t.input = [] := by
  rw [runWords_eq] at h
  exact acceptAll_input ws _ t h

/-- Something has been emitted or is held exactly when `ENCODE` of the input is not empty. -/
theorem encodeBytes_ne_nil_iff (x : List Byte) :
    encodeBytes x ≠ [] ↔ 0 < wholeGroups x.length ∨ x.drop (wholeGroups x.length) ≠ [] := by
  simp only [← List.length_pos_iff, encodeBytes_length, List.length_drop, wholeGroups]
  omega

/-- `END` after `ENC` and the `PUT`s of `x`: the rest of `ENCODE(x)` and the trailing line break complete `ENCODE_STREAM(x, w)` (R133, R134). -/
theorem execAll_encodeProgram (s : State) (width : Width) (x : List Byte) (hp : s.phase = .idle)
    (hx : AdmittedEncode x) :
    ∃ t, execAll (encodeProgram width x) s = .next t ∧ t.out = s.out ++ encodeStream x width.toNat ∧
      t.phase = .idle ∧ t.done = true ∧ t.errKind = .noError ∧ t.errPos = 0 ∧ t.fault = s.fault := by
  obtain ⟨u, hrun, hphase, hww, hfault, hcolOk, hheld, hout, hcol, hany⟩ := execAll_encode_open s width x hp hx
  have hend : execAll (encodeProgram width x) s = .next (encEnd u).finishInvocation := by
    rw [encodeProgram, execAll_append, List.singleton_append, hrun, andThen_next, execAll, exec_end_enc hphase]
    rfl
  have hwidth : width ≠ 0 ↔ width.toNat ≠ 0 := by
    rw [Ne, ← BitVec.toNat_inj]
    rfl
  have hstream : (encEnd u).out = s.out ++ encodeStream x width.toNat := by
    rw [encEnd_out u hcolOk, hww, hheld, hout, hcol, hany, ← stageColumn_append, List.append_assoc s.out,
      ← wrapStage_append, ← encodeBytes_wholeGroups, encodeStream, wrap_eq_wrapStage, List.append_assoc]
    simp only [decide_eq_true_eq, ← encodeBytes_ne_nil_iff, hwidth]
  have hframe := encEnd_frame u
  refine ⟨_, hend, hstream, rfl, rfl, ?_, ?_, ?_⟩
  · rw [hframe]; rfl
  · rw [hframe]; rfl
  · rw [hframe]; exact hfault

/-- `WRAP'` of `ENCODE` of the whole groups among the first `m` bytes begins `ENCODE_STREAM` (R134). -/
theorem wrapOpen_wholeGroups_prefix (x : List Byte) (m w : Nat) (hm : m ≤ x.length) :
    wrapOpen (encodeBytes (x.take (wholeGroups m))) w <+: encodeStream x w := by
  have hsplit : encodeBytes x = encodeBytes (x.take (wholeGroups m)) ++ encodeBytes (x.drop (wholeGroups m)) := by
    conv_lhs => rw [← List.take_append_drop (wholeGroups m) x]
    refine encodeBytes_append _ _ ?_
    rw [List.length_take, wholeGroups]
    omega
  rw [encodeStream, wrap_eq_wrapStage, hsplit, wrapStage_append, wrapStage_zero, List.append_assoc]
  exact List.prefix_append _ _

/-- The output after `ENC` and the first `m` `PUT`s of `x` (R134). -/
theorem execAll_encode_prefix (s : State) (width : Width) (x : List Byte) (m : Nat) (hp : s.phase = .idle)
    (hx : AdmittedEncode x) (hm : m ≤ x.length) :
    ∃ u, execAll (.enc width :: putsProgram (x.take m)) s = .next u ∧
      u.out = s.out ++ wrapOpen (encodeBytes (x.take (wholeGroups m))) width.toNat := by
  have hlen : (x.take m).length = m := by rw [List.length_take, Nat.min_eq_left hm]
  have hle : wholeGroups m ≤ m := Nat.mul_div_le m 5
  obtain ⟨u, hrun, -, -, -, -, -, hout, -⟩ :=
    execAll_encode_open s width (x.take m) hp (by rw [hlen]; exact hm.trans_lt hx)
  refine ⟨u, hrun, ?_⟩
  rw [hout, wrapStage_zero, hlen, List.take_take, Nat.min_eq_left hle]

/-- Settles O24: the run over the words is the run over the commands, which the open invocation and `END` describe. -/
theorem encodeInvocationComputesEncodeStream : Obligations.EncodeInvocationComputesEncodeStream := by
  unfold Obligations.EncodeInvocationComputesEncodeStream
  intro s width x hp hx
  obtain ⟨t, hrun, hout, hphase, hdone, hkind, hpos, hfault⟩ :=
    execAll_encodeProgram { s with input := [] } width x hp hx
  rw [← runWords_programWords] at hrun
  refine ⟨t, hrun, hout, ⟨runWords_input hrun, hphase⟩, hdone, hkind, hpos, hfault, fun m hm => ?_⟩
  obtain ⟨u, hrunm, houtm⟩ := execAll_encode_prefix { s with input := [] } width x m hp hx hm
  rw [← runWords_programWords] at hrunm
  refine ⟨u, hrunm, houtm, ?_⟩
  rw [houtm, hout]
  exact (List.prefix_append_right_inj _).2 (wrapOpen_wholeGroups_prefix x m _ hm)

end Sys2Proof.Machine
end

section
/-! The statements of 43_decode_path.md: `DEC`, the window, `PUT` and `END` in phase `DEC`, the commit, and a whole decode invocation. -/

namespace Sys2Proof.Machine

/-! ### The start command (R145) -/

/-- Settles O17: the start in `IDLE`, the fault where the phase table has no row, and the reserved field of opcode 2. -/
theorem decOpensDecodeInvocation : Obligations.DecOpensDecodeInvocation := by
  unfold Obligations.DecOpensDecodeInvocation
  refine ⟨fun s ig hp => ?idle, fun s ig hp => ?elsewhere, fun arg harg => ?reserved⟩
  case idle => exact ⟨0, exec_dec_idle ig hp⟩
  case elsewhere => exact exec_of_fault ((phaseAfter_dec_eq_none_iff _ ig).2 hp)
  case reserved =>
    exact (decode_isError_iff 2 arg).2 (not_wellFormed_of_reserved (.inr (.inr (.inl ⟨rfl, harg⟩))))

/-! ### `CLOSE` (R147) -/

theorem closeWindow_of_latched {s : State} (final : Bool) (h : s.elatV = true) :
    closeWindow final s = { s with gcnt := 0 } := by
  simp only [closeWindow, if_pos h]

theorem closeWindow_of_ok {s : State} {final : Bool} {bytes : List Byte} (h : s.elatV = false)
    (hd : decGroup s.win.toList final = .ok bytes) :
    closeWindow final s = { s with obuf := s.obuf ++ bytes, gcnt := 0 } := by
  simp only [closeWindow, h, hd, Bool.false_eq_true, if_false]

theorem closeWindow_of_err {s : State} {final : Bool} {kind : CodecError} {i : Nat} (h : s.elatV = false)
    (hd : decGroup s.win.toList final = .err kind i) :
    closeWindow final s = { s with
      elatV := true, elatKind := kind.kind, elatPos := s.n - 8 + BitVec.ofNat 64 i, gcnt := 0 } := by
  simp only [closeWindow, h, hd, Bool.false_eq_true, if_false, State.latchError]

/-- Settles O25: the three cases of `CLOSE`, each by its equation. -/
theorem closeRunsGroupDatapathOnce : Obligations.CloseRunsGroupDatapathOnce := by
  unfold Obligations.CloseRunsGroupDatapathOnce
  exact ⟨fun s final _ => ⟨closeWindow_of_latched final, fun _ => closeWindow_of_ok, fun _ _ => closeWindow_of_err⟩,
    rfl, rfl⟩

/-! ### `PUSH` (R146) -/

theorem closeIfFull_of_full {s : State} (final : Bool) (h : s.gcnt = 8) : closeIfFull final s = closeWindow final s :=
  if_pos h

theorem closeIfFull_of_ne_full {s : State} (final : Bool) (h : s.gcnt ≠ 8) : closeIfFull final s = s := if_neg h

theorem pushChar_of_room {s : State} (c : Byte) (h : s.gcnt.val < 8) :
    pushChar c s = { s.storeWin c h with n := s.n + 1 } := by
  have hne : s.gcnt ≠ 8 := fun he => absurd h (by rw [he]; decide)
  rw [pushChar, closeIfFull_of_ne_full false hne, appendChar, dif_pos h]

/-- Closing a full window leaves room for the character, at the front. -/
theorem pushChar_of_full {s : State} (c : Byte) (h : s.gcnt = 8) :
    pushChar c s = pushChar c (closeWindow false s) := by
  rw [pushChar, closeIfFull_of_full false h, pushChar, closeIfFull_of_ne_full]
  rw [closeWindow_gcnt]
  decide

theorem closeWindow_win (final : Bool) (s : State) : (closeWindow final s).win = s.win := by
  rw [closeWindow_frame]

theorem closeWindow_n (final : Bool) (s : State) : (closeWindow final s).n = s.n := by
  rw [closeWindow_frame]

/-- Settles O26: the two cases of `PUSH`, the second of them the first one after `CLOSE`. -/
theorem pushClosesFullWindowFirst : Obligations.PushClosesFullWindowFirst := by
  unfold Obligations.PushClosesFullWindowFirst
  intro s c
  refine ⟨fun h => ?room, fun h => ?full⟩
  case room => rw [pushChar_of_room c h]; rfl
  case full =>
    have hroom : (closeWindow false s).gcnt.val < 8 := by rw [closeWindow_gcnt]; decide
    rw [pushChar_of_full c h, pushChar_of_room c hroom, closeWindow_n, ← closeWindow_win false s]
    rfl

/-! ### Admission in phase `DEC` (00_scope.md R7) -/

theorem putAdmitted_of_bounds {s : State} (hb : s.puts + 1 < 2 ^ 64) (hn : s.n.toNat + s.nlrun.toNat + 1 < 2 ^ 64) :
    s.putAdmitted = true := by
  rw [State.putAdmitted, Config.posBits, decide_eq_true hb, decide_eq_true hn, Bool.or_true, Bool.and_true]

theorem admitObuf_of_le {s : State} (h : ∀ c ∈ s.obufCap, s.obuf.length ≤ c) : admitObuf s = .next s :=
  admitObuf_of_fits ((obufFits_iff s).2 h)

/-- A `PUT` in phase `DEC` completes when its counters and the bytes it may add to `OBUF` are admitted. -/
theorem exec_put_dec_admitted {s t : State} {byte : Byte} {added : Nat} (hp : s.phase = .dec)
    (hb : s.puts + 1 < 2 ^ 64) (hn : s.n.toNat + s.nlrun.toNat + 1 < 2 ^ 64)
    (hc : ∀ c ∈ s.obufCap, s.obuf.length + added ≤ c) (hput : decPut byte s.countPut = t)
    (hadded : t.obuf.length ≤ s.obuf.length + added) : exec (.put byte) s = .next t := by
  have hcap : t.obufCap = s.obufCap := by
    rw [← hput, decPut_frame]
    rfl
  rw [exec_put_dec byte hp (putAdmitted_of_bounds hb hn), hput, admitObuf_of_le]
  intro c h
  rw [hcap] at h
  exact hadded.trans (hc c h)

/-! ### `PUT` in strict mode (R148) -/

theorem decPut_of_strict {s : State} (byte : Byte) (h : s.ig = false) : decPut byte s = decPutStrict byte s :=
  if_neg (by rw [h]; decide)

theorem decPut_strict_lf {s : State} (h : s.ig = false) :
    decPut Config.lf s.countPut = { s with nlrun := s.nlrun + 1, puts := s.puts + 1 } :=
  (decPut_of_strict Config.lf (s := s.countPut) h).trans (if_pos rfl)

theorem decPut_strict_char {s : State} {byte : Byte} (h : s.ig = false) (hbyte : byte ≠ Config.lf) :
    decPut byte s.countPut = (pushChar byte (pushLfs s.nlrun.toNat s)).withCounts (s.puts + 1) 0 :=
  (decPut_of_strict byte (s := s.countPut) h).trans (decPutStrict_char byte s hbyte)

/-- Each of the windows that a run of `LF` and one more character close adds at most five bytes. -/
theorem pushChar_pushLfs_obuf_length_le (byte : Byte) (k : Nat) (s : State) :
    (pushChar byte (pushLfs k s)).obuf.length ≤ s.obuf.length + 5 * ((s.gcnt.val + k) / 8) := by
  obtain ⟨run, hrun, hrunLength, -⟩ := pushLfs_obuf k s
  obtain ⟨last, hlast, hlastLength, -⟩ := pushChar_obuf byte (pushLfs k s)
  rw [hlast, hrun, List.length_append, List.length_append]
  omega

/-- Settles O27: a line break is counted; any other byte comes after the pending run, which adds no more than the hypothesis leaves room for. -/
theorem putInStrictDecodePhase : Obligations.PutInStrictDecodePhase := by
  unfold Obligations.PutInStrictDecodePhase
  intro s byte hp hig hb hn hc
  refine ⟨fun hbyte => ⟨s.puts + 1, ?lineBreak⟩, fun hbyte => ⟨s.puts + 1, ?character⟩⟩
  case lineBreak =>
    subst hbyte
    exact exec_put_dec_admitted hp hb hn hc (decPut_strict_lf hig) (Nat.le_add_right _ _)
  case character =>
    rw [exec_put_dec_admitted hp hb hn hc (decPut_strict_char hig hbyte) (pushChar_pushLfs_obuf_length_le byte _ s),
      pushLfs_eq_foldl]
    rfl

/-! ### `PUT` in lenient mode (R149) -/

theorem isSym_or_isPad_iff (byte : Byte) : (isSym byte || isPad byte) = true ↔ val byte ≤ 31 ∨ byte = Config.pad := by
  rw [Bool.or_eq_true, isSym, isPad, decide_eq_true_iff, beq_iff_eq]

theorem decPut_of_lenient {s : State} (byte : Byte) (h : s.ig = true) : decPut byte s = decPutLenient byte s := if_pos h

theorem decPut_lenient_kept {s : State} {byte : Byte} (h : s.ig = true) (hbyte : (isSym byte || isPad byte) = true) :
    decPut byte s.countPut = (pushChar byte s).withCounts (s.puts + 1) s.nlrun :=
  (decPut_of_lenient byte (s := s.countPut) h).trans (decPutLenient_char byte s hbyte)

theorem decPut_lenient_garbage {s : State} {byte : Byte} (h : s.ig = true) (hbyte : ¬ (isSym byte || isPad byte) = true) :
    decPut byte s.countPut = s.countPut :=
  (decPut_of_lenient byte (s := s.countPut) h).trans (if_neg hbyte)

theorem pushChar_obuf_length_le (c : Byte) (s : State) :
    (pushChar c s).obuf.length ≤ s.obuf.length + 5 * (s.gcnt.val / 8) := by
  obtain ⟨d, hd, hlength, -⟩ := pushChar_obuf c s
  rw [hd, List.length_append]
  omega

theorem pushChar_withCounts_nlrun (c : Byte) (s : State) (k : Nat) :
    (pushChar c s).withCounts k s.nlrun = { pushChar c s with puts := k } := by
  rw [pushChar_frame]
  rfl

/-- Settles O28: a symbol or a pad is pushed, and a discarded byte is only counted. -/
theorem putInLenientDecodePhase : Obligations.PutInLenientDecodePhase := by
  unfold Obligations.PutInLenientDecodePhase
  intro s byte hp hig hb hn hc
  refine ⟨fun hbyte => ⟨s.puts + 1, ?kept⟩, fun hbyte => ⟨s.puts + 1, ?garbage⟩⟩
  case kept =>
    have hput := decPut_lenient_kept hig ((isSym_or_isPad_iff byte).2 hbyte)
    rw [exec_put_dec_admitted hp hb hn hc hput (pushChar_obuf_length_le byte s), pushChar_withCounts_nlrun]
  case garbage =>
    have hput := decPut_lenient_garbage hig (mt (isSym_or_isPad_iff byte).1 hbyte)
    exact exec_put_dec_admitted hp hb hn hc hput (Nat.le_add_right _ _)

/-! ### `END` (R150) -/

/-- The result of an `END` on whole groups, from the state with the final group closed: the latched error, else the commit. -/
def endResult (u : State) : State :=
  if u.elatV then (raiseCodecError u.elatKind u.elatPos { u with nlrun := 0 }).clearDecoder.finishInvocation
  else (commitObuf { u with nlrun := 0 }).clearDecoder.finishInvocation

theorem endResult_of_latched {u : State} (h : u.elatV = true) : endResult u = { u with
    errKind := u.elatKind, errPos := u.elatPos,
    nlrun := 0, obuf := [], gcnt := 0, elatV := false, done := true, phase := .idle } := if_pos h

theorem endResult_of_commit {u : State} (h : u.elatV = false) : endResult u = { u with
    out := u.out ++ u.obuf, errKind := .noError, errPos := 0,
    nlrun := 0, obuf := [], gcnt := 0, elatV := false, done := true, phase := .idle } := if_neg (by rw [h]; decide)

theorem closeIfFull_obuf_length_le (final : Bool) (s : State) :
    (closeIfFull final s).obuf.length ≤ s.obuf.length + 5 * (s.gcnt.val / 8) := by
  obtain ⟨d, hd, hlength, -⟩ := closeIfFull_obuf final s
  rw [hd, List.length_append]
  omega

/-- `END` on whole groups completes when the final group fits. -/
theorem exec_end_dec_admitted {s : State} (hp : s.phase = .dec) (hg : s.gcnt = 0 ∨ s.gcnt = 8)
    (hc : ∀ c ∈ s.obufCap, s.obuf.length + 5 * (s.gcnt.val / 8) ≤ c) :
    exec .endInv s = .next (endResult (closeIfFull true s)) := by
  have hcap : (closeIfFull true s).obufCap = s.obufCap := by rw [closeIfFull_frame]
  rw [exec_end_dec_whole hp hg, closeIfFull_dropRun, admitObuf_of_le, andThen_next]
  · rfl
  · intro c h
    rw [hcap] at h
    exact (closeIfFull_obuf_length_le true s).trans (hc c h)

/-- Settles O29: the length error by its equation; otherwise the state between is the one with the final group closed. -/
theorem endInDecodePhase : Obligations.EndInDecodePhase := by
  unfold Obligations.EndInDecodePhase
  intro s hp hc
  refine ⟨exec_end_dec_length hp, fun hg => ⟨closeIfFull true s, fun h => ?empty, closeIfFull_of_full true, ?_⟩⟩
  case empty => exact closeIfFull_of_ne_full true (by rw [h]; decide)
  rw [exec_end_dec_admitted hp hg hc]
  refine ⟨fun h => ?latched, fun h => ?commit⟩
  case latched => rw [endResult_of_latched h]
  case commit => rw [endResult_of_commit h, closeIfFull_out]

/-! ### All or nothing (R151) -/

theorem CodecError.kind_ne_noError (kind : CodecError) : kind.kind ≠ .noError := by
  cases kind <;> decide

/-- `CLOSE` keeps that a latched error has a kind (10_state.md R36). -/
theorem closeWindow_latchKind {s : State} (final : Bool) (h : s.elatV = true → s.elatKind ≠ .noError) :
    (closeWindow final s).elatV = true → (closeWindow final s).elatKind ≠ .noError := by
  cases hl : s.elatV with
  | true => rw [closeWindow_of_latched final hl]; exact h
  | false =>
    cases hd : decGroup s.win.toList final with
    | ok bytes => rw [closeWindow_of_ok hl hd]; exact h
    | err kind i => rw [closeWindow_of_err hl hd]; exact fun _ => kind.kind_ne_noError

theorem closeIfFull_latchKind {s : State} (final : Bool) (h : s.elatV = true → s.elatKind ≠ .noError) :
    (closeIfFull final s).elatV = true → (closeIfFull final s).elatKind ≠ .noError := by
  unfold closeIfFull
  split
  · exact closeWindow_latchKind final h
  · exact h

theorem closeIfFull_obuf_eq (final : Bool) (s : State) :
    (closeIfFull final s).obuf = if s.gcnt = 8 then (closeWindow final s).obuf else s.obuf :=
  apply_ite State.obuf _ _ _

/-- Settles O32: by the cases of the command; only the commit pushes, and each of the two error results has a kind. -/
theorem decodeCommitsAllOrNothing : Obligations.DecodeCommitsAllOrNothing := by
  unfold Obligations.DecodeCommitsAllOrNothing
  intro s t i hp hlatch ht
  cases exec_cases ht with
  | fault hf => exact ⟨fun _ => rfl, fun _ _ => rfl, fun hi => by rw [hi, hp] at hf; cases hf⟩
  | startEncode _ hidle => exact absurd (hp.symm.trans hidle) nofun
  | startDecode _ hidle => exact absurd (hp.symm.trans hidle) nofun
  | putEncode _ henc => exact absurd (hp.symm.trans henc) nofun
  | endEncode henc => exact absurd (hp.symm.trans henc) nofun
  | putDecode byte => exact ⟨fun _ => decPut_out byte s.countPut, nofun, nofun⟩
  | endLengthError => exact ⟨fun _ => rfl, fun _ _ => rfl, nofun⟩
  | endLatchedError u _ _ hu _ hl =>
    have hkind : u.elatKind ≠ .noError := by
      rw [hu] at hl ⊢
      exact closeIfFull_latchKind (s := { s with nlrun := 0 }) true hlatch hl
    have hout : u.out = s.out := by rw [hu, closeIfFull_out]
    exact ⟨fun _ => hout, fun _ _ => hout, fun _ he => absurd he hkind⟩
  | endCommit u _ hg hu =>
    have hout : u.out ++ u.obuf = s.out ++ if s.gcnt = 8 then (closeWindow true s).obuf else s.obuf := by
      rw [hu, closeIfFull_out, closeIfFull_dropRun, closeIfFull_obuf_eq]
    exact ⟨fun hi => absurd rfl hi, fun _ he => absurd rfl he, fun _ _ => ⟨hg, hout⟩⟩

/-! ### The registers of an open decode invocation (R152) -/

/-- The split of the significant stream that `N` and `GCNT` give: the closed groups, then the window, which is empty only before the first character (10_state.md R40 (e)). -/
theorem Tracks.split {s : State} {sig : List Byte} (h : Tracks s sig) :
    DecodeTrack s (sig.take (s.n.toNat - s.gcnt.val)) (sig.drop (s.n.toNat - s.gcnt.val)) ∧ (s.gcnt = 0 ↔ s.n = 0) := by
  obtain ⟨closed, window, rfl, ht, hempty⟩ := h
  have hclosed : s.n.toNat - s.gcnt.val = closed.length := by rw [ht.count, ht.gcnt, Nat.add_sub_cancel]
  rw [hclosed, List.take_left, List.drop_left]
  refine ⟨ht, ?_⟩
  have hgcnt : s.gcnt = 0 ↔ window = [] := by rw [← Fin.val_eq_zero_iff, ht.gcnt, List.length_eq_zero_iff]
  have hn : s.n = 0 ↔ closed = [] ∧ window = [] := by
    rw [← List.append_eq_nil_iff, ← List.length_eq_zero_iff, List.length_append, ← ht.count]
    exact BitVec.toNat_inj.symm
  rw [hgcnt, hn]
  exact ⟨fun hw => ⟨hempty hw, hw⟩, And.right⟩

/-! ### The runs of an admitted decode invocation (00_scope.md R7) -/

/-- `DEC` and the `PUT`s of an admitted input are not refused. -/
theorem execAll_decode_open_admitted {s : State} {ig : Bool} {x : List Byte} (hp : s.phase = .idle)
    (hx : AdmittedDecode x ig s.obufCap) :
    ∃ u, execAll (.dec ig :: putsProgram x) s = .next u ∧ DecodeOpen u ig x ∧ u.out = s.out ∧ u.fault = s.fault ∧
      u.obufCap = s.obufCap ∧ u.obufFits = true := by
  obtain ⟨hlen, hpeak⟩ := hx
  obtain hopen | ⟨-, c, hc, hlt⟩ := execAll_decode_open s ig x hp hlen
  · exact hopen
  · exact absurd (hpeak c hc) hlt.not_ge

/-- The same after a part of the `PUT`s. The capacity is asked of the whole input only: what a part holds at most may exceed it, as the part might close its last group as final. -/
theorem execAll_decode_prefix {s : State} {ig : Bool} {x : List Byte} (m : Nat) (hp : s.phase = .idle)
    (hx : AdmittedDecode x ig s.obufCap) :
    ∃ u, execAll (.dec ig :: putsProgram (x.take m)) s = .next u ∧ DecodeOpen u ig (x.take m) ∧ u.out = s.out := by
  have hlen : (x.take m).length < 2 ^ 64 := (List.length_take_le' m x).trans_lt hx.1
  obtain ⟨t, hrun, -⟩ := execAll_decode_open_admitted hp hx
  have hsplit : Instr.dec ig :: putsProgram x = (.dec ig :: putsProgram (x.take m)) ++ putsProgram (x.drop m) := by
    rw [List.cons_append, putsProgram, putsProgram, putsProgram, ← List.map_append, List.take_append_drop]
  rw [hsplit, execAll_append] at hrun
  obtain ⟨u, hprefix, -⟩ := andThen_eq_next hrun
  obtain ⟨v, hv, hopen, hout, -⟩ | ⟨hrefused, -⟩ := execAll_decode_open s ig (x.take m) hp hlen
  · exact ⟨v, hv, hopen, hout⟩
  · rw [hprefix] at hrefused
    cases hrefused

/-- `DEC`, the `PUT`s of an admitted input and `END` give the result of `DECODE` (R152). -/
theorem execAll_decodeProgram {s : State} {ig : Bool} {x : List Byte} (hp : s.phase = .idle)
    (hx : AdmittedDecode x ig s.obufCap) :
    ∃ t, execAll (decodeProgram ig x) s = .next t ∧ t.phase = .idle ∧ t.done = true ∧ t.fault = s.fault ∧
      (∀ y, decodeBytes x ig = .ok y → t.out = s.out ++ y ∧ t.errKind = .noError ∧ t.errPos = 0) ∧
      (∀ kind pos, decodeBytes x ig = .err kind pos →
        t.out = s.out ∧ t.errKind = kind.kind ∧ t.errPos.toNat = pos) := by
  obtain ⟨u, hrun, hopen, hout, hfault, hcap, hfits⟩ := execAll_decode_open_admitted hp hx
  obtain ⟨t, hend, hphase, hdone, htfault, hok, herr⟩ := (exec_end_decodeOpen u ig x hopen hfits).1 (hcap ▸ hx.2)
  rw [hout] at hok herr
  refine ⟨t, ?_, hphase, hdone, htfault.trans hfault, hok, herr⟩
  rw [decodeProgram, execAll_append, List.singleton_append, hrun, andThen_next, execAll, hend]
  rfl

/-- Settles O33: the run over the words is the run over the commands; its end is that of `DECODE`, and after every part of the `PUT`s the registers track the significant stream of the part. -/
theorem decodeInvocationComputesDecode : Obligations.DecodeInvocationComputesDecode := by
  unfold Obligations.DecodeInvocationComputesDecode
  intro s ig x hp hx
  refine ⟨?invocation, fun m hm => ?puts⟩
  case invocation =>
    obtain ⟨t, hrun, hphase, hdone, hfault, hok, herr⟩ := execAll_decodeProgram (s := { s with input := [] }) hp hx
    rw [← runWords_programWords] at hrun
    exact ⟨t, hrun, ⟨runWords_input hrun, hphase⟩, hdone, hfault, hok, herr⟩
  case puts =>
    obtain ⟨u, hrun, hopen, hout⟩ := execAll_decode_prefix (s := { s with input := [] }) m hp hx
    rw [← runWords_programWords] at hrun
    obtain ⟨htrack, hstart⟩ := hopen.sig.split
    have hn := hopen.sig.count
    have hnlrun := hopen.run
    rw [List.length_take_of_le hm] at hnlrun
    have haligned := htrack.aligned
    rw [List.length_take_of_le (by omega)] at haligned
    exact ⟨u, hrun, hout, hn, hnlrun, htrack.window, haligned, hstart, htrack.bytes, htrack.latch⟩

end Sys2Proof.Machine
end

section
/-! The statements of 30_encoding.md on the encoder and the assembler: the round trip, written-out words, the operand checks and the pseudo-commands. -/

namespace Sys2Proof.Machine

/-! ### The encoder undoes the decoder (R71 to R81) -/

/-- With the reserved field of `DEC` zero, the argument is its operand (R73). -/
theorem arg_eq_of_decReserved {arg : BitVec 32} (h : decReserved arg = 0) : arg = if decIg arg then 1 else 0 := by
  have hsmall : arg.toNat / 2 = 0 := by
    have := congrArg BitVec.toNat ((decReserved_eq_zero_iff arg).1 h)
    simpa [Nat.shiftRight_eq_div_pow] using this
  obtain h0 | h1 : arg.toNat = 0 ∨ arg.toNat = 1 := by omega
  · obtain rfl : arg = 0 := BitVec.eq_of_toNat_eq h0
    rfl
  · obtain rfl : arg = 1 := BitVec.eq_of_toNat_eq h1
    rfl

/-- With the reserved field of `PUT` zero, the argument is its operand (R74). -/
theorem arg_eq_of_putReserved {arg : BitVec 32} (h : putReserved arg = 0) : arg = (putByte arg).setWidth 32 := by
  have hsmall : arg.toNat / 256 = 0 := by
    have := congrArg BitVec.toNat ((putReserved_eq_zero_iff arg).1 h)
    simpa [Nat.shiftRight_eq_div_pow] using this
  rw [putByte_eq_setWidth]
  apply BitVec.eq_of_toNat_eq
  simp only [BitVec.toNat_setWidth]
  omega

/-- The fields of a command are the fields it was decoded from. -/
theorem rawOf_of_decode {r : RawCommand} {i : Instr} (h : decode (wordOfFields r) = .ok i) : rawOf i = r := by
  obtain ⟨op, arg⟩ := r
  rw [decode_wordOfFields] at h
  simp only at h
  split at h
  next hop => cases h; rw [hop]; rfl
  split at h
  next hop =>
    split at h
    next hres => cases h; rw [hop, rawOf, ← arg_eq_of_decReserved hres]
    next => cases h
  split at h
  next hop =>
    split at h
    next hres => cases h; rw [hop, rawOf, ← arg_eq_of_putReserved hres]
    next => cases h
  split at h
  next hop =>
    split at h
    next hres => cases h; rw [hop, show arg = 0 from hres]; rfl
    next => cases h
  next => cases h

theorem encode_of_decode {w : CmdWord} {i : Instr} (h : decode w = .ok i) : encode i = w := by
  rw [← wordOfFields_rawFields w] at h ⊢
  rw [encode, rawOf_of_decode h]

/-- Settles O3: the round trip of each command, and of each word by its fields. -/
theorem decodeAndEncodeAreInverse : Obligations.DecodeAndEncodeAreInverse := by
  unfold Obligations.DecodeAndEncodeAreInverse
  exact ⟨decode_encode, fun _ _ => encode_of_decode⟩

/-- Settles O1: each word evaluates as its format says. -/
theorem commandWordsDecode : Obligations.CommandWordsDecode := by
  unfold Obligations.CommandWordsDecode
  decide

/-! ### The assembler (R82) -/

/-! A line whose operand is in range. -/

theorem assembleLine_enc {k : Nat} (h : k < 2 ^ 32) :
    assembleLine (.enc k) = some [encode (.enc (BitVec.ofNat 32 k))] := if_pos (decide_eq_true h)

theorem assembleLine_dec {k : Nat} (h : k < 2) : assembleLine (.dec k) = some [encode (.dec (k == 1))] :=
  if_pos (decide_eq_true h)

theorem assembleLine_put {k : Nat} (h : k < 2 ^ 8) : assembleLine (.put k) = some [encode (.put (BitVec.ofNat 8 k))] :=
  if_pos (decide_eq_true h)

theorem assembleLine_dotWord {k : Nat} (h : k < 2 ^ 36) : assembleLine (.dotWord k) = some [BitVec.ofNat 36 k] :=
  if_pos (decide_eq_true h)

theorem assembleLine_encode {k : Nat} (h : k < 2 ^ 32) (text : List Byte) :
    assembleLine (.encode k text) = some (programWords (encodeProgram (BitVec.ofNat 32 k) text)) :=
  if_pos (decide_eq_true h)

theorem assembleLine_decode {k : Nat} (h : k < 2) (text : List Byte) :
    assembleLine (.decode k text) = some (programWords (decodeProgram (k == 1) text)) := if_pos (decide_eq_true h)

theorem assembleLine_puts (text : List Byte) : assembleLine (.puts text) = some (programWords (putsProgram text)) := rfl

theorem assembleLine_endInv : assembleLine .endInv = some [encode .endInv] := rfl

/-- A line that is not well formed is rejected. -/
theorem assembleLine_eq_none {l : AsmLine} (h : ¬ l.wellFormed = true) : assembleLine l = none := if_neg h

/-! A line whose operand is out of range. -/

theorem assembleLine_enc_none {k : Nat} (h : ¬ k < 2 ^ 32) : assembleLine (.enc k) = none :=
  assembleLine_eq_none (l := .enc k) (mt of_decide_eq_true h)

theorem assembleLine_dec_none {k : Nat} (h : ¬ k < 2) : assembleLine (.dec k) = none :=
  assembleLine_eq_none (l := .dec k) (mt of_decide_eq_true h)

theorem assembleLine_put_none {k : Nat} (h : ¬ k < 2 ^ 8) : assembleLine (.put k) = none :=
  assembleLine_eq_none (l := .put k) (mt of_decide_eq_true h)

theorem assembleLine_dotWord_none {k : Nat} (h : ¬ k < 2 ^ 36) : assembleLine (.dotWord k) = none :=
  assembleLine_eq_none (l := .dotWord k) (mt of_decide_eq_true h)

theorem assembleLine_encode_none {k : Nat} (h : ¬ k < 2 ^ 32) (text : List Byte) :
    assembleLine (.encode k text) = none :=
  assembleLine_eq_none (l := .encode k text) (mt of_decide_eq_true h)

theorem assembleLine_decode_none {k : Nat} (h : ¬ k < 2) (text : List Byte) : assembleLine (.decode k text) = none :=
  assembleLine_eq_none (l := .decode k text) (mt of_decide_eq_true h)

theorem wellFormed_of_assembleLine {l : AsmLine} {ws : List CmdWord} (h : assembleLine l = some ws) :
    l.wellFormed = true := by
  by_contra hl
  rw [assembleLine_eq_none hl] at h
  cases h

/-- Every line but `.word` assembles to the words of a program. -/
theorem assembleLine_eq_programWords {l : AsmLine} {ws : List CmdWord} (h : assembleLine l = some ws)
    (hl : ∀ k, l ≠ .dotWord k) : ∃ p, ws = programWords p := by
  have hwf := wellFormed_of_assembleLine h
  unfold assembleLine at h
  rw [if_pos hwf] at h
  cases l with
  | enc width => cases h; exact ⟨[_], rfl⟩
  | dec ig => cases h; exact ⟨[_], rfl⟩
  | put byte => cases h; exact ⟨[_], rfl⟩
  | endInv => cases h; exact ⟨[_], rfl⟩
  | dotWord word => exact absurd rfl (hl word)
  | puts text => cases h; exact ⟨_, rfl⟩
  | encode width text => cases h; exact ⟨_, rfl⟩
  | decode ig text => cases h; exact ⟨_, rfl⟩

theorem decode_of_mem_programWords {p : List Instr} {w : CmdWord} (h : w ∈ programWords p) : ∃ i, decode w = .ok i := by
  obtain ⟨i, -, rfl⟩ := List.mem_map.1 h
  exact ⟨i, decode_encode i⟩

/-- Settles O5: the lines in range by their equations, those out of range by `wellFormed`, and the words of a line as the words of a program. -/
theorem assemblerChecksOperands : Obligations.AssemblerChecksOperands := by
  unfold Obligations.AssemblerChecksOperands
  refine ⟨fun k => ⟨assembleLine_enc, assembleLine_dec, assembleLine_put, rfl, assembleLine_dotWord,
      fun h => assembleLine_dotWord_none h.not_gt⟩,
    fun k text => ⟨fun h => ⟨assembleLine_enc_none h.not_gt, assembleLine_encode_none h.not_gt text⟩,
      fun h => ⟨assembleLine_dec_none h.not_gt, assembleLine_decode_none h.not_gt text⟩,
      fun h => assembleLine_put_none h.not_gt⟩,
    fun l ws h hl w hw => ?legal⟩
  case legal =>
    obtain ⟨p, rfl⟩ := assembleLine_eq_programWords h hl
    exact decode_of_mem_programWords hw

/-! ### The pseudo-commands (R83) -/

/-- A program whose first line is accepted. -/
theorem assemble_cons {l : AsmLine} {ws : List CmdWord} (h : assembleLine l = some ws) (ls : List AsmLine) :
    assemble (l :: ls) = (assemble ls).map (ws ++ ·) := by
  rw [assemble, h]
  cases assemble ls <;> rfl

theorem assemble_cons_none {l : AsmLine} (h : assembleLine l = none) (ls : List AsmLine) : assemble (l :: ls) = none := by
  rw [assemble, h]

/-- One `PUT` line per byte assembles to the words of the `PUT`s. -/
theorem assemble_puts (text : List Byte) :
    assemble (text.map fun b => .put b.toNat) = some (programWords (putsProgram text)) := by
  induction text with
  | nil => rfl
  | cons b text ih =>
    rw [List.map_cons, assemble_cons (assembleLine_put b.isLt), ih, BitVec.ofNat_toNat, BitVec.setWidth_eq]
    rfl

/-- A start line, `PUTS` and `END` (R83). -/
theorem assemble_invocation {l : AsmLine} {start : Instr} (h : assembleLine l = some [encode start]) (text : List Byte) :
    assemble [l, .puts text, .endInv] = some (programWords ([start] ++ putsProgram text ++ [.endInv])) := by
  rw [assemble_cons h, assemble_cons (assembleLine_puts text), assemble_cons assembleLine_endInv]
  simp [assemble, programWords]

/-- Settles O6: `PUTS` byte by byte; `ENCODE` and `DECODE` with an operand in range by their three lines, and otherwise both sides are rejected. -/
theorem pseudoCommandsExpand : Obligations.PseudoCommandsExpand := by
  unfold Obligations.PseudoCommandsExpand
  refine ⟨fun text => (assemble_puts text).symm, fun k text => ?encode, fun k text => ?decode⟩
  case encode =>
    by_cases h : k < 2 ^ 32
    · rw [assemble_invocation (assembleLine_enc h), assembleLine_encode h, encodeProgram]
    · rw [assemble_cons_none (assembleLine_enc_none h), assembleLine_encode_none h]
  case decode =>
    by_cases h : k < 2
    · rw [assemble_invocation (assembleLine_dec h), assembleLine_decode h, decodeProgram]
    · rw [assemble_cons_none (assembleLine_dec_none h), assembleLine_decode_none h]

end Sys2Proof.Machine
end

section
/-! The frames of `PUT` and `END` in both directions (42_encode_path.md R131 to R133, 43_decode_path.md R146 to R150), the count of `PUT`s and the position counters (00_scope.md R7), and the refusal beyond the capacity. -/

namespace Sys2Proof.Machine

/-! ### `PUT` and `END` that complete in an open invocation, inverted -/

theorem exec_put_enc_next {s t : State} {byte : Byte} (hp : s.phase = .enc) (h : exec (.put byte) s = .next t) :
    s.putAdmitted = true ∧ t = encPut byte s.countPut := by
  cases exec_cases h with
  | fault hf => rw [hp] at hf; cases hf
  | putEncode _ _ ha => exact ⟨ha, rfl⟩
  | putDecode _ hd => exact absurd (hp.symm.trans hd) nofun

theorem exec_put_dec_next {s t : State} {byte : Byte} (hp : s.phase = .dec) (h : exec (.put byte) s = .next t) :
    s.putAdmitted = true ∧ t.obufFits = true ∧ t = decPut byte s.countPut := by
  cases exec_cases h with
  | fault hf => rw [hp] at hf; cases hf
  | putEncode _ he => exact absurd (hp.symm.trans he) nofun
  | putDecode _ _ ha hf => exact ⟨ha, hf, rfl⟩

theorem exec_end_enc_next {s t : State} (hp : s.phase = .enc) (h : exec .endInv s = .next t) :
    t = (encEnd s).finishInvocation := by
  rw [exec_end_enc hp] at h
  cases h
  rfl

/-- `END` in phase `DEC` writes the result registers, `OUT` and the latch's kind and position, and clears the decoder; no error has position 0 (R150). -/
theorem exec_end_dec_next {s t : State} (hp : s.phase = .dec) (h : exec .endInv s = .next t) :
    (∃ o k p lk lp, t = { s with
      out := o, errKind := k, errPos := p, nlrun := 0, obuf := [], gcnt := 0
      elatV := false, elatKind := lk, elatPos := lp, done := true, phase := .idle }) ∧
    ((s.elatV = true → s.elatKind ≠ .noError) → t.errKind = .noError → t.errPos = 0) := by
  cases exec_cases h with
  | fault hf => rw [hp] at hf; cases hf
  | endEncode he => exact absurd (hp.symm.trans he) nofun
  | endLengthError => exact ⟨⟨_, _, _, _, _, rfl⟩, fun _ => nofun⟩
  | endLatchedError u _ _ hu _ hl =>
    have hframe := closeIfFull_frame true { s with nlrun := 0 }
    rw [← hu] at hframe
    refine ⟨⟨u.out, u.elatKind, u.elatPos, u.elatKind, u.elatPos, ?_⟩, fun hlatch hk => absurd hk ?_⟩
    · rw [hframe]; rfl
    · rw [hu] at hl ⊢
      exact closeIfFull_latchKind (s := { s with nlrun := 0 }) true hlatch hl
  | endCommit u _ _ hu =>
    have hframe := closeIfFull_frame true { s with nlrun := 0 }
    rw [← hu] at hframe
    refine ⟨⟨u.out ++ u.obuf, .noError, 0, u.elatKind, u.elatPos, ?_⟩, fun _ _ => rfl⟩
    rw [hframe]; rfl

/-! ### The frame of phase `ENC` (R131 to R133) -/

/-- `ENC_PUT` changes the group buffer, the wrap state and `OUT` only (R132). -/
theorem encPut_frame (byte : Byte) (s : State) :
    encPut byte s = { s with
      ebuf := (encPut byte s).ebuf, ecnt := (encPut byte s).ecnt
      out := (encPut byte s).out, any := (encPut byte s).any, col := (encPut byte s).col } := by
  unfold encPut
  split
  · rfl
  · obtain ⟨o, a, c, he⟩ := emitGroup_frame (s.ebuf.toList ++ [byte]) s
    rw [he]

/-- Settles O23: each of the two commands by its frame. -/
theorem encodePhaseFrame : Obligations.EncodePhaseFrame := by
  unfold Obligations.EncodePhaseFrame
  rintro s t i hp (⟨byte, rfl⟩ | rfl) ht
  · obtain ⟨-, rfl⟩ := exec_put_enc_next hp ht
    rw [encPut_frame]
    exact ⟨rfl, rfl, rfl, rfl, rfl, rfl, rfl, rfl, rfl, rfl, rfl, rfl, rfl, fun _ _ => ⟨rfl, rfl, rfl, rfl⟩, nofun⟩
  · obtain rfl := exec_end_enc_next hp ht
    rw [encEnd_frame]
    exact ⟨rfl, rfl, rfl, rfl, rfl, rfl, rfl, rfl, rfl, rfl, rfl, rfl, rfl, nofun, fun _ => ⟨rfl, rfl, rfl, rfl⟩⟩

/-! ### The frame of phase `DEC` (R146 to R150) -/

/-- From `s` to `t`, `OBUF` is only appended to, and an error latched in `s` keeps the latch and `OBUF` (R147). -/
def KeepsCommitBuffer (s t : State) : Prop :=
  ∃ d, t.obuf = s.obuf ++ d ∧
    (s.elatV = true → d = [] ∧ t.elatV = true ∧ t.elatKind = s.elatKind ∧ t.elatPos = s.elatPos)

theorem KeepsCommitBuffer.refl (s : State) : KeepsCommitBuffer s s :=
  ⟨[], (List.append_nil _).symm, fun h => ⟨rfl, h, rfl, rfl⟩⟩

theorem KeepsCommitBuffer.trans {s t u : State} (h1 : KeepsCommitBuffer s t) (h2 : KeepsCommitBuffer t u) :
    KeepsCommitBuffer s u := by
  obtain ⟨d, hd, hlatch⟩ := h1
  obtain ⟨e, he, hlatch'⟩ := h2
  refine ⟨d ++ e, by rw [he, hd, List.append_assoc], fun h => ?_⟩
  obtain ⟨rfl, hv, hk, hp⟩ := hlatch h
  obtain ⟨rfl, hv', hk', hp'⟩ := hlatch' hv
  exact ⟨rfl, hv', hk'.trans hk, hp'.trans hp⟩

theorem pushChar_keepsCommitBuffer (c : Byte) (s : State) : KeepsCommitBuffer s (pushChar c s) := by
  obtain ⟨d, hd, -, hlatch⟩ := pushChar_obuf c s
  exact ⟨d, hd, hlatch⟩

theorem pushLfs_keepsCommitBuffer (k : Nat) (s : State) : KeepsCommitBuffer s (pushLfs k s) := by
  obtain ⟨d, hd, -, hlatch⟩ := pushLfs_obuf k s
  exact ⟨d, hd, hlatch⟩

theorem decPut_keepsCommitBuffer (byte : Byte) (s : State) : KeepsCommitBuffer s (decPut byte s.countPut) := by
  cases hig : s.ig with
  | false =>
    by_cases hbyte : byte = Config.lf
    · rw [hbyte, decPut_strict_lf hig]; exact .refl s
    · rw [decPut_strict_char hig hbyte]
      exact (pushLfs_keepsCommitBuffer _ s).trans (pushChar_keepsCommitBuffer byte _)
  | true =>
    by_cases hbyte : (isSym byte || isPad byte) = true
    · rw [decPut_lenient_kept hig hbyte]; exact pushChar_keepsCommitBuffer byte s
    · rw [decPut_lenient_garbage hig hbyte]; exact .refl s

/-- Settles O30: the frame of `DEC_PUT`, and the commit buffer as every character pushed leaves it. -/
theorem decodePutFrame : Obligations.DecodePutFrame := by
  unfold Obligations.DecodePutFrame
  intro s t byte hp ht
  obtain ⟨-, -, rfl⟩ := exec_put_dec_next hp ht
  obtain ⟨d, hd, hlatch⟩ := decPut_keepsCommitBuffer byte s
  have hobuf : s.obuf <+: (decPut byte s.countPut).obuf := ⟨d, hd.symm⟩
  have hkept : s.elatV = true → (decPut byte s.countPut).elatV = true ∧
      (decPut byte s.countPut).elatKind = s.elatKind ∧ (decPut byte s.countPut).elatPos = s.elatPos ∧
      (decPut byte s.countPut).obuf = s.obuf := by
    intro h
    obtain ⟨rfl, hv, hk, hpos⟩ := hlatch h
    exact ⟨hv, hk, hpos, hd.trans (List.append_nil _)⟩
  rw [decPut_frame] at hobuf hkept ⊢
  exact ⟨rfl, rfl, rfl, rfl, rfl, rfl, rfl, rfl, rfl, rfl, rfl, rfl, rfl, rfl, hobuf, hkept⟩

/-- Settles O31: by what `END` writes. -/
theorem decodeEndFrame : Obligations.DecodeEndFrame := by
  unfold Obligations.DecodeEndFrame
  intro s t hp ht
  obtain ⟨⟨o, k, p, lk, lp, rfl⟩, -⟩ := exec_end_dec_next hp ht
  exact ⟨rfl, rfl, rfl, rfl, rfl, rfl, rfl, rfl, rfl, rfl, rfl, rfl⟩

/-! ### The count of `PUT`s and the position counters (00_scope.md R7) -/

theorem puts_lt_of_putAdmitted {s : State} (h : s.putAdmitted = true) : s.puts + 1 < 2 ^ 64 := by
  rw [State.putAdmitted, Bool.and_eq_true] at h
  exact of_decide_eq_true h.1

theorem positions_lt_of_putAdmitted {s : State} (hp : s.phase = .dec) (h : s.putAdmitted = true) :
    s.n.toNat + s.nlrun.toNat + 1 < 2 ^ 64 := by
  rw [State.putAdmitted, hp, Bool.and_eq_true] at h
  exact of_decide_eq_true h.2

theorem exec_put_not_admitted {s : State} (byte : Byte) (hp : s.phase ≠ .idle) (ha : s.putAdmitted = false) :
    exec (.put byte) s = .refused .tooManyPuts := by
  simp only [exec, execPut, if_neg hp, ha, Bool.false_eq_true, if_false]

theorem pos_succ_toNat {p : Pos} (h : p.toNat + 1 < 2 ^ 64) : (p + 1).toNat = p.toNat + 1 :=
  BitVec.toNat_add_of_lt h

theorem pushChar_n (c : Byte) (s : State) : (pushChar c s).n = s.n + 1 := by
  rw [pushChar_frame]

/-- An admitted `PUT` never moves `N` back, and `N + NLRUN` grows by at most one; in lenient mode no line break is counted (R27, R28, R148, R149). -/
theorem decPut_positions (byte : Byte) {s : State} (h : s.n.toNat + s.nlrun.toNat + 1 < 2 ^ 64) :
    s.n.toNat ≤ (decPut byte s.countPut).n.toNat ∧
    (decPut byte s.countPut).n.toNat + (decPut byte s.countPut).nlrun.toNat ≤ s.n.toNat + s.nlrun.toNat + 1 ∧
    (s.ig = true → (decPut byte s.countPut).nlrun = s.nlrun) := by
  cases hig : s.ig with
  | false =>
    by_cases hbyte : byte = Config.lf
    · have hrun : (s.nlrun + 1).toNat = s.nlrun.toNat + 1 := pos_succ_toNat (by omega)
      rw [hbyte, decPut_strict_lf hig]
      refine ⟨le_rfl, ?_, nofun⟩
      show s.n.toNat + (s.nlrun + 1).toNat ≤ _
      omega
    · have hn : (pushChar byte (pushLfs s.nlrun.toNat s)).n.toNat = s.n.toNat + s.nlrun.toNat + 1 := by
        have hsum : (s.n + s.nlrun).toNat = s.n.toNat + s.nlrun.toNat := BitVec.toNat_add_of_lt (by omega)
        rw [pushChar_n, pushLfs_n, BitVec.ofNat_toNat, BitVec.setWidth_eq, pos_succ_toNat (by omega), hsum]
      rw [decPut_strict_char hig hbyte]
      refine ⟨?_, ?_, nofun⟩
      · exact (by omega : s.n.toNat ≤ s.n.toNat + s.nlrun.toNat + 1).trans hn.ge
      · exact hn.le
  | true =>
    by_cases hbyte : (isSym byte || isPad byte) = true
    · have hn : (pushChar byte s).n.toNat = s.n.toNat + 1 := by rw [pushChar_n, pos_succ_toNat (by omega)]
      rw [decPut_lenient_kept hig hbyte]
      refine ⟨?_, ?_, fun _ => rfl⟩
      · exact (Nat.le_succ _).trans hn.ge
      · show (pushChar byte s).n.toNat + s.nlrun.toNat ≤ _
        omega
    · rw [decPut_lenient_garbage hig hbyte]
      exact ⟨le_rfl, Nat.le_succ _, fun _ => rfl⟩

theorem decPut_puts (byte : Byte) (s : State) : (decPut byte s).puts = s.puts := by
  rw [decPut_frame]

theorem encPut_puts (byte : Byte) (s : State) : (encPut byte s).puts = s.puts := by
  rw [encPut_frame]

/-- A performed `PUT` is counted, and was admitted. -/
theorem exec_put_puts {s t : State} {byte : Byte} (hp : s.phase ≠ .idle) (h : exec (.put byte) s = .next t) :
    t.puts = s.puts + 1 ∧ t.puts < 2 ^ 64 := by
  cases hq : s.phase with
  | idle => exact absurd hq hp
  | enc =>
    obtain ⟨ha, rfl⟩ := exec_put_enc_next hq h
    rw [encPut_puts]
    exact ⟨rfl, puts_lt_of_putAdmitted ha⟩
  | dec =>
    obtain ⟨ha, -, rfl⟩ := exec_put_dec_next hq h
    rw [decPut_puts]
    exact ⟨rfl, puts_lt_of_putAdmitted ha⟩

theorem exec_end_puts {s t : State} (h : exec .endInv s = .next t) : t.puts = s.puts := by
  cases hp : s.phase with
  | idle =>
    rw [exec_of_fault (by rw [hp]; rfl)] at h
    cases h
    rfl
  | enc =>
    rw [exec_end_enc_next hp h, encEnd_frame]
    rfl
  | dec =>
    obtain ⟨⟨o, k, p, lk, lp, rfl⟩, -⟩ := exec_end_dec_next hp h
    rfl

/-- Settles O19: the count after each command, the refusal by the admission test, and the position counters by what an admitted `PUT` does to them. -/
theorem putBeyondAdmissionIsRefused : Obligations.PutBeyondAdmissionIsRefused := by
  unfold Obligations.PutBeyondAdmissionIsRefused
  refine ⟨fun s t i ht => ⟨?start, ?put, ?endInv⟩, fun s byte hp hputs => ?refused, fun s t byte hp ht => ?positions⟩
  case start =>
    rintro (⟨width, rfl⟩ | ⟨ig, rfl⟩) hp
    · rw [exec_enc_idle width hp] at ht; cases ht; rfl
    · rw [exec_dec_idle ig hp] at ht; cases ht; rfl
  case put => rintro ⟨byte, rfl⟩ hp; exact exec_put_puts hp ht
  case endInv => rintro rfl; exact exec_end_puts ht
  case refused =>
    refine exec_put_not_admitted byte hp (Bool.eq_false_iff.2 fun ha => ?_)
    exact absurd (puts_lt_of_putAdmitted ha) hputs.not_gt
  case positions =>
    obtain ⟨ha, -, rfl⟩ := exec_put_dec_next hp ht
    obtain ⟨hn, hsum, -⟩ := decPut_positions byte (positions_lt_of_putAdmitted hp ha)
    exact ⟨hn, hsum⟩

/-! ### The refusal beyond the capacity (00_scope.md R7 (b), R198) -/

theorem execAll_decodeProgram_refused {s : State} {ig : Bool} {x : List Byte} {cap : Nat} (hp : s.phase = .idle)
    (hcap : s.obufCap = some cap) (hx : x.length < 2 ^ 64) (hpeak : cap < obufPeak x ig) :
    execAll (decodeProgram ig x) s = .refused .obufCapExceeded := by
  rw [decodeProgram, execAll_append, List.singleton_append]
  obtain ⟨t, hrun, hopen, -, -, hkept, hfits⟩ | ⟨hrefused, -⟩ := execAll_decode_open s ig x hp hx
  · have hend := (exec_end_decodeOpen t ig x hopen hfits).2 cap (by rw [hkept, hcap]; rfl) hpeak
    rw [hrun, andThen_next, execAll, hend]
    rfl
  · rw [hrefused]
    rfl

/-- Settles O34: the run over the words is the run over the commands, which is refused at a `PUT` or at `END`. -/
theorem decodeBeyondCapacityIsRefused : Obligations.DecodeBeyondCapacityIsRefused := by
  unfold Obligations.DecodeBeyondCapacityIsRefused
  intro s ig x cap hp hcap hx hpeak
  rw [runWords_programWords]
  exact execAll_decodeProgram_refused (s := { s with input := [] }) hp hcap hx hpeak

end Sys2Proof.Machine
end

section
/-! The invariant of 10_state.md R40: it holds at reset, every step keeps it, and under it every step of an unbounded block completes (70_reset_and_hazards.md R200). -/

namespace Sys2Proof.Machine

/-! ### The reset state -/

theorem inv_resetBlock (s : State) : Inv (resetBlock s) where
  colZero _ := rfl
  colBelowWidth := absurd rfl
  colOfNothing _ := rfl
  window := nofun
  lenientRun := nofun
  runOutsideDecode _ := rfl
  noErrorPos _ := rfl
  doneIdle := nofun
  latchKind := nofun
  latchPos := nofun
  obufLength := nofun
  obufOutsideDecode _ := rfl
  obufFits := (obufFits_iff _).2 fun c _ => Nat.zero_le c
  widthInDecode := nofun
  garbageInEncode := nofun
  counted := nofun
  putsBound := Nat.two_pow_pos _

/-- Settles O35: the reset state is what the reset input makes of it. -/
theorem invariantAtReset : Obligations.InvariantAtReset := by
  unfold Obligations.InvariantAtReset
  exact inv_resetBlock State.reset

/-! ### Registers the invariant does not speak of -/

/-- `FAULT`, `OUT`, the command stream and the encoder's group buffer play no part in the invariant. -/
theorem Inv.withUnread {s : State} (h : Inv s) (f : BitVec 2) (o : List Byte) (j : List HostInput) (e : Vector Byte 4)
    (c : Fin 5) : Inv { s with fault := f, out := o, input := j, ebuf := e, ecnt := c } :=
  { h with }

theorem Inv.raiseFault {s : State} (h : Inv s) (bit : BitVec 2) : Inv (raiseFault bit s) :=
  h.withUnread (s.fault ||| bit) s.out s.input s.ebuf s.ecnt

/-! ### Start commands (42_encode_path.md R130, 43_decode_path.md R145) -/

theorem inv_startEncode (s : State) (width : Width) :
    Inv { s.startInvocation with ww := width, ig := false, phase := .enc } where
  colZero _ := rfl
  colBelowWidth := zero_lt_width
  colOfNothing _ := rfl
  window := nofun
  lenientRun := nofun
  runOutsideDecode _ := rfl
  noErrorPos _ := rfl
  doneIdle := nofun
  latchKind := nofun
  latchPos := nofun
  obufLength := nofun
  obufOutsideDecode _ := rfl
  obufFits := (obufFits_iff _).2 fun c _ => Nat.zero_le c
  widthInDecode := nofun
  garbageInEncode _ := rfl
  counted := nofun
  putsBound := Nat.two_pow_pos _

theorem inv_startDecode (s : State) (ig : Bool) :
    Inv { s.startInvocation with ww := 0, ig := ig, phase := .dec } where
  colZero _ := rfl
  colBelowWidth := absurd rfl
  colOfNothing _ := rfl
  window _ := rfl
  lenientRun _ _ := rfl
  runOutsideDecode _ := rfl
  noErrorPos _ := rfl
  doneIdle := nofun
  latchKind := nofun
  latchPos _ := nofun
  obufLength _ _ := by simp
  obufOutsideDecode _ := rfl
  obufFits := (obufFits_iff _).2 fun c _ => Nat.zero_le c
  widthInDecode _ := rfl
  garbageInEncode := nofun
  counted _ := le_rfl
  putsBound := Nat.two_pow_pos _

/-! ### Phase `ENC` (42_encode_path.md R132, R133) -/

/-- A `PUT` that is admitted in phase `ENC` may be counted. -/
theorem Inv.countPut {s : State} (h : Inv s) (hp : s.phase = .enc) (hb : s.puts + 1 < 2 ^ 64) : Inv s.countPut :=
  { h with
    counted := fun hd => absurd (hp.symm.trans hd) nofun
    putsBound := hb }

theorem Inv.emitGroup {s : State} (h : Inv s) (b : List Byte) : Inv (emitGroup b s) := by
  obtain ⟨o, c, he, hzero, hlt⟩ := emitGroup_inv b s h
  rw [he]
  exact { h with colZero := hzero, colBelowWidth := hlt, colOfNothing := nofun }

theorem Inv.putEncode {s : State} (h : Inv s) (byte : Byte) : Inv (encPut byte s) := by
  unfold encPut
  split
  · exact h.withUnread s.fault s.out s.input _ _
  · exact h.emitGroup _

theorem Inv.flushGroup {s : State} (h : Inv s) : Inv (flushGroup s) := by
  unfold Machine.flushGroup
  split
  · exact h.emitGroup _
  · exact h

theorem flushGroup_phase (s : State) : (flushGroup s).phase = s.phase := by
  unfold flushGroup
  split
  · rw [emitGroup, emitAll_frame]
  · rfl

/-- The last lines of `END` without error in phase `ENC` (R133, 41_commands_dispatch.md R122). -/
theorem Inv.closeEncode {s : State} (h : Inv s) (hp : s.phase = .enc) (o : List Byte) :
    Inv { s with out := o, errKind := .noError, errPos := 0, done := true, phase := .idle } := by
  have hnotDec : s.phase ≠ .dec := by rw [hp]; decide
  exact { h with
    window := nofun
    lenientRun := nofun
    runOutsideDecode := fun _ => h.runOutsideDecode hnotDec
    noErrorPos := fun _ => rfl
    doneIdle := fun _ => rfl
    latchPos := nofun
    obufLength := nofun
    obufOutsideDecode := fun _ => h.obufOutsideDecode hnotDec
    widthInDecode := nofun
    garbageInEncode := nofun
    counted := nofun }

theorem Inv.endEncode {s : State} (h : Inv s) (hp : s.phase = .enc) : Inv (encEnd s).finishInvocation := by
  rw [encEnd_eq_flushGroup]
  exact h.flushGroup.closeEncode ((flushGroup_phase s).trans hp) _

/-! ### Phase `DEC` (43_decode_path.md R146 to R150) -/

/-- The decoder's part of the invariant, the position counter read as a number. -/
theorem DecoderInv.window_eq {s : State} (h : DecoderInv s) :
    s.gcnt.val = if s.n = 0 then 0 else (s.n.toNat - 1) % 8 + 1 := by
  have hzero : s.n.toNat = 0 ↔ s.n = 0 := BitVec.toNat_inj (y := (0 : Pos))
  rw [h.window]
  simp only [hzero]

theorem Inv.putDecode {s : State} (h : Inv s) (hp : s.phase = .dec) (ha : s.putAdmitted = true) (byte : Byte)
    (hf : (decPut byte s.countPut).obufFits = true) : Inv (decPut byte s.countPut) := by
  have hpos := positions_lt_of_putAdmitted hp ha
  have hputs := puts_lt_of_putAdmitted ha
  have hdec := (h.di hp).put hpos byte
  obtain ⟨-, hsum, hlenient⟩ := decPut_positions byte hpos
  have hcounted := h.counted hp
  obtain ⟨w, g, n, r, o, v, k, p, he⟩ : ∃ w g n r o v k p, decPut byte s.countPut = { s with
      win := w, gcnt := g, n := n, nlrun := r, obuf := o, elatV := v, elatKind := k, elatPos := p
      puts := s.puts + 1 } := ⟨_, _, _, _, _, _, _, _, decPut_frame byte s.countPut⟩
  rw [he] at hdec hsum hlenient hf ⊢
  exact { h with
    window := fun _ => hdec.window_eq
    lenientRun := fun _ hig => (hlenient hig).trans (h.lenientRun hp hig)
    runOutsideDecode := absurd hp
    latchKind := hdec.kind
    latchPos := fun _ => hdec.pos
    obufLength := fun _ => hdec.len
    obufOutsideDecode := absurd hp
    obufFits := hf
    counted := fun _ => hsum.trans (Nat.succ_le_succ hcounted)
    putsBound := hputs }

theorem Inv.endDecode {s t : State} (h : Inv s) (hp : s.phase = .dec) (ht : exec .endInv s = .next t) : Inv t := by
  obtain ⟨⟨o, k, p, lk, lp, rfl⟩, hresult⟩ := exec_end_dec_next hp ht
  exact { h with
    window := nofun
    lenientRun := nofun
    runOutsideDecode := fun _ => rfl
    noErrorPos := hresult h.latchKind
    doneIdle := fun _ => rfl
    latchKind := nofun
    latchPos := nofun
    obufLength := nofun
    obufOutsideDecode := fun _ => rfl
    obufFits := (obufFits_iff _).2 fun c _ => Nat.zero_le c
    widthInDecode := nofun
    garbageInEncode := nofun
    counted := nofun }

/-! ### Every step -/

theorem Inv.exec {s t : State} {i : Instr} (h : Inv s) (ht : exec i s = .next t) : Inv t := by
  cases exec_cases ht with
  | fault => exact h.raiseFault seqBit
  | startEncode width => exact inv_startEncode s width
  | startDecode ig => exact inv_startDecode s ig
  | putEncode byte hp ha => exact (h.countPut hp (puts_lt_of_putAdmitted ha)).putEncode byte
  | putDecode byte hp ha hf => exact h.putDecode hp ha byte hf
  | endEncode hp => exact h.endEncode hp
  | endLengthError hp => exact h.endDecode hp ht
  | endLatchedError _ hp => exact h.endDecode hp ht
  | endCommit _ hp => exact h.endDecode hp ht

theorem Inv.acceptWord {s t : State} {w : CmdWord} (h : Inv s) (ht : acceptWord w s = .next t) : Inv t := by
  cases hd : decode w with
  | error e =>
    rw [acceptWord_error hd] at ht
    cases ht
    exact h.raiseFault illBit
  | ok i =>
    rw [acceptWord_ok hd] at ht
    exact h.exec ht

/-- Settles O36: by what is presented; a command by its cases, and the reset input by the reset values. -/
theorem invariantKeptByStep : Obligations.InvariantKeptByStep := by
  unfold Obligations.InvariantKeptByStep
  intro s t h ht
  cases hs : s.input with
  | nil =>
    rw [step_nil hs] at ht
    cases ht
    exact h
  | cons e rest =>
    cases e with
    | word w =>
      rw [step_word hs] at ht
      exact (h.input rest).acceptWord ht
    | reset =>
      rw [step_reset hs] at ht
      cases ht
      exact inv_resetBlock _

/-! ### Every step completes (R200) -/

theorem putAdmitted_of_inv {s : State} (h : Inv s) (hb : s.puts + 1 < 2 ^ 64) (hp : s.phase = .dec) :
    s.putAdmitted = true :=
  putAdmitted_of_bounds hb (lt_of_le_of_lt (Nat.succ_le_succ (h.counted hp)) hb)

/-- An `OBUF` without capacity is always admitted. -/
theorem admitObuf_of_unbounded {s : State} (h : s.obufCap = none) : admitObuf s = .next s :=
  admitObuf_of_le (by rw [h]; nofun)

theorem exec_put_completes {s : State} (h : Inv s) (hcap : s.obufCap = none) (hb : s.puts + 1 < 2 ^ 64) (byte : Byte) :
    ∃ t, exec (.put byte) s = .next t := by
  cases hp : s.phase with
  | idle => exact ⟨_, exec_of_fault (by rw [hp]; rfl)⟩
  | enc => exact ⟨_, exec_put_enc byte hp (putAdmitted_of_enc hp hb)⟩
  | dec =>
    refine ⟨_, (exec_put_dec byte hp (putAdmitted_of_inv h hb hp)).trans (admitObuf_of_unbounded ?_)⟩
    rw [decPut_frame]
    exact hcap

theorem exec_end_completes {s : State} (hcap : s.obufCap = none) : ∃ t, exec .endInv s = .next t := by
  cases hp : s.phase with
  | idle => exact ⟨_, exec_of_fault (by rw [hp]; rfl)⟩
  | enc => exact ⟨_, exec_end_enc hp⟩
  | dec =>
    by_cases hg : s.gcnt = 0 ∨ s.gcnt = 8
    · exact ⟨_, exec_end_dec_admitted hp hg (by rw [hcap]; nofun)⟩
    · obtain ⟨h0, h8⟩ := not_or.1 hg
      exact ⟨_, exec_end_dec_length hp h0 h8⟩

theorem exec_completes {s : State} (h : Inv s) (hcap : s.obufCap = none) (hb : s.puts + 1 < 2 ^ 64) (i : Instr) :
    ∃ t, exec i s = .next t := by
  cases i with
  | enc width =>
    by_cases hp : s.phase = .idle
    · exact ⟨_, exec_enc_idle width hp⟩
    · exact ⟨_, exec_of_fault ((phaseAfter_enc_eq_none_iff _ width).2 hp)⟩
  | dec ig =>
    by_cases hp : s.phase = .idle
    · exact ⟨_, exec_dec_idle ig hp⟩
    · exact ⟨_, exec_of_fault ((phaseAfter_dec_eq_none_iff _ ig).2 hp)⟩
  | put byte => exact exec_put_completes h hcap hb byte
  | endInv => exact exec_end_completes hcap

/-- Settles O15: by what is presented; a command completes under the invariant. -/
theorem everyAdmittedStepCompletes : Obligations.EveryAdmittedStepCompletes := by
  unfold Obligations.EveryAdmittedStepCompletes
  intro s h hcap hb
  cases hs : s.input with
  | nil => exact ⟨s, step_nil hs⟩
  | cons e rest =>
    cases e with
    | reset => exact ⟨_, step_reset hs⟩
    | word w =>
      cases hd : decode w with
      | error e => exact ⟨_, step_illegalWord hs hd⟩
      | ok i =>
        rw [step_command hs hd]
        exact exec_completes (h.input rest) hcap hb i

end Sys2Proof.Machine
end

section
/-! The step and runs of words (41_commands_dispatch.md R120 to R124, 00_scope.md R15, 70_reset_and_hazards.md R190): each kind of input, the words that fault, and the grammar of the sequences that do not. -/

namespace Sys2Proof.Machine

/-! ### One step -/

/-- Settles O7: the step accepts the word, and the word is the command. -/
theorem stepRunsDecodedCommand : Obligations.StepRunsDecodedCommand := by
  unfold Obligations.StepRunsDecodedCommand
  exact fun _ _ _ _ => step_command

/-- Settles O9: with an empty command stream nothing is accepted. -/
theorem nothingPresentedHoldsState : Obligations.NothingPresentedHoldsState := by
  unfold Obligations.NothingPresentedHoldsState
  exact fun _ => step_nil

/-- Settles O11: the step is the reset of the block, which takes every register from the reset state. -/
theorem resetInputRestoresRegisters : Obligations.ResetInputRestoresRegisters := by
  unfold Obligations.ResetInputRestoresRegisters
  intro s rest hs
  refine ⟨_, step_reset hs, ?_⟩
  rw [resetBlock_eq]
  exact ⟨rfl, rfl, rfl, rfl, rfl, rfl, rfl, rfl, rfl, rfl, rfl, rfl, rfl, rfl, rfl, rfl, rfl, rfl, rfl, rfl⟩

/-! `PUT` and `END` have a row of the table in an open invocation only. -/

theorem phaseAfter_put_eq_none_iff (p : Phase) (byte : Byte) : phaseAfter p (.put byte) = none ↔ p = .idle := by
  cases p <;> simp [phaseAfter]

theorem phaseAfter_end_eq_none_iff (p : Phase) : phaseAfter p .endInv = none ↔ p = .idle := by
  cases p <;> simp [phaseAfter]

/-- Settles O18: neither command has a row of the phase table in `IDLE`. -/
theorem putAndEndNeedOpenInvocation : Obligations.PutAndEndNeedOpenInvocation := by
  unfold Obligations.PutAndEndNeedOpenInvocation
  exact fun s byte hp => ⟨exec_of_fault ((phaseAfter_put_eq_none_iff _ byte).2 hp),
    exec_of_fault ((phaseAfter_end_eq_none_iff _).2 hp)⟩

/-! ### Deleting the faulting words (R124) -/

/-- The state with other fault bits. -/
def State.withFault (f : BitVec 2) (s : State) : State := { s with fault := f }

theorem performedWords_of_fault {p : Phase} {w : CmdWord} (h : nextPhase p w = none) (ws : List CmdWord) :
    performedWords p (w :: ws) = performedWords p ws := by
  rw [performedWords, h]

theorem performedWords_of_performed {p q : Phase} {w : CmdWord} (h : nextPhase p w = some q) (ws : List CmdWord) :
    performedWords p (w :: ws) = w :: performedWords q ws := by
  rw [performedWords, h]

/-- A word that is performed does the same under other fault bits. -/
theorem acceptWord_withFault {s t : State} {w : CmdWord} (f : BitVec 2) (hp : nextPhase s.phase w ≠ none)
    (h : acceptWord w s = .next t) : acceptWord w (s.withFault f) = .next (t.withFault f) := by
  obtain ⟨hinput, ⟨hn, -⟩ | ⟨-, -, i, hd, hexec⟩⟩ := acceptWord_next h
  · exact absurd hn hp
  · rw [nextPhase_ok hd] at hp
    have hsame := exec_withEnv f s.input i s hp
    have hkept : t.withEnv f s.input = t.withFault f := by rw [← hinput]; rfl
    rw [hexec, withEnvResult, hkept] at hsame
    exact (acceptWord_ok hd _).trans hsame

/-- The words that are performed lead to the same state, whatever the fault bits are at the start. -/
theorem acceptAll_performedWords (f : BitVec 2) (ws : List CmdWord) {s t : State} (h : acceptAll ws s = .next t) :
    acceptAll (performedWords s.phase ws) (s.withFault f) = .next (t.withFault f) := by
  induction ws generalizing s with
  | nil => cases h; rfl
  | cons w ws ih =>
    obtain ⟨u, hw, hws⟩ := andThen_eq_next h
    have hrest := ih hws
    obtain ⟨-, ⟨hn, -, g, rfl, -⟩ | ⟨hn, -⟩⟩ := acceptWord_next hw
    · rw [performedWords_of_fault hn]
      exact hrest
    · rw [performedWords_of_performed hn, acceptAll, acceptWord_withFault f (by rw [hn]; nofun) hw, andThen_next]
      exact hrest

/-- Settles O39: the run over the words that are performed, with the fault bits as they were. -/
theorem faultingWordsActAsDeleted : Obligations.FaultingWordsActAsDeleted := by
  unfold Obligations.FaultingWordsActAsDeleted
  intro s t ws h
  rw [runWords_eq] at h ⊢
  exact acceptAll_performedWords s.fault ws h

/-! ### The grammar (R124) -/

/-- The rest of a legal sequence in an open invocation: its `PUT`s, then nothing, or `END` and a legal sequence. -/
def LegalRest (p : List Instr) : Prop :=
  ∃ text, p = putsProgram text ∨ ∃ rest, LegalSequence rest ∧ p = putsProgram text ++ .endInv :: rest

/-- The commands that continue a legal sequence in a phase. -/
def LegalFrom : Phase → List Instr → Prop
  | .idle, p => LegalSequence p
  | .enc, p => LegalRest p
  | .dec, p => LegalRest p

theorem legalFrom_nil (q : Phase) : LegalFrom q [] := by
  cases q with
  | idle => exact .done
  | enc => exact ⟨[], .inl rfl⟩
  | dec => exact ⟨[], .inl rfl⟩

/-- A legal sequence begins with a start command. -/
theorem legalSequence_cons_iff (i : Instr) (p : List Instr) :
    LegalSequence (i :: p) ↔ ((∃ width, i = .enc width) ∨ (∃ ig, i = .dec ig)) ∧ LegalRest p := by
  constructor
  · intro h
    generalize hq : i :: p = q at h
    cases h with
    | done => cases hq
    | openEncode width text => cases hq; exact ⟨.inl ⟨width, rfl⟩, text, .inl rfl⟩
    | openDecode ig text => cases hq; exact ⟨.inr ⟨ig, rfl⟩, text, .inl rfl⟩
    | encodeThen width text rest hrest =>
      cases hq
      exact ⟨.inl ⟨width, rfl⟩, text, .inr ⟨rest, hrest, by simp⟩⟩
    | decodeThen ig text rest hrest =>
      cases hq
      exact ⟨.inr ⟨ig, rfl⟩, text, .inr ⟨rest, hrest, by simp⟩⟩
  · rintro ⟨⟨width, rfl⟩ | ⟨ig, rfl⟩, text, rfl | ⟨rest, hrest, rfl⟩⟩
    · exact .openEncode width text
    · simpa [encodeProgram] using LegalSequence.encodeThen width text rest hrest
    · exact .openDecode ig text
    · simpa [decodeProgram] using LegalSequence.decodeThen ig text rest hrest

/-- In an open invocation the next command is a `PUT`, or the `END` after which a legal sequence follows. -/
theorem legalRest_cons_iff (i : Instr) (p : List Instr) :
    LegalRest (i :: p) ↔ (∃ byte, i = .put byte) ∧ LegalRest p ∨ i = .endInv ∧ LegalSequence p := by
  constructor
  · rintro ⟨_ | ⟨b, text⟩, h | ⟨rest, hrest, h⟩⟩
    · cases h
    · cases h; exact .inr ⟨rfl, hrest⟩
    · cases h; exact .inl ⟨⟨b, rfl⟩, text, .inl rfl⟩
    · cases h; exact .inl ⟨⟨b, rfl⟩, text, .inr ⟨rest, hrest, rfl⟩⟩
  · rintro (⟨⟨byte, rfl⟩, text, rfl | ⟨rest, hrest, rfl⟩⟩ | ⟨rfl, hp⟩)
    · exact ⟨byte :: text, .inl rfl⟩
    · exact ⟨byte :: text, .inr ⟨rest, hrest, rfl⟩⟩
    · exact ⟨[], .inr ⟨p, hp, rfl⟩⟩

/-- A legal sequence goes on through the rows of the phase table (R123). -/
theorem legalFrom_cons_iff (q : Phase) (i : Instr) (p : List Instr) :
    LegalFrom q (i :: p) ↔ ∃ q', phaseAfter q i = some q' ∧ LegalFrom q' p := by
  cases q with
  | idle => rw [LegalFrom, legalSequence_cons_iff]; cases i <;> simp [phaseAfter, LegalFrom]
  | enc => rw [LegalFrom, legalRest_cons_iff]; cases i <;> simp [phaseAfter, LegalFrom]
  | dec => rw [LegalFrom, legalRest_cons_iff]; cases i <;> simp [phaseAfter, LegalFrom]

theorem acceptWord_fault_ne_zero {w : CmdWord} {s t : State} (h : acceptWord w s = .next t) (hf : s.fault ≠ 0) :
    t.fault ≠ 0 := by
  obtain ⟨-, ⟨-, -, f, rfl, hne⟩ | ⟨-, hkept, -⟩⟩ := acceptWord_next h
  · exact hne
  · rw [hkept]; exact hf

/-- A command fault is not cleared by any word (10_state.md R30). -/
theorem acceptAll_fault_ne_zero (ws : List CmdWord) {s t : State} (h : acceptAll ws s = .next t) (hf : s.fault ≠ 0) :
    t.fault ≠ 0 := by
  induction ws generalizing s with
  | nil => cases h; exact hf
  | cons w ws ih =>
    obtain ⟨u, hw, hws⟩ := andThen_eq_next h
    exact ih hws (acceptWord_fault_ne_zero hw hf)

/-- The words of a legal continuation: the first is performed and the rest continue from its phase. -/
theorem exists_legalFrom_cons_iff (q : Phase) (w : CmdWord) (ws : List CmdWord) :
    (∃ p, LegalFrom q p ∧ w :: ws = programWords p) ↔
      ∃ q', nextPhase q w = some q' ∧ ∃ p, LegalFrom q' p ∧ ws = programWords p := by
  constructor
  · rintro ⟨_ | ⟨i, p⟩, hlegal, hws⟩
    · cases hws
    · obtain ⟨q', hq', hp⟩ := (legalFrom_cons_iff q i p).1 hlegal
      obtain ⟨rfl, rfl⟩ := List.cons.inj hws
      exact ⟨q', (nextPhase_ok (decode_encode i) q).trans hq', p, hp, rfl⟩
  · rintro ⟨q', hq', p, hp, rfl⟩
    cases hd : decode w with
    | error e => rw [nextPhase_error hd] at hq'; cases hq'
    | ok i =>
      rw [nextPhase_ok hd] at hq'
      refine ⟨i :: p, (legalFrom_cons_iff q i p).2 ⟨q', hq', hp⟩, ?_⟩
      rw [← encode_of_decode hd]
      rfl

/-- From any phase, a run without command fault is one over the words of a legal continuation. -/
theorem acceptAll_faultFree_iff (ws : List CmdWord) {s t : State} (hf : s.fault = 0) (h : acceptAll ws s = .next t) :
    t.fault = 0 ↔ ∃ p, LegalFrom s.phase p ∧ ws = programWords p := by
  induction ws generalizing s with
  | nil =>
    cases h
    exact ⟨fun _ => ⟨[], legalFrom_nil _, rfl⟩, fun _ => hf⟩
  | cons w ws ih =>
    obtain ⟨u, hw, hws⟩ := andThen_eq_next h
    rw [exists_legalFrom_cons_iff]
    obtain ⟨-, ⟨hn, -, f, rfl, hne⟩ | ⟨hn, hkept, -⟩⟩ := acceptWord_next hw
    · rw [hn]
      exact ⟨fun ht => absurd ht (acceptAll_fault_ne_zero ws hws hne), nofun⟩
    · rw [hn, ih (hkept.trans hf) hws]
      exact ⟨fun hp => ⟨_, rfl, hp⟩, fun ⟨_, hq, hp⟩ => Option.some.inj hq ▸ hp⟩

/-- Settles O40: the legal continuations in `IDLE` are the sequences of the grammar. -/
theorem legalSequencesAreThoseWithoutFault : Obligations.LegalSequencesAreThoseWithoutFault := by
  unfold Obligations.LegalSequencesAreThoseWithoutFault
  intro s t ws hp hf h
  rw [runWords_eq] at h
  have hiff := acceptAll_faultFree_iff ws (s := { s with input := [] }) hf h
  rw [show ({ s with input := [] } : State).phase = .idle from hp] at hiff
  exact hiff

end Sys2Proof.Machine
end

section
/-! The live registers determine what a command answers (10_state.md R40 (c)), and the words of an invocation what it pushes and reports (R42, 20_memory.md R61). -/

namespace Sys2Proof.Machine

/-- Two answers to the same input, from `s` and from `t`: the same refusal, or next states that agree on the live registers, the same bytes pushed. -/
inductive AnswerAlike (s t : State) : Result → Result → Prop where
  | next {s' t' : State} (pushed : List Byte) : SameLive s' t' → s'.out = s.out ++ pushed → t'.out = t.out ++ pushed →
      AnswerAlike s t (.next s') (.next t')
  | refused (r : Refusal) : AnswerAlike s t (.refused r) (.refused r)

/-- Nothing pushed. -/
theorem AnswerAlike.silent {s t s' t' : State} (h : SameLive s' t') (hs : s'.out = s.out) (ht : t'.out = t.out) :
    AnswerAlike s t (.next s') (.next t') :=
  .next [] h (hs.trans (List.append_nil _).symm) (ht.trans (List.append_nil _).symm)

theorem AnswerAlike.andThen {s t : State} {r r' : Result} {f g : State → Result} (h : AnswerAlike s t r r')
    (hfg : ∀ s' t', SameLive s' t' → AnswerAlike s' t' (f s') (g t')) :
    AnswerAlike s t (andThen r f) (andThen r' g) := by
  cases h with
  | refused r => exact .refused r
  | @next s' t' pushed hlive hs ht =>
    rw [andThen_next, andThen_next]
    have hrest := hfg s' t' hlive
    revert hrest
    generalize f s' = rs, g t' = rt
    rintro (⟨more, hlive', hs', ht'⟩ | r)
    · exact .next (pushed ++ more) hlive' (by rw [hs', hs, List.append_assoc]) (by rw [ht', ht, List.append_assoc])
    · exact .refused r

/-! ### The parts of `SameLive` -/

theorem SameLive.sameEnc {s t : State} (h : SameLive s t) (hp : s.phase = .enc) : SameEnc s t := by
  obtain ⟨hww, hecnt, hbuf, hcol, hany, -⟩ := h.enc hp
  exact ⟨hww, hecnt, hbuf, hcol, hany⟩

theorem SameLive.sameDec {s t : State} (h : SameLive s t) (hp : s.phase = .dec) : SameDec s t := by
  obtain ⟨-, hgcnt, hwin, hn, -, hv, hlat, hobuf, -⟩ := h.dec hp
  exact ⟨hgcnt, hwin, hn, hv, hlat, hobuf⟩

/-- In `IDLE` only the result registers and the capacity are live. -/
theorem sameLive_of_idle {s t : State} (hs : s.phase = .idle) (ht : t.phase = .idle) (hdone : s.done = t.done)
    (hkind : s.errKind = t.errKind) (hpos : s.errPos = t.errPos) (hcap : s.obufCap = t.obufCap) : SameLive s t where
  phase := hs.trans ht.symm
  done := hdone
  errKind := hkind
  errPos := hpos
  obufCap := hcap
  enc hp := absurd (hs.symm.trans hp) nofun
  dec hp := absurd (hs.symm.trans hp) nofun

/-- The fault bits are not live. -/
theorem SameLive.raiseFault {s t : State} (h : SameLive s t) (bit : BitVec 2) :
    SameLive (raiseFault bit s) (raiseFault bit t) :=
  ⟨h.phase, h.done, h.errKind, h.errPos, h.obufCap, h.enc, h.dec⟩

/-! ### Start commands: every register the invocation reads is written -/

theorem startEncode_sameLive {s t : State} (hcap : s.obufCap = t.obufCap) (width : Width) :
    SameLive { s.startInvocation with ww := width, ig := false, phase := .enc }
      { t.startInvocation with ww := width, ig := false, phase := .enc } where
  phase := rfl
  done := rfl
  errKind := rfl
  errPos := rfl
  obufCap := hcap
  enc _ := ⟨rfl, rfl, rfl, rfl, rfl, rfl⟩
  dec := nofun

theorem startDecode_sameLive {s t : State} (hcap : s.obufCap = t.obufCap) (ig : Bool) :
    SameLive { s.startInvocation with ww := 0, ig := ig, phase := .dec }
      { t.startInvocation with ww := 0, ig := ig, phase := .dec } where
  phase := rfl
  done := rfl
  errKind := rfl
  errPos := rfl
  obufCap := hcap
  enc := nofun
  dec _ := ⟨rfl, rfl, rfl, rfl, rfl, rfl, nofun, rfl, rfl⟩

theorem exec_enc_alike {s t : State} (hs : s.phase = .idle) (ht : t.phase = .idle) (hcap : s.obufCap = t.obufCap)
    (width : Width) : AnswerAlike s t (exec (.enc width) s) (exec (.enc width) t) := by
  rw [exec_enc_idle width hs, exec_enc_idle width ht]
  exact .silent (startEncode_sameLive hcap width) rfl rfl

theorem exec_dec_alike {s t : State} (hs : s.phase = .idle) (ht : t.phase = .idle) (hcap : s.obufCap = t.obufCap)
    (ig : Bool) : AnswerAlike s t (exec (.dec ig) s) (exec (.dec ig) t) := by
  rw [exec_dec_idle ig hs, exec_dec_idle ig ht]
  exact .silent (startDecode_sameLive hcap ig) rfl rfl

/-! ### Phase `ENC` -/

theorem putAdmitted_of_sameLive {s t : State} (h : SameLive s t) (hp : s.phase ≠ .idle) :
    s.putAdmitted = t.putAdmitted := by
  cases hq : s.phase with
  | idle => exact absurd hq hp
  | enc =>
    obtain ⟨-, -, -, -, -, hputs⟩ := h.enc hq
    rw [State.putAdmitted, State.putAdmitted, ← h.phase, hq, hputs]
    rfl
  | dec =>
    obtain ⟨-, -, -, hn, hrun, -, -, -, hputs⟩ := h.dec hq
    rw [State.putAdmitted, State.putAdmitted, ← h.phase, hputs, hn, hrun]

theorem encPut_sameLive {s t : State} (h : SameLive s t) (hp : s.phase = .enc) (byte : Byte)
    (henc : SameEnc (encPut byte s.countPut) (encPut byte t.countPut)) :
    SameLive (encPut byte s.countPut) (encPut byte t.countPut) := by
  obtain ⟨-, -, -, -, -, hputs⟩ := h.enc hp
  have hphase : (encPut byte s.countPut).phase = .enc := by rw [encPut_frame]; exact hp
  refine ⟨?_, ?_, ?_, ?_, ?_, fun _ => ⟨henc.ww, henc.ecnt, henc.buf, henc.col, henc.any, ?_⟩,
    fun hd => absurd (hphase.symm.trans hd) nofun⟩
  all_goals rw [encPut_frame, encPut_frame byte t.countPut]
  · exact h.phase
  · exact h.done
  · exact h.errKind
  · exact h.errPos
  · exact h.obufCap
  · exact congrArg (· + 1) hputs

theorem exec_put_enc_alike {s t : State} (h : SameLive s t) (hp : s.phase = .enc) (byte : Byte)
    (ha : s.putAdmitted = true) : AnswerAlike s t (exec (.put byte) s) (exec (.put byte) t) := by
  have hnotIdle : s.phase ≠ .idle := by rw [hp]; decide
  have hsame := h.sameEnc hp
  obtain ⟨pushed, hs, ht, henc⟩ := encPut_same byte (s := s.countPut) (t := t.countPut)
    ⟨hsame.ww, hsame.ecnt, hsame.buf, hsame.col, hsame.any⟩
  rw [exec_put_enc byte hp ha, exec_put_enc byte (h.phase.symm.trans hp) (putAdmitted_of_sameLive h hnotIdle ▸ ha)]
  exact .next pushed (encPut_sameLive h hp byte henc) hs ht

theorem exec_end_enc_alike {s t : State} (h : SameLive s t) (hp : s.phase = .enc) :
    AnswerAlike s t (exec .endInv s) (exec .endInv t) := by
  obtain ⟨pushed, hs, ht⟩ := encEnd_same (h.sameEnc hp)
  rw [exec_end_enc hp, exec_end_enc (h.phase.symm.trans hp)]
  refine .next pushed (sameLive_of_idle rfl rfl rfl ?_ ?_ ?_) hs ht
  all_goals rw [encEnd_frame, encEnd_frame t]
  · rfl
  · rfl
  · exact h.obufCap

/-! ### Phase `DEC` -/

theorem decPut_sameLive {s t : State} (h : SameLive s t) (hp : s.phase = .dec) (byte : Byte) :
    SameLive (decPut byte s.countPut) (decPut byte t.countPut) := by
  obtain ⟨hig, -, -, -, hrun, -, -, -, hputs⟩ := h.dec hp
  obtain ⟨hdec, hrun'⟩ := decPut_same byte (h.sameDec hp) hig hrun
  have hphase : (decPut byte s.countPut).phase = .dec := by rw [decPut_frame]; exact hp
  refine ⟨?_, ?_, ?_, ?_, ?_, fun he => absurd (hphase.symm.trans he) nofun,
    fun _ => ⟨?_, hdec.gcnt, hdec.win, hdec.n, hrun', hdec.elatV, hdec.lat, hdec.obuf, ?_⟩⟩
  all_goals rw [decPut_frame, decPut_frame byte t.countPut]
  · exact h.phase
  · exact h.done
  · exact h.errKind
  · exact h.errPos
  · exact h.obufCap
  · exact hig
  · exact congrArg (· + 1) hputs

theorem exec_put_dec_alike {s t : State} (h : SameLive s t) (hp : s.phase = .dec) (byte : Byte)
    (ha : s.putAdmitted = true) : AnswerAlike s t (exec (.put byte) s) (exec (.put byte) t) := by
  have hnotIdle : s.phase ≠ .idle := by rw [hp]; decide
  have hlive := decPut_sameLive h hp byte
  have hobuf : (decPut byte s.countPut).obuf = (decPut byte t.countPut).obuf := by
    refine (hlive.sameDec ?_).obuf
    rw [decPut_frame]
    exact hp
  rw [exec_put_dec byte hp ha, exec_put_dec byte (h.phase.symm.trans hp) (putAdmitted_of_sameLive h hnotIdle ▸ ha),
    admitObuf, admitObuf, SameLive.fits hlive.obufCap hobuf]
  split
  · exact .silent hlive (decPut_out byte _) (decPut_out byte _)
  · exact .refused _

/-- `END` with an incomplete group (R150). -/
theorem exec_end_dec_length_alike {s t : State} (h : SameLive s t) (hp : s.phase = .dec) (h0 : s.gcnt ≠ 0)
    (h8 : s.gcnt ≠ 8) : AnswerAlike s t (exec .endInv s) (exec .endInv t) := by
  have hdec := h.sameDec hp
  rw [exec_end_dec_length hp h0 h8,
    exec_end_dec_length (h.phase.symm.trans hp) (hdec.gcnt ▸ h0) (hdec.gcnt ▸ h8), hdec.n, hdec.gcnt]
  exact .silent (sameLive_of_idle rfl rfl rfl rfl rfl h.obufCap) rfl rfl

/-- `END` with whole groups, the last of them closed as final (R150). -/
theorem exec_end_dec_whole_alike {s t : State} (h : SameLive s t) (hp : s.phase = .dec) (hg : s.gcnt = 0 ∨ s.gcnt = 8) :
    AnswerAlike s t (exec .endInv s) (exec .endInv t) := by
  have hdec := h.sameDec hp
  have hclosed : SameDec (closeIfFull true { s with nlrun := 0 }) (closeIfFull true { t with nlrun := 0 }) :=
    closeIfFull_same true (hdec.counts s.puts t.puts 0 0)
  have houtS : (closeIfFull true { s with nlrun := 0 }).out = s.out := closeIfFull_out true _
  have houtT : (closeIfFull true { t with nlrun := 0 }).out = t.out := closeIfFull_out true _
  have hcap : (closeIfFull true { s with nlrun := 0 }).obufCap = (closeIfFull true { t with nlrun := 0 }).obufCap := by
    rw [closeIfFull_frame, closeIfFull_frame true { t with nlrun := 0 }]
    exact h.obufCap
  rw [exec_end_dec_whole hp hg, exec_end_dec_whole (h.phase.symm.trans hp) (hdec.gcnt ▸ hg)]
  generalize closeIfFull true { s with nlrun := 0 } = u, closeIfFull true { t with nlrun := 0 } = v at *
  rw [admitObuf, admitObuf, SameLive.fits hcap hclosed.obuf]
  split
  next =>
    rw [andThen_next, andThen_next, ← hclosed.elatV]
    split
    next hlatched =>
      obtain ⟨hkind, hpos⟩ := hclosed.lat hlatched
      exact .silent (sameLive_of_idle rfl rfl rfl hkind hpos hcap) houtS houtT
    next =>
      refine .next u.obuf (sameLive_of_idle rfl rfl rfl rfl rfl hcap) ?_ ?_
      · exact congrArg (· ++ u.obuf) houtS
      · rw [hclosed.obuf]
        exact congrArg (· ++ v.obuf) houtT
  next => exact .refused _

/-! ### Every command and every word -/

theorem exec_put_alike {s t : State} (h : SameLive s t) (hp : s.phase ≠ .idle) (byte : Byte) :
    AnswerAlike s t (exec (.put byte) s) (exec (.put byte) t) := by
  have hadm := putAdmitted_of_sameLive h hp
  cases ha : s.putAdmitted with
  | false =>
    rw [exec_put_not_admitted byte hp ha, exec_put_not_admitted byte (h.phase ▸ hp) (hadm ▸ ha)]
    exact .refused _
  | true =>
    cases hq : s.phase with
    | idle => exact absurd hq hp
    | enc => exact exec_put_enc_alike h hq byte ha
    | dec => exact exec_put_dec_alike h hq byte ha

theorem exec_end_alike {s t : State} (h : SameLive s t) (hp : s.phase ≠ .idle) :
    AnswerAlike s t (exec .endInv s) (exec .endInv t) := by
  cases hq : s.phase with
  | idle => exact absurd hq hp
  | enc => exact exec_end_enc_alike h hq
  | dec =>
    by_cases hg : s.gcnt = 0 ∨ s.gcnt = 8
    · exact exec_end_dec_whole_alike h hq hg
    · obtain ⟨h0, h8⟩ := not_or.1 hg
      exact exec_end_dec_length_alike h hq h0 h8

/-- No command reads a dead register (R40 (c)). -/
theorem exec_alike {s t : State} (h : SameLive s t) (i : Instr) : AnswerAlike s t (exec i s) (exec i t) := by
  by_cases hf : phaseAfter s.phase i = none
  · rw [exec_of_fault hf, exec_of_fault (h.phase ▸ hf)]
    exact .silent (h.raiseFault seqBit) rfl rfl
  · cases i with
    | enc width =>
      have hp : s.phase = .idle := not_not.1 (mt (phaseAfter_enc_eq_none_iff _ width).2 hf)
      exact exec_enc_alike hp (h.phase ▸ hp) h.obufCap width
    | dec ig =>
      have hp : s.phase = .idle := not_not.1 (mt (phaseAfter_dec_eq_none_iff _ ig).2 hf)
      exact exec_dec_alike hp (h.phase ▸ hp) h.obufCap ig
    | put byte => exact exec_put_alike h (mt (phaseAfter_put_eq_none_iff _ byte).2 hf) byte
    | endInv => exact exec_end_alike h (mt (phaseAfter_end_eq_none_iff _).2 hf)

/-- Settles O37: the two answers of a command are alike. -/
theorem deadRegistersAreNeverRead : Obligations.DeadRegistersAreNeverRead := by
  unfold Obligations.DeadRegistersAreNeverRead
  intro s t i h
  have halike := exec_alike h i
  refine ⟨fun s' hs' => ?next, fun r hr => ?refused⟩
  case next =>
    rw [hs'] at halike
    generalize exec i t = answer at halike ⊢
    obtain ⟨pushed, hlive, hs, ht⟩ := halike
    exact ⟨_, pushed, rfl, hlive, hs, ht⟩
  case refused =>
    rw [hr] at halike
    generalize exec i t = answer at halike ⊢
    cases halike
    rfl

theorem acceptWord_alike {s t : State} (h : SameLive s t) (w : CmdWord) :
    AnswerAlike s t (acceptWord w s) (acceptWord w t) := by
  cases hd : decode w with
  | error e =>
    rw [acceptWord_error hd, acceptWord_error hd]
    exact .silent (h.raiseFault illBit) rfl rfl
  | ok i =>
    rw [acceptWord_ok hd, acceptWord_ok hd]
    exact exec_alike h i

theorem acceptAll_alike (ws : List CmdWord) {s t : State} (h : SameLive s t) :
    AnswerAlike s t (acceptAll ws s) (acceptAll ws t) := by
  induction ws generalizing s t with
  | nil => exact .silent h rfl rfl
  | cons w ws ih => exact (acceptWord_alike h w).andThen fun _ _ => ih

/-- The words from a start command on, presented in two idle states with the same capacity. -/
theorem acceptAll_start_alike {s t : State} {start : Instr} (ws : List CmdWord) (hs : s.phase = .idle)
    (ht : t.phase = .idle) (hcap : s.obufCap = t.obufCap)
    (hstart : (∃ width, start = .enc width) ∨ (∃ ig, start = .dec ig)) :
    AnswerAlike s t (acceptAll (encode start :: ws) s) (acceptAll (encode start :: ws) t) := by
  rw [acceptAll, acceptAll, acceptWord_ok (decode_encode start), acceptWord_ok (decode_encode start)]
  refine AnswerAlike.andThen ?_ fun _ _ => acceptAll_alike ws
  obtain ⟨width, rfl⟩ | ⟨ig, rfl⟩ := hstart
  · exact exec_enc_alike hs ht hcap width
  · exact exec_dec_alike hs ht hcap ig

/-- Settles O38: the two runs answer alike, since the start command writes every live register. -/
theorem invocationDependsOnItsCommandsOnly : Obligations.InvocationDependsOnItsCommandsOnly := by
  unfold Obligations.InvocationDependsOnItsCommandsOnly
  intro s t s' start ws hs ht hcap hstart hrun
  have halike := acceptAll_start_alike (s := { s with input := [] }) (t := { t with input := [] }) ws hs ht hcap hstart
  rw [← runWords_eq, ← runWords_eq, hrun] at halike
  generalize runWords (encode start :: ws) t = answer at halike ⊢
  obtain ⟨pushed, hlive, hs', ht'⟩ := halike
  exact ⟨_, pushed, rfl, hs', ht', hlive.phase, hlive.done, hlive.errKind, hlive.errPos⟩

end Sys2Proof.Machine
end

section
/-! The statements of 40_codec_functions.md and 60_exceptions.md on whole messages: the round trips, the error of wrapped text in strict mode, and the causes and positions of the two errors. -/

namespace Sys2Proof.Machine

/-! ### Groups and the table space (R96, R104, R111, 20_memory.md R51) -/

/-- Settles O47: a partial group as the final one, and a whole group of either kind. -/
theorem decGroupUndoesEncGroup : Obligations.DecGroupUndoesEncGroup := by
  unfold Obligations.DecGroupUndoesEncGroup
  intro b final h1 h5 hfinal
  by_cases hwhole : b.length = 5
  · match b, hwhole with
    | [b0, b1, b2, b3, b4], _ => exact decGroup_encGroup_whole b0 b1 b2 b3 b4 final
  · obtain rfl := hfinal.resolve_right hwhole
    exact decGroup_encGroup_partial b h1 (by omega)

/-- Settles O56: both groups evaluate to the same byte. -/
theorem nonCanonicalGroupDecodes : Obligations.NonCanonicalGroupDecodes := by
  unfold Obligations.NonCanonicalGroupDecodes
  decide

theorem tableRead_sym {addr : Nat} (h : addr < 32) : tableRead addr = some (sym (BitVec.ofNat 5 addr)) := if_pos h

theorem tableRead_val {c : Nat} (h : c < 256) : tableRead (32 + c) = some (val (BitVec.ofNat 8 c)) := by
  have hsym : ¬ 32 + c < Config.valBase := (Nat.le_add_right 32 c).not_gt
  have hval : 32 + c < Config.valBase + 256 := Nat.add_lt_add_left h 32
  rw [tableRead, if_neg hsym, if_pos hval, Config.valBase, Nat.add_sub_cancel_left]

theorem tableRead_none {addr : Nat} (h : 288 ≤ addr) : tableRead addr = none := by
  have hsym : ¬ addr < Config.valBase := ((by decide : 32 ≤ 288).trans h).not_gt
  have hval : ¬ addr < Config.valBase + 256 := h.not_gt
  rw [tableRead, if_neg hsym, if_neg hval]

/-- Settles O44: the three ranges of addresses. -/
theorem tableSpaceHoldsTables : Obligations.TableSpaceHoldsTables := by
  unfold Obligations.TableSpaceHoldsTables
  refine ⟨fun v => ?_, fun c => ?_, fun addr => tableRead_none⟩
  · rw [Nat.zero_add, tableRead_sym v.isLt, BitVec.ofNat_toNat, BitVec.setWidth_eq]
  · rw [tableRead_val c.isLt, BitVec.ofNat_toNat, BitVec.setWidth_eq]

/-! ### The round trip (R110 (a) to (c)) -/

theorem lf_not_mem_encodeBytes (b : List Byte) : Config.lf ∉ encodeBytes b := fun h => ne_lf_of_mem_encodeBytes h rfl

/-- Strict mode leaves an encoding as it is, whatever run of `LF` follows it. -/
theorem pre_strict_encodeBytes (b : List Byte) (k : Nat) :
    pre (encodeBytes b ++ List.replicate k Config.lf) false = encodeBytes b :=
  pre_strict_append _ k fun h => lf_not_mem_encodeBytes b (List.mem_of_getLast? h)

theorem pre_lenient_encodeBytes (b : List Byte) : pre (encodeBytes b) true = encodeBytes b :=
  pre_lenient_id _ fun _ => mem_encodeBytes

/-- No symbol or pad is an `LF`. -/
theorem ne_lf_of_kept {c : Byte} (h : (isSym c || isPad c) = true) : (c != Config.lf) = true := by
  rw [bne_iff_ne]
  rintro rfl
  simp at h

/-- Lenient mode reads through the line breaks of `WRAP`. -/
theorem pre_lenient_wrap (s : List Byte) (w : Nat) (h : Config.lf ∉ s) : pre (wrap s w) true = pre s true := by
  have hkept (c : Byte) : (isSym c || isPad c) = ((isSym c || isPad c) && c != Config.lf) := by
    cases hc : isSym c || isPad c
    · rfl
    · rw [ne_lf_of_kept hc]; rfl
  rw [pre_lenient, pre_lenient, List.filter_congr fun c _ => hkept c, ← List.filter_filter, wrap_filter s w h]

/-- Settles O51: in each case the significant stream is the encoding itself, which `CORE_DECODE` undoes. -/
theorem decodeUndoesEncode : Obligations.DecodeUndoesEncode := by
  unfold Obligations.DecodeUndoesEncode
  intro b w
  have hdecode {x : List Byte} {ig : Bool} (h : pre x ig = encodeBytes b) : decodeBytes x ig = .ok b := by
    rw [decodeBytes, h, coreDecode_encodeBytes]
  refine ⟨hdecode ?strict, hdecode (pre_lenient_encodeBytes b), hdecode ?strictStream, hdecode ?lenientStream⟩
  case strict => simpa using pre_strict_encodeBytes b 0
  case strictStream => rw [encodeStream, wrap_zero]; exact pre_strict_encodeBytes b 1
  case lenientStream =>
    rw [encodeStream, pre_lenient_wrap _ _ (lf_not_mem_encodeBytes b), pre_lenient_encodeBytes]

/-! ### What `CORE_DECODE` answers (R107) -/

theorem coreDecode_of_incomplete {s : List Byte} (h : s.length % 8 ≠ 0) :
    coreDecode s = .err .invalidLength (8 * (s.length / 8)) := if_pos h

theorem coreDecode_eq_err_iff {s : List Byte} (h : s.length % 8 = 0) (kind : CodecError) (pos : Nat) :
    coreDecode s = .err kind pos ↔ (scanGroups true 0 s).2 = some (kind, pos) := by
  rw [coreDecode, if_neg (not_not.2 h)]
  rcases scanGroups true 0 s with ⟨bytes, _ | ⟨k, p⟩⟩
  · simp
  · simp

/-! ### The causes of `InvalidCharacter` (60_exceptions.md R167) -/

/-- The first character out of place is reported. -/
theorem scanGroups_invalidCharacter_iff {s : List Byte} (hs : s.length % 8 = 0) (pos : Nat) :
    (scanGroups true 0 s).2 = some (.invalidCharacter, pos) ↔
      BadCharacter s pos ∧ ∀ k < pos, ¬ BadCharacter s k := by
  have hfinds := scanGroups_finds 0 s hs
  constructor
  · intro h
    rw [h] at hfinds
    exact hfinds.2
  · rintro ⟨hbad, hfirst⟩
    rcases hresult : (scanGroups true 0 s).2 with _ | ⟨_ | _, pos'⟩
    · rw [hresult] at hfinds
      exact absurd hbad (hfinds pos)
    · rw [hresult] at hfinds
      exact absurd hbad (hfinds.2.1 pos)
    · rw [hresult] at hfinds
      obtain ⟨-, hbad', hfirst'⟩ := hfinds
      obtain hlt | rfl | hgt := lt_trichotomy pos pos'
      · exact absurd hbad (hfirst' pos hlt)
      · rfl
      · exact absurd hbad' (hfirst pos' hgt)

theorem coreDecode_invalidCharacter_iff (s : List Byte) (pos : Nat) :
    coreDecode s = .err .invalidCharacter pos ↔
      s.length % 8 = 0 ∧ BadCharacter s pos ∧ ∀ k < pos, ¬ BadCharacter s k := by
  by_cases h : s.length % 8 = 0
  · rw [coreDecode_eq_err_iff h, scanGroups_invalidCharacter_iff h]
    exact (and_iff_right h).symm
  · rw [coreDecode_of_incomplete h]
    exact ⟨nofun, fun hs => absurd hs.1 h⟩

/-- Settles O54: the answer of `CORE_DECODE` on the significant stream, and the characters that lenient mode keeps. -/
theorem invalidCharacterCauses : Obligations.InvalidCharacterCauses := by
  unfold Obligations.InvalidCharacterCauses
  refine ⟨fun x ig pos => coreDecode_invalidCharacter_iff (pre x ig) pos, fun x k c hc => ?_⟩
  have hkept : (isSym c || isPad c) = true := (List.mem_filter.1 (List.mem_of_getElem? hc)).2
  rw [Bool.or_eq_true, isPad_iff] at hkept
  exact hkept

/-! ### The causes of `InvalidLength` (60_exceptions.md R166) -/

theorem nbytes_eq_none_iff {p : Nat} (h : p ≤ 8) : nbytes p = none ↔ p ∈ [2, 5, 7, 8] := by
  interval_cases p <;> decide

/-- The final group of `s` is symbols and an illegal number of pads, the first of them at `pos`. -/
def FinalGroupIllegal (s : List Byte) (pos : Nat) : Prop :=
  ∃ (front : List Byte) (vs : List Sym5) (p : Nat), s = front ++ (vs.map sym ++ List.replicate p Config.pad) ∧
    vs.length + p = 8 ∧ nbytes p = none ∧ pos = front.length + vs.length

/-- The stream `s` of `G` groups ends in exactly `p` pads, an illegal number, the first of them at `pos` (R166 (b)). -/
def EndsInIllegalPads (s : List Byte) (pos : Nat) : Prop :=
  ∃ G p, s.length = 8 * G ∧ 1 ≤ G ∧ p ∈ [2, 5, 7, 8] ∧ pos = 8 * (G - 1) + (8 - p) ∧
    s.drop pos = List.replicate p Config.pad ∧ (p < 8 → ∃ c, s[pos - 1]? = some c ∧ isSym c = true)

theorem FinalGroupIllegal.endsInIllegalPads {s : List Byte} {pos : Nat} (hs : s.length % 8 = 0)
    (h : FinalGroupIllegal s pos) : EndsInIllegalPads s pos := by
  obtain ⟨front, vs, p, hsplit, hp, hillegal, rfl⟩ := h
  have hlen : s.length = front.length + 8 := by
    rw [hsplit, List.length_append, List.length_append, List.length_map, List.length_replicate, hp]
  refine ⟨front.length / 8 + 1, p, by omega, by omega, (nbytes_eq_none_iff (by omega)).1 hillegal, by omega, ?_, ?_⟩
  · rw [hsplit, ← List.append_assoc]
    exact List.drop_left' (by rw [List.length_append, List.length_map])
  · intro hlt
    obtain rfl | ⟨ws, v, rfl⟩ := vs.eq_nil_or_concat'
    · simp at hp; omega
    · refine ⟨sym v, ?_, isSym_sym v⟩
      have hindex : front.length + (ws ++ [v]).length - 1 = (front ++ ws.map sym).length := by simp
      have hs' : s = (front ++ ws.map sym) ++ sym v :: List.replicate p Config.pad := by simp [hsplit]
      rw [hindex, hs', List.getElem?_append_right le_rfl, Nat.sub_self, List.getElem?_cons_zero]

/-- Without a character out of place, what stands in the final group before its trailing pads is symbols. -/
theorem isSym_of_not_badCharacter {s : List Byte} {k last : Nat} {c d : Byte} (hgood : ∀ k, ¬ BadCharacter s k)
    (hk : s[k]? = some c) (hle : k ≤ last) (hgroup : k / 8 = last / 8) (hlast : s[last]? = some d)
    (hsym : isSym d = true) : isSym c = true := by
  by_contra hc
  have hpad : c = Config.pad := by
    rw [← isPad_iff]
    by_contra hp
    exact hgood k ⟨c, hk, .inl ⟨by simpa using hc, by simpa using hp⟩⟩
  obtain rfl | hlt := hle.eq_or_lt
  · rw [hk] at hlast
    cases hlast
    exact hc hsym
  · exact hgood last ⟨d, hlast, .inr (.inl ⟨hsym, k, hlt, hgroup, hpad ▸ hk⟩)⟩

theorem map_sym_symValue {cs : List Byte} (h : ∀ c ∈ cs, isSym c = true) : (cs.map symValue).map sym = cs := by
  rw [List.map_map]
  exact (List.map_congr_left fun c hc => sym_symValue c (h c hc)).trans (List.map_id cs)

theorem EndsInIllegalPads.finalGroupIllegal {s : List Byte} {pos : Nat} (hgood : ∀ k, ¬ BadCharacter s k)
    (h : EndsInIllegalPads s pos) : FinalGroupIllegal s pos := by
  obtain ⟨G, p, hlen, hG, hp, rfl, hdrop, hlast⟩ := h
  have hle : p ≤ 8 := by
    simp only [List.mem_cons, List.not_mem_nil, or_false] at hp
    omega
  have hsyms : ∀ c ∈ (s.drop (8 * (G - 1))).take (8 - p), isSym c = true := by
    intro c hc
    obtain ⟨j, hj⟩ := List.mem_iff_getElem?.1 hc
    have hjlt : j < 8 - p := by
      by_contra hge
      rw [List.getElem?_take_eq_none (by omega)] at hj
      cases hj
    rw [List.getElem?_take_of_lt hjlt, List.getElem?_drop] at hj
    obtain ⟨d, hd, hsym⟩ := hlast (by omega)
    exact isSym_of_not_badCharacter hgood hj (by omega) (by omega) hd hsym
  have hmid : ((s.drop (8 * (G - 1))).take (8 - p)).length = 8 - p := by
    rw [List.length_take, List.length_drop]
    omega
  refine ⟨s.take (8 * (G - 1)), ((s.drop (8 * (G - 1))).take (8 - p)).map symValue, p, ?_, ?_,
    (nbytes_eq_none_iff hle).2 hp, ?_⟩
  · rw [map_sym_symValue hsyms, ← hdrop, ← List.drop_drop, List.take_append_drop, List.take_append_drop]
  · rw [List.length_map, hmid]
    omega
  · rw [List.length_map, hmid, List.length_take]
    omega

/-- A final group with an illegal number of pads is reported when no character is out of place: the groups before it pass. -/
theorem scanGroups_of_finalGroupIllegal {s : List Byte} {pos : Nat} (hs : s.length % 8 = 0)
    (hgood : ∀ k, ¬ BadCharacter s k) (h : FinalGroupIllegal s pos) :
    (scanGroups true 0 s).2 = some (.invalidLength, pos) := by
  obtain ⟨front, vs, p, hsplit, hp, hillegal, rfl⟩ := h
  have hgroup : (vs.map sym ++ List.replicate p Config.pad).length = 8 := by
    rw [List.length_append, List.length_map, List.length_replicate, hp]
  have hlen : s.length = front.length + 8 := by rw [hsplit, List.length_append, hgroup]
  have hwindow := scanGroups_window true front (vs.map sym ++ List.replicate p Config.pad) (by omega) hgroup
  have hfinds := scanGroups_finds 0 s hs
  rw [← hsplit, decGroup_illegal_pads true vs p (.inr rfl) hillegal] at hwindow
  rcases hfront : scanGroups false 0 front with ⟨bytes, _ | ⟨kind, pos⟩⟩
  · rw [hfront] at hwindow
    rw [hwindow]
    simp only [show 8 - p = vs.length by omega]
  · rw [hfront] at hwindow
    have hlt := (scanGroups_err_lt (congrArg Prod.snd hfront)).2
    rw [hwindow] at hfinds
    cases kind with
    | invalidCharacter => exact absurd hfinds.2.1 (hgood _)
    | invalidLength =>
      obtain ⟨-, -, front', vs', p', hsplit', hgroup', -, rfl⟩ := hfinds
      have hlen' : s.length = front'.length + 8 := by rw [hsplit', List.length_append, hgroup']
      omega

theorem scanGroups_invalidLength_iff {s : List Byte} (hs : s.length % 8 = 0) (pos : Nat) :
    (scanGroups true 0 s).2 = some (.invalidLength, pos) ↔
      (∀ k, ¬ BadCharacter s k) ∧ EndsInIllegalPads s pos := by
  constructor
  · intro h
    have hfinds := scanGroups_finds 0 s hs
    rw [h] at hfinds
    obtain ⟨-, hgood, front, vs, p, hsplit, hgroup, hillegal, rfl⟩ := hfinds
    rw [List.length_append, List.length_map, List.length_replicate] at hgroup
    refine ⟨hgood, FinalGroupIllegal.endsInIllegalPads hs ⟨front, vs, p, hsplit, hgroup, hillegal, by omega⟩⟩
  · rintro ⟨hgood, hpads⟩
    exact scanGroups_of_finalGroupIllegal hs hgood (hpads.finalGroupIllegal hgood)

theorem coreDecode_invalidLength_iff (s : List Byte) (pos : Nat) :
    coreDecode s = .err .invalidLength pos ↔
      (s.length % 8 ≠ 0 ∧ pos = 8 * (s.length / 8)) ∨
      (s.length % 8 = 0 ∧ (∀ k, ¬ BadCharacter s k) ∧ EndsInIllegalPads s pos) := by
  by_cases h : s.length % 8 = 0
  · rw [coreDecode_eq_err_iff h, scanGroups_invalidLength_iff h]
    exact ⟨fun hs => .inr ⟨h, hs⟩, fun hs => (hs.resolve_left fun hl => hl.1 h).2⟩
  · rw [coreDecode_of_incomplete h]
    constructor
    · rintro ⟨⟩
      exact .inl ⟨h, rfl⟩
    · rintro (⟨-, rfl⟩ | ⟨h0, -⟩)
      · rfl
      · exact absurd h0 h

/-- Settles O53: the answer of `CORE_DECODE` on the significant stream. -/
theorem invalidLengthCauses : Obligations.InvalidLengthCauses := by
  unfold Obligations.InvalidLengthCauses
  exact fun x ig pos => coreDecode_invalidLength_iff (pre x ig) pos

/-! ### Error positions (R109) -/

theorem coreDecode_err_lt {s : List Byte} {kind : CodecError} {pos : Nat} (h : coreDecode s = .err kind pos) :
    pos < s.length := by
  by_cases hs : s.length % 8 = 0
  · have := (scanGroups_err_lt ((coreDecode_eq_err_iff hs kind pos).1 h)).2
    omega
  · rw [coreDecode_of_incomplete hs] at h
    cases h
    omega

/-- The strict significant stream is the front of the raw input. -/
theorem pre_strict_getElem? {x : List Byte} {pos : Nat} (h : pos < (pre x false).length) :
    (pre x false)[pos]? = x[pos]? := by
  obtain ⟨k, hx, -⟩ := pre_strict_split x
  conv_rhs => rw [hx]
  exact (List.getElem?_append_left h).symm

/-- Settles O55: a bound on the position, and the strict significant stream as the front of the input. -/
theorem errorPositionIndexesSignificantStream : Obligations.ErrorPositionIndexesSignificantStream := by
  unfold Obligations.ErrorPositionIndexesSignificantStream
  intro x ig kind pos h
  have hlt := coreDecode_err_lt h
  exact ⟨hlt, by rintro rfl; exact pre_strict_getElem? hlt⟩

/-! ### Wrapped text in strict mode (R110 (d), 70_reset_and_hazards.md R195) -/

theorem length_flatten_closed_lines (full : List (List Byte)) :
    (full.map (· ++ [Config.lf])).flatten.length = full.flatten.length + full.length := by
  induction full with
  | nil => rfl
  | cons l full ih =>
    simp only [List.map_cons, List.flatten_cons, List.length_append, List.length_cons, List.length_nil, ih]
    omega

/-- The strict significant stream of text of more than one line: the embedded `LF`s stay, the first of them after `w` characters. -/
theorem pre_strict_wrap {s : List Byte} {w : Nat} (hw : 0 < w) (hs : w < s.length) (hlf : Config.lf ∉ s) :
    (pre (wrap s w) false).length = s.length + ((s.length + w - 1) / w - 1) ∧
    ∃ rest, pre (wrap s w) false = s.take w ++ Config.lf :: rest := by
  have hne : s ≠ [] := by rintro rfl; simp at hs
  obtain ⟨full, last, hwrap, hjoin, hfull, hlast, hlastw, hcount⟩ := wrap_lines s w hw hne
  have hopen : ((full.map (· ++ [Config.lf])).flatten ++ last).getLast? ≠ some Config.lf := by
    rw [List.getLast?_append_of_ne_nil _ (List.ne_nil_of_length_pos hlast)]
    exact fun h => hlf (hjoin ▸ List.mem_append_right _ (List.mem_of_getLast? h))
  have hpre : pre (wrap s w) false = (full.map (· ++ [Config.lf])).flatten ++ last := by
    rw [hwrap]
    exact pre_strict_append _ 1 hopen
  rw [hpre]
  constructor
  · rw [List.length_append, length_flatten_closed_lines, ← hcount, ← hjoin, List.length_append]
    omega
  · cases full with
    | nil =>
      rw [List.flatten_nil, List.nil_append] at hjoin
      rw [hjoin] at hlastw
      omega
    | cons l full =>
      have hl : s.take w = l := by
        rw [← hjoin, List.flatten_cons, List.append_assoc]
        exact List.take_left' (hfull l List.mem_cons_self)
      exact ⟨(full.map (· ++ [Config.lf])).flatten ++ last, by simp [hl]⟩

theorem padsOf_le (n : Nat) : padsOf n ≤ 6 := by
  unfold padsOf
  split <;> omega

/-- All but the last six characters of an encoding are symbols. -/
theorem isSym_of_encodeBytes {b : List Byte} {k : Nat} {c : Byte} (h : (encodeBytes b)[k]? = some c)
    (hk : k + 6 < (encodeBytes b).length) : isSym c = true := by
  obtain ⟨vs, hvs⟩ := encodeBytes_symbols_pads b
  have hpads := padsOf_le b.length
  rw [hvs, List.length_append, List.length_map, List.length_replicate] at hk
  rw [hvs, List.getElem?_append_left (by rw [List.length_map]; omega), List.getElem?_map, Option.map_eq_some_iff] at h
  obtain ⟨v, -, rfl⟩ := h
  exact isSym_sym v

/-- A stream of symbols up to position `k` has no character out of place there. -/
theorem not_badCharacter_of_symbols {t : List Byte} {k : Nat} (h : ∀ j ≤ k, ∀ c, t[j]? = some c → isSym c = true) :
    ¬ BadCharacter t k := by
  rintro ⟨c, hc, ⟨hsym, -⟩ | ⟨-, j, hj, -, hpad⟩ | ⟨hpad, -⟩⟩
  · rw [h k le_rfl c hc] at hsym
    cases hsym
  · exact isSym_ne_pad (h j hj.le _ hpad) rfl
  · exact isSym_ne_pad (h k le_rfl c hc) ((isPad_iff c).1 hpad)

/-- In wrapped text of a whole number of groups, and so of at least nine lines, the first embedded `LF` is the first character out of place. -/
theorem coreDecode_wrapped {b rest t : List Byte} {w : Nat} (hlong : 8 * w < (encodeBytes b).length)
    (ht : t = (encodeBytes b).take w ++ Config.lf :: rest) (hmod : t.length % 8 = 0) :
    coreDecode t = .err .invalidCharacter w := by
  have hline : ((encodeBytes b).take w).length = w := by
    rw [List.length_take]
    omega
  have hbreak : t[w]? = some Config.lf := by
    rw [ht, List.getElem?_append_right hline.le, hline, Nat.sub_self, List.getElem?_cons_zero]
  have hsyms : ∀ j < w, ∀ c, t[j]? = some c → isSym c = true := by
    intro j hj c hc
    rw [ht, List.getElem?_append_left (by omega), List.getElem?_take_of_lt hj] at hc
    exact isSym_of_encodeBytes hc (by omega)
  rw [coreDecode_invalidCharacter_iff]
  exact ⟨hmod, ⟨Config.lf, hbreak, .inl ⟨isSym_lf, isPad_lf⟩⟩,
    fun k hk => not_badCharacter_of_symbols fun j hj => hsyms j (by omega)⟩

/-- Settles O52: the length of the significant stream decides; with whole groups the number of lines is large, and the first line break is out of place. -/
theorem wrappedTextFailsInStrictMode : Obligations.WrappedTextFailsInStrictMode := by
  unfold Obligations.WrappedTextFailsInStrictMode
  intro b w L hw hlong hL
  obtain ⟨hlen, rest, hpre⟩ := pre_strict_wrap hw hlong (lf_not_mem_encodeBytes b)
  rw [← hL] at hlen
  rw [decodeBytes, encodeStream]
  refine ⟨fun hmod => ?incomplete, fun hmod => coreDecode_wrapped ?lines hpre (hlen ▸ hmod)⟩
  case incomplete => rw [coreDecode_of_incomplete (hlen ▸ hmod), hlen]
  case lines =>
    have hgroups := encodeBytes_length b
    have htwo : 2 ≤ ((encodeBytes b).length + w - 1) / w := (Nat.le_div_iff_mul_le hw).2 (by omega)
    have hnine : 9 ≤ ((encodeBytes b).length + w - 1) / w := by omega
    have := (Nat.le_div_iff_mul_le hw).1 hnine
    omega

end Sys2Proof.Machine
end

section
/-! What the host reads and renders (10_state.md R43, 60_exceptions.md R165, R178). -/

namespace Sys2Proof.Machine

theorem Phase.code_ne_three (p : Phase) : p.code ≠ 3 := by
  cases p <;> decide

theorem ErrKind.code_ne_three (k : ErrKind) : k.code ≠ 3 := by
  cases k <;> decide

/-- Each bit of `FAULT` as a mask (R30). -/
theorem fault_bits (f : BitVec 2) : (f.getLsbD 0 = true ↔ f &&& 1 ≠ 0) ∧ (f.getLsbD 1 = true ↔ f &&& 2 ≠ 0) := by
  revert f
  decide

/-- Settles O41: the port shows the fields by their codes, none of which is 3. -/
theorem statusPortShowsCodes : Obligations.StatusPortShowsCodes := by
  unfold Obligations.StatusPortShowsCodes
  refine ⟨fun s => ⟨rfl, s.phase.code_ne_three, s.errKind.code_ne_three, fault_bits s.fault⟩, ?_⟩
  exact ⟨rfl, rfl, rfl, rfl, rfl, rfl⟩

/-- Settles O42: the message of each kind as it is written. -/
theorem hostRendersPosition : Obligations.HostRendersPosition := by
  unfold Obligations.HostRendersPosition
  exact ⟨fun _ => ⟨rfl, rfl⟩, rfl, rfl, fun _ => rfl⟩

end Sys2Proof.Machine
end
